-- ==== Sys2Proof/Config.lean ====
section
/-! DEFINITION. What one build of `ring_fifo` fixes (00_scope.md R5, R7), and the free values: constants
with no body for everything the spec leaves unspecified, so that a claim about one of them holds for every
value it can take. -/

namespace Sys2Proof.Config

/-- The default of the build parameter `PTR_W`: the width of a position counter, of the mask and of every size,
index and capacity (R5).  The parameter itself is a field of State, and everything is defined at every width;
this one is the reset state's and the opcode table's (log 1). -/
def ptrW : Nat := 32

/-- `CMD_W = PTR_W + 16`, the width of a command word (R51). -/
def cmdW (w : Nat) : Nat := w + 16

/-- FREE VALUE (log 5): the unspecified content of storage slot `slot` in storage epoch `epoch`, an epoch
being the time between two events (reset, successful INIT) that leave the storage unspecified (R22, U3). -/
opaque storageByte (epoch slot : Nat) : BitVec 8

/-- FREE VALUE (log 6): what port `port` drives on `rsp_data` in its response number `k` when
`rsp_data_valid = 0` (R56, U4). -/
opaque rspData (port k : Nat) : BitVec 8

/-- FREE VALUE (log 10): byte `j` of a source buffer whose presented bytes do not reach `j`; `k` tells one
WRITE from the next. -/
opaque srcByte (k j : Nat) : BitVec 8

/-- FREE VALUE (log 7, 8): the value, `w` bits wide, of word register number `field` after the `k`-th step from
which the state is unspecified (R62, R88, U5). -/
opaque conflictWord (w field k : Nat) : BitVec w

/-- FREE VALUE (log 7, 8): an unspecified bit, as for `conflictWord`. -/
opaque conflictFlag (field k : Nat) : Bool

/-- FREE VALUE (log 7, 8): the status code of a response that is itself unspecified (R62); the eight codes
0 to 7 are the ones ever produced (R55). -/
opaque conflictStatus (port k : Nat) : BitVec 3

end Sys2Proof.Config
end

