-- ==== Sys2Proof/Word.lean ====
section
/-! DEFINITION. The word types of a build of counter width `w`, its `PTR_W` (00_scope.md R5, R9, R10;
30_encoding.md R51). -/

namespace Sys2Proof

/-- A stored or transferred byte: every access of the block is one byte (R36). -/
abbrev Byte := BitVec 8

/-- A `PTR_W`-bit unsigned value (R5): counters, mask, occupancy, sizes, indexes, capacities.  Arithmetic on it is
modulo `2^PTR_W` and comparisons are unsigned (R10), as `BitVec`'s are. -/
abbrev Word (w : Nat) := BitVec w

/-- A command word, `CMD_W = PTR_W + 16` bits (R51). -/
abbrev CmdWord (w : Nat) := BitVec (w + 16)

end Sys2Proof
end

