-- ==== Sys2Proof/Syntax.lean ====
section
/-! DEFINITION. Ports, status codes, the nine commands (one constructor per row of the opcode table), what an
agent presents on a port, and the assembler's lines (30_encoding.md). -/

namespace Sys2Proof

/-- The three command ports, each one agent's (R49, R94).  The fourth port, observation, takes no command. -/
inductive Port where
  | host
  | producer
  | consumer
deriving DecidableEq, Repr

/-- The status values of a response (R55); codes 8 to 15 are never produced. -/
inductive Status where
  | success
  | invalidArgument
  | invalidLength
  | full
  | empty
  | notFound
  | illegal
  | unconfigured
deriving DecidableEq, Repr

/-- The command set, version 1 (R2, R53), each with the operands it uses; a field of the word that a command
does not use is ignored (R52) and is no argument here.  A capacity, size or index is the number in the word's
`arg`; on a build of width `PTR_W` it is below `2^PTR_W` (`wfWidth`, WellFormed.lean). -/
inductive Instr where
  /-- INIT: `bp` = 1 when the storage is present; `cap` the capacity (R59). -/
  | init (bp : Bool) (cap : Nat)
  /-- PUT: append one byte (R64). -/
  | put (b : Byte)
  /-- WRITE: append up to `n` bytes of `SRC` (R78). -/
  | write (n : Nat)
  /-- WRROOM: report the room (R82). -/
  | wrroom
  /-- GET: remove and return the oldest byte (R66). -/
  | get
  /-- PEEK: read the byte at offset `idx` from the oldest (R68). -/
  | peek (idx : Nat)
  /-- FLUSH: discard every stored byte (R70). -/
  | flush
  /-- READ: remove up to `n` bytes into `DST` (R72). -/
  | read (n : Nat)
  /-- RDAVAIL: report the number of stored bytes (R76). -/
  | rdavail
deriving DecidableEq, Repr

/-- What an agent presents on its port: a command word, and with a WRITE the bytes of `SRC`, with a READ the
bytes `DST` holds beforehand (R48).  `none`: the port's buffer stays the one it has (log 10, 11). -/
structure Command (w : Nat) where
  word : CmdWord w
  buf  : Option (List Byte)
deriving DecidableEq, Repr

/-- The lines of the assembler (R57), the two pseudo-instructions of R58 among them. -/
inductive AsmLine where
  | init (cap : Nat)
  | initNobuf (cap : Nat)
  | put (b : Byte)
  | write (n : Nat) (bytes : List Byte)
  | wrroom
  | get
  | peek (idx : Nat)
  | flush
  | read (n : Nat)
  | rdavail
  /-- `C: read none, <n>` -/
  | readNone (n : Nat)
  /-- `P: write none, <n>` -/
  | writeNone (n : Nat)
deriving DecidableEq, Repr

end Sys2Proof
end

