-- ==== Sys2Proof/Decode.lean ====
section
/-! DEFINITION. The command word's fields, the decoder (total: every word is a command or is refused by name),
the encoder, the byte order of a value on a byte-wide bus, and the assembler (30_encoding.md R51 to R58;
20_memory.md R36), for every counter width `w` (00_scope.md R5). -/

namespace Sys2Proof

variable {w : Nat}

/-- Bits 3:0, the opcode (R51). -/
def opField (c : CmdWord w) : BitVec 4 := c.extractLsb' 0 4

/-- Bits 11:4, the byte of a PUT (R51). -/
def dataField (c : CmdWord w) : Byte := c.extractLsb' 4 8

/-- Bit 12, storage present (R51). -/
def bpField (c : CmdWord w) : Bool := c.getLsbD 12

/-- Bits 15:13, reserved, must be 0 (R51). -/
def rsvField (c : CmdWord w) : BitVec 3 := c.extractLsb' 13 3

/-- Bits PTR_W+15:16, capacity, index or requested size, used unchanged (R51, R52). -/
def argField (c : CmdWord w) : Word w := c.extractLsb' 16 w

/-- Why bytes or a word are no command.  The first three are R54's cases (b), (a) and (c), on which the port
answers ILLEGAL (R86); `wrongLength` is for byte strings that are not one whole word, which no port carries. -/
inductive DecodeError where
  | reservedBits
  | reservedOpcode
  | wrongPort
  | wrongLength
deriving DecidableEq, Repr

/-- The command a word encodes, whichever port it is on (R53; R54 (a) and (b)). -/
def decode (c : CmdWord w) : Except DecodeError Instr :=
  if rsvField c ≠ 0#3 then .error .reservedBits
  else
    match (opField c).toNat with
    | 0x1 => .ok (.init (bpField c) (argField c).toNat)
    | 0x2 => .ok (.put (dataField c))
    | 0x3 => .ok (.write (argField c).toNat)
    | 0x4 => .ok .wrroom
    | 0x5 => .ok .get
    | 0x6 => .ok (.peek (argField c).toNat)
    | 0x7 => .ok .flush
    | 0x8 => .ok (.read (argField c).toNat)
    | 0x9 => .ok .rdavail
    | _   => .error .reservedOpcode

/-- The one port that accepts a command (R49, R53, R94). -/
def Instr.port : Instr → Port
  | .init _ _ => .host
  | .put _    => .producer
  | .write _  => .producer
  | .wrroom   => .producer
  | .get      => .consumer
  | .peek _   => .consumer
  | .flush    => .consumer
  | .read _   => .consumer
  | .rdavail  => .consumer

/-- The command a word is on port `p` (R54, all three cases). -/
def decodeAt (p : Port) (c : CmdWord w) : Except DecodeError Instr :=
  match decode c with
  | .ok i    => if i.port = p then .ok i else .error .wrongPort
  | .error r => .error r

/-- A word from its fields, the reserved ones 0 (R51); `{arg, rsv, bp, data, op}` in the notation of R9. -/
def commandWord (op : BitVec 4) (data : Byte) (bp : Bool) (arg : Word w) : CmdWord w :=
  arg ++ (0#3 ++ BitVec.ofBool bp ++ data ++ op)

/-- The word of a command on a build of width `w`, every ignored field 0 (R51, R53). -/
def encode (w : Nat) : Instr → CmdWord w
  | .init bp cap => commandWord 0x1 0 bp (BitVec.ofNat w cap)
  | .put b       => commandWord 0x2 b false 0#w
  | .write n     => commandWord 0x3 0 false (BitVec.ofNat w n)
  | .wrroom      => commandWord 0x4 0 false 0#w
  | .get         => commandWord 0x5 0 false 0#w
  | .peek idx    => commandWord 0x6 0 false (BitVec.ofNat w idx)
  | .flush       => commandWord 0x7 0 false 0#w
  | .read n      => commandWord 0x8 0 false (BitVec.ofNat w n)
  | .rdavail     => commandWord 0x9 0 false 0#w

/-- A mask over a word's fields: all of `arg` or none of it, and the low 16 bits. -/
def fieldMask (arg : Bool) (low : BitVec 16) : CmdWord w := (if arg then BitVec.allOnes w else 0#w) ++ low

/-- The bits of a word that a command's decoding looks at: `op`, `rsv` and the fields it uses (R52, R53). -/
def usedMask (w : Nat) : Instr → CmdWord w
  | .init _ _ => fieldMask true 0xF00F
  | .put _    => fieldMask false 0xEFFF
  | .write _  => fieldMask true 0xE00F
  | .wrroom   => fieldMask false 0xE00F
  | .get      => fieldMask false 0xE00F
  | .peek _   => fieldMask true 0xE00F
  | .flush    => fieldMask false 0xE00F
  | .read _   => fieldMask true 0xE00F
  | .rdavail  => fieldMask false 0xE00F

/-- How many bytes carry a value of `n` bits. -/
def busLength (n : Nat) : Nat := (n + 7) / 8

/-- A value on a byte-wide bus, least significant byte first (R36): a command word, a `PTR_W`-bit size or an
observed register.  Bits of the last byte above the value are 0 (log 21). -/
def busBytes {n : Nat} (v : BitVec n) : List Byte :=
  (List.range (busLength n)).map fun j => v.extractLsb' (8 * j) 8

/-- The number that bus bytes make, least significant byte first (R36). -/
def busNumber : List Byte → Nat
  | []      => 0
  | b :: bs => b.toNat + 2 ^ 8 * busNumber bs

/-- The `n`-bit value that bus bytes make; no other number of bytes is one (R36).  Bits of the last byte above the
value are not looked at (log 21). -/
def ofBusBytes (n : Nat) (bytes : List Byte) : Option (BitVec n) :=
  if bytes.length = busLength n then some (BitVec.ofNat n (busNumber bytes)) else none

/-- The decoder on bytes, total. -/
def decodeBytes (w : Nat) (bytes : List Byte) : Except DecodeError Instr :=
  match ofBusBytes (w + 16) bytes with
  | some c => decode (w := w) c
  | none   => .error .wrongLength

/-- The word whose low `nbits` bits are those of `c` and whose other bits are 0. -/
def tableWord (w nbits c : Nat) : CmdWord w := BitVec.ofNat (w + 16) (c % 2 ^ nbits)

/-- The command the decoder of width `w` reads from a word given as the opcode table numbers its bits. -/
def decodeTableWordAt (w nbits c : Nat) : Option Instr :=
  (decodeBytes w (busBytes (tableWord w nbits c))).toOption

/-- The same for the opcode table's own words, which are those of the default width. -/
def decodeTableWord (nbits w : Nat) : Option Instr := decodeTableWordAt Config.ptrW nbits w

/-- The port an opcode is assigned to (R53); a reserved opcode is assigned to none. -/
def portOfOp (op : BitVec 4) : Option Port :=
  match op.toNat with
  | 0x1 => some .host
  | 0x2 => some .producer
  | 0x3 => some .producer
  | 0x4 => some .producer
  | 0x5 => some .consumer
  | 0x6 => some .consumer
  | 0x7 => some .consumer
  | 0x8 => some .consumer
  | 0x9 => some .consumer
  | _   => none

/-- The numeric code of a status (R55). -/
def Status.code : Status → BitVec 4
  | .success         => 0
  | .invalidArgument => 1
  | .invalidLength   => 2
  | .full            => 3
  | .empty           => 4
  | .notFound        => 5
  | .illegal         => 6
  | .unconfigured    => 7

/-- The status of a 3-bit code: R55 assigns all eight. -/
def Status.ofCode (c : BitVec 3) : Status :=
  match c.toNat with
  | 0 => .success
  | 1 => .invalidArgument
  | 2 => .invalidLength
  | 3 => .full
  | 4 => .empty
  | 5 => .notFound
  | 6 => .illegal
  | _ => .unconfigured

/-- The assembler (R57): a line's command and operands. -/
def AsmLine.instr : AsmLine → Instr
  | .init cap      => .init true cap
  | .initNobuf cap => .init false cap
  | .put b         => .put b
  | .write n _     => .write n
  | .wrroom        => .wrroom
  | .get           => .get
  | .peek idx      => .peek idx
  | .flush         => .flush
  | .read n        => .read n
  | .rdavail       => .rdavail
  | .readNone _    => .rdavail
  | .writeNone _   => .wrroom

/-- The buffer a line lists: `SRC` of a `write` (R57). -/
def AsmLine.buffer : AsmLine → Option (List Byte)
  | .init _        => none
  | .initNobuf _   => none
  | .put _         => none
  | .write _ bytes => some bytes
  | .wrroom        => none
  | .get           => none
  | .peek _        => none
  | .flush         => none
  | .read _        => none
  | .rdavail       => none
  | .readNone _    => none
  | .writeNone _   => none

/-- A line as the port it goes to and what is presented there (R57, R58). -/
def assemble (w : Nat) (l : AsmLine) : Port × Command w :=
  (l.instr.port, { word := encode w l.instr, buf := l.buffer })

end Sys2Proof
end

