-- ==== Sys2Proof/WellFormed.lean ====
section
/-! DEFINITION. When a command, and what an agent presents, is well formed: operands that a word of the build's
width can hold, the right port, and the buffer that goes with the command (30_encoding.md R51, R53, R57;
20_memory.md R48). -/

namespace Sys2Proof

/-- A capacity, size or index fits in `arg`, which has `PTR_W` bits (R51, R52). -/
def wfWidth (w : Nat) (i : Instr) : Bool :=
  match i with
  | .init _ cap => cap < 2 ^ w
  | .put _      => true
  | .write n    => n < 2 ^ w
  | .wrroom     => true
  | .get        => true
  | .peek idx   => idx < 2 ^ w
  | .flush      => true
  | .read n     => n < 2 ^ w
  | .rdavail    => true

/-- The command is one of the port's own (R53, R54 (c), R94). -/
def wfPort (p : Port) (i : Instr) : Bool := i.port = p

/-- A WRITE or READ of requested size `n` comes with a buffer of exactly `n` bytes (R48, R57); with `none` the
port's buffer is reused. -/
def wfBufferLength (i : Instr) (buf : Option (List Byte)) : Bool :=
  match i with
  | .init _ _ => true
  | .put _    => true
  | .write n  => buf.all fun bytes => bytes.length = n
  | .wrroom   => true
  | .get      => true
  | .peek _   => true
  | .flush    => true
  | .read n   => buf.all fun bytes => bytes.length = n
  | .rdavail  => true

/-- No command but READ and WRITE comes with a buffer (R48, R53). -/
def wfNoBuffer (i : Instr) (buf : Option (List Byte)) : Bool :=
  match i with
  | .init _ _ => buf.isNone
  | .put _    => buf.isNone
  | .write _  => true
  | .wrroom   => buf.isNone
  | .get      => buf.isNone
  | .peek _   => buf.isNone
  | .flush    => buf.isNone
  | .read _   => true
  | .rdavail  => buf.isNone

/-- All checks on a command presented with a buffer on a build of width `w`. -/
def Instr.wf (w : Nat) (p : Port) (i : Instr) (buf : Option (List Byte)) : Bool :=
  wfWidth w i && wfPort p i && wfBufferLength i buf && wfNoBuffer i buf

/-- A presentation that the port will not answer with ILLEGAL and whose producer or consumer keeps the duty of
R48: its word decodes on the port, and the command passes the checks. -/
def Command.wf {w : Nat} (p : Port) (c : Command w) : Bool :=
  match decodeAt p c.word with
  | .ok i    => i.wf w p c.buf
  | .error _ => false

end Sys2Proof
end

