-- ==== Sys2Proof/Machine/State.lean ====
section
/-! DEFINITION. The state of the block and of what stands at its ports, as plain data, and the state after
reset (10_state.md R13 to R23; 20_memory.md R33, R48; 30_encoding.md R49, R50; 70_reset_and_hazards.md R97). -/

namespace Sys2Proof.Machine

/-- A bulk sequencer: `idle`, or `moving T k`, the spec's `WRITING(T, k)` of `P_SEQ` and `READING(T, k)` of
`C_SEQ`: `T` bytes in total, `k` of them moved (R23). -/
inductive Sequencer (w : Nat) where
  | idle
  | moving (total done : Word w)
deriving DecidableEq, Repr

/-- A response: the port's `rsp_status`, `rsp_data_valid`, `rsp_data` and `rsp_size` (R50, R56). -/
structure Response (w : Nat) where
  status    : Status
  dataValid : Bool
  data      : Byte
  size      : Word w
deriving DecidableEq, Repr

/-- A command port: what its agent has yet to issue, in issue order (R24, R40), and the responses it has been
given, oldest first (R50).  `unspec` is the model's own: it numbers the port's responses, so that each takes
its unspecified `rsp_data` from a free value of its own (log 6). -/
structure PortIO (w : Nat) where
  pending   : List (Command w)
  responses : List (Response w)
  unspec    : Nat
deriving DecidableEq, Repr

/-- What happens in one step; the list of events in State is the schedule (R40; log 3). -/
inductive Event where
  /-- One step of the interleaving: one agent performs one whole command, or one micro-step of its bulk
  command (R12, R40). -/
  | agent (p : Port)
  /-- One clock edge of the hardware (R42): each flag is its port's `cmd_valid`; a busy sequencer moves a byte
  whatever its port's flag (R74); `obs` is a request on the observation port, answered from the state before
  the edge (R32). -/
  | cycle (host producer consumer : Bool) (obs : Option (BitVec 3))
  /-- A request on the observation port alone (R32). -/
  | observe (r : BitVec 3)
  /-- A clock edge with `rst = 1` (R97). -/
  | reset
deriving DecidableEq, Repr

/-- A byte-addressed memory: (index, byte) cells, indexes strictly rising; an index that is not listed holds no
byte the block has written.  The canonical form is `Memory.wf` (Ops.lean). -/
abbrev Memory := List Host.Cell

/-- Why a step can stop with a fault: never.  The block has no trap and no halt (R85), and its one fault mark,
`ERR.INITC`, is a bit of State with which the machine goes on (R88; log 7).  Safe: nothing is lost by it. -/
inductive Fault : Type
deriving DecidableEq, Repr

/-- Why a step can be refused. -/
inductive Refusal where
  /-- Raised by an arm of `exec` whose command has no meaning yet: none is left.  Safe. -/
  | notModelled (mnemonic : String)
deriving DecidableEq, Repr

/-- Everything the spec gives a block whose counters have `w` bits (R13), the port buffers and channels (R33, R48,
R50), and the model's own fields, each marked. -/
structure Block (w : Nat) where
  /-- `RD_POS`: the logical position of the next byte to be consumed (R14). -/
  rdPos        : Word w
  /-- `WR_POS`: the logical position of the next free slot (R15). -/
  wrPos        : Word w
  /-- `MASK` = capacity - 1 (R18). -/
  mask         : Word w
  /-- `CFG`: a successful INIT has been made (R19). -/
  cfg          : Bool
  /-- `ERR`: bit 0 ILL, bit 1 UNCFG, bit 2 INITC, all sticky (R20). -/
  err          : BitVec 3
  /-- The storage, by slot; a slot that is not listed is unwritten (R21, R22). -/
  storage      : Memory
  /-- `P_SEQ` (R23). -/
  pSeq         : Sequencer w
  /-- `C_SEQ` (R23). -/
  cSeq         : Sequencer w
  /-- `SRC`, the producer's source buffer: its bytes from index 0 on, as presented (R33, R48). -/
  src          : List Byte
  /-- `DST`, the consumer's destination buffer, by index; what is not listed is the consumer's own and unknown
  here (R33, R48). -/
  dst          : Memory
  /-- The host port (R49). -/
  host         : PortIO w
  /-- The producer port (R49). -/
  producer     : PortIO w
  /-- The consumer port (R49). -/
  consumer     : PortIO w
  /-- The values read on the observation port, oldest first (R32). -/
  obs          : List (Word w)
  /-- MODEL'S OWN: what the agents and the clock do next, in order: the free schedule of R40 as data (log 3). -/
  schedule     : List Event
  /-- The build's `MAX_ADDR_W`, `0 <= MAX_ADDR_W <= PTR_W - 1` (R7); no step writes it (log 2). -/
  maxAddrW     : Fin w
  /-- MODEL'S OWN: numbers the events that leave the storage unspecified (R22; log 5). -/
  storageEpoch : Nat
  /-- MODEL'S OWN: numbers the steps from which the state is unspecified (R62; log 7, 8). -/
  scrambles    : Nat
deriving DecidableEq, Repr

/-- The machine: the build's `PTR_W` (00_scope.md R5), which no step changes (log 1), and the block of that width
with what stands at its ports. -/
structure State where
  ptrW  : Nat
  block : Block ptrW
deriving DecidableEq, Repr

/-- A block as a machine of its width. -/
abbrev Block.state {w : Nat} (s : Block w) : State := { ptrW := w, block := s }

/-- A port at which nothing has been presented and nothing answered. -/
def PortIO.quiet {w : Nat} : PortIO w := { pending := [], responses := [], unspec := 0 }

/-- A block right after reset (R13, R97), of the width and the largest storage given, with nothing presented at its
ports and nothing scheduled (log 14). -/
def Block.reset {w : Nat} (maxAddrW : Fin w) : Block w where
  rdPos        := 0#w
  wrPos        := 0#w
  mask         := 0#w
  cfg          := false
  err          := 0#3
  storage      := []
  pSeq         := .idle
  cSeq         := .idle
  src          := []
  dst          := []
  host         := PortIO.quiet
  producer     := PortIO.quiet
  consumer     := PortIO.quiet
  obs          := []
  schedule     := []
  maxAddrW     := maxAddrW
  storageEpoch := 0
  scrambles    := 0

/-- The machine right after reset, at the defaults of the two build parameters: `PTR_W` = 32 (R5) and `MAX_ADDR_W` =
`PTR_W - 1` (R7). -/
def State.reset : State := { ptrW := Config.ptrW, block := Block.reset (31 : Fin 32) }

end Sys2Proof.Machine
end

