-- ==== Sys2Proof/Machine/Flags.lean ====
section
/-! DEFINITION. The pointer-to-occupancy comparator and everything the block shows of itself: `OCC`, `ROOM`,
`EMPTY`, `FULL`, the `FLAGS` and `ERR` registers, `cmd_ready`, the observation view (10_state.md R20, R25 to
R27, R32; 30_encoding.md R49, R50). -/

namespace Sys2Proof.Machine

variable {w : Nat}

/-- `OCC = (WR_POS - RD_POS) mod 2^PTR_W` (R25). -/
def occupancy (wr rd : BitVec w) : BitVec w := wr - rd

/-- `ROOM = ((MASK + 1) - OCC) mod 2^PTR_W` (R26). -/
def roomLeft (mask occ : BitVec w) : BitVec w := (mask + 1#w) - occ

/-- `EMPTY = CFG AND (OCC == 0)` (R27). -/
def emptyFlag (cfg : Bool) (occ : BitVec w) : Bool := cfg && decide (occ = 0#w)

/-- `FULL = CFG AND (OCC > MASK)` (R27). -/
def fullFlag (cfg : Bool) (mask occ : BitVec w) : Bool := cfg && decide (mask < occ)

/-- The block's `OCC`, also the level output `occ` (R25, R49). -/
def Block.occ (s : Block w) : Word w := occupancy s.wrPos s.rdPos

/-- The block's `ROOM` (R26). -/
def Block.room (s : Block w) : Word w := roomLeft s.mask s.occ

/-- `EMPTY`, also the level output `empty` (R27, R49). -/
def Block.emptyOut (s : Block w) : Bool := emptyFlag s.cfg s.occ

/-- `FULL`, also the level output `full` (R27, R49). -/
def Block.fullOut (s : Block w) : Bool := fullFlag s.cfg s.mask s.occ

/-- `ERR.ILL` (R20). -/
def errIll : BitVec 3 := 0b001

/-- `ERR.UNCFG` (R20). -/
def errUncfg : BitVec 3 := 0b010

/-- `ERR.INITC`, the block's fault mark (R20, R88). -/
def errInitc : BitVec 3 := 0b100

/-- `ERR.INITC = 1` (R88). -/
def Block.initc (s : Block w) : Bool := s.err.getLsbD 2

/-- A port's bulk sequencer (R23); the host port has none (R50). -/
def Block.seq (s : Block w) : Port → Sequencer w
  | .host     => .idle
  | .producer => s.pSeq
  | .consumer => s.cSeq

/-- The sequencer is not IDLE: `P_BUSY`, `C_BUSY` (R32). -/
def Block.busy (s : Block w) (p : Port) : Bool := s.seq p ≠ .idle

/-- `cmd_ready` of a port, given `rst` (R50, R97). -/
def Block.cmdReady (s : Block w) (rst : Bool) (p : Port) : Bool := !rst && !s.busy p

/-- The `FLAGS` register: bit 0 CFG, 1 EMPTY, 2 FULL, 3 P_BUSY, 4 C_BUSY, the rest 0 (R32); a register of fewer
than 5 bits has the low ones (log 22). -/
def Block.flags (s : Block w) : Word w :=
  (BitVec.ofBool (s.busy .consumer) ++ BitVec.ofBool (s.busy .producer) ++ BitVec.ofBool s.fullOut
    ++ BitVec.ofBool s.emptyOut ++ BitVec.ofBool s.cfg).setWidth w

/-- The observation view: the value of register `r`; 6 and 7 are reserved and read as 0 (R32). -/
def Block.view (s : Block w) (r : BitVec 3) : Word w :=
  match r.toNat with
  | 0 => s.rdPos
  | 1 => s.wrPos
  | 2 => s.mask
  | 3 => s.occ
  | 4 => s.flags
  | 5 => s.err.setWidth w
  | _ => 0#w

end Sys2Proof.Machine
end

