-- ==== Sys2Proof/Machine/Operands.lean ====
section
/-! DEFINITION. How commands reach bytes and form sizes: memories and their canonical form, the storage slot of
a position, `MemRead`, `SrcRead`, the transfer count, the capacity check, and the buffers presented with a
command (00_scope.md R6, R7, R11; 20_memory.md R33, R34, R48; 42_bulk.md R72, R78). -/

namespace Sys2Proof.Machine

variable {w : Nat}

/-- The canonical form of a memory: indexes strictly rise, so that equal contents are equal lists. -/
abbrev Memory.wf (m : Memory) : Prop := m.Pairwise fun a b => a.1 < b.1

/-- The byte listed at an index. -/
def Memory.read : Memory → Nat → Option Byte
  | [], _ => none
  | (k, v) :: m, a => if a = k then some v else Memory.read m a

/-- The memory with `b` at index `a`, in canonical form. -/
def Memory.write : Memory → Nat → Byte → Memory
  | [], a, b => [(a, b)]
  | (k, v) :: m, a, b =>
    if a < k then (a, b) :: (k, v) :: m
    else if a = k then (a, b) :: m
    else (k, v) :: Memory.write m a b

/-- The memory that holds the listed bytes at index `k` and on. -/
def Memory.ofBytesFrom : Nat → List Byte → Memory
  | _, [] => []
  | k, b :: bs => (k, b) :: Memory.ofBytesFrom (k + 1) bs

/-- The memory that holds the listed bytes at index 0 and on. -/
def Memory.ofBytes (bs : List Byte) : Memory := Memory.ofBytesFrom 0 bs

/-- `slot(p) = p AND MASK`, the storage slot a logical position names (R34). -/
def Block.slot (s : Block w) (p : Word w) : Nat := (p &&& s.mask).toNat

/-- `MemRead(i, 1)` (R11): the slot's byte; of an unwritten slot a free value that stays the same until the
storage is written there or left unspecified again (R22, U3; log 5). -/
def Block.memRead (s : Block w) (i : Nat) : Byte :=
  (Memory.read s.storage i).getD (Config.storageByte s.storageEpoch i)

/-- `SrcRead(j)` (R11, R48): byte `j` of the source buffer; where the presented bytes do not reach `j`, a free
value (log 10). -/
def Block.srcRead (s : Block w) (j : Word w) : Byte :=
  s.src[j.toNat]?.getD (Config.srcByte s.producer.unspec j.toNat)

/-- `min(n, available)`, unsigned: what a bulk command moves (R10, R72, R78). -/
def transferCount (n available : Word w) : Word w := if n ≤ available then n else available

/-- INIT's length check: 0, not a power of two, or above `2^MAX_ADDR_W` (R6, R7, R59). -/
def Block.badCapacity (s : Block w) (cap : Word w) : Bool :=
  cap = 0#w || (cap &&& (cap - 1#w)) ≠ 0#w || 2 ^ s.maxAddrW.val < cap.toNat

/-- The buffer that comes with a command: a WRITE's is `SRC`, a READ's is `DST` (R48); no other command has
one. -/
def present (i : Instr) (buf : Option (List Byte)) (s : Block w) : Block w :=
  match i with
  | .init _ _ => s
  | .put _    => s
  | .write _  => { s with src := buf.getD s.src }
  | .wrroom   => s
  | .get      => s
  | .peek _   => s
  | .flush    => s
  | .read _   => { s with dst := (buf.map Memory.ofBytes).getD s.dst }
  | .rdavail  => s

end Sys2Proof.Machine
end

