-- ==== Sys2Proof/Machine/Ops.lean ====
section
/-! DEFINITION. The operations every meaning is made of: ports and responses, `raise`, moving one byte in or
out, the unspecified state after an INIT conflict, reset and observation (00_scope.md R11; 30_encoding.md R50,
R56; 60_exceptions.md R85 to R88; 70_reset_and_hazards.md R97). -/

namespace Sys2Proof.Machine

variable {w : Nat}

/-- A port's queues (R49). -/
def Block.port (s : Block w) : Port → PortIO w
  | .host     => s.host
  | .producer => s.producer
  | .consumer => s.consumer

/-- The state with a port's queues replaced. -/
def Block.setPort (s : Block w) (p : Port) (io : PortIO w) : Block w :=
  match p with
  | .host     => { s with host := io }
  | .producer => { s with producer := io }
  | .consumer => { s with consumer := io }

/-- The number of a port, under which it has its own free values. -/
def portNumber : Port → Nat
  | .host     => 0
  | .producer => 1
  | .consumer => 2

/-- The state with the commands a port's agent has yet to issue replaced. -/
def Block.setPending (s : Block w) (p : Port) (cs : List (Command w)) : Block w :=
  s.setPort p { s.port p with pending := cs }

/-- The state with one more response on a port's channel. -/
def Block.pushResponse (s : Block w) (p : Port) (r : Response w) : Block w :=
  s.setPort p
    { s.port p with responses := (s.port p).responses ++ [r], unspec := (s.port p).unspec + 1 }

/-- The response of `respond(status, data, size)` as response number `k` of port `p`: with no byte,
`rsp_data_valid = 0` and `rsp_data` is a free value (R11, R56, U4; log 6). -/
def mkResponse (p : Port) (k : Nat) (st : Status) (data : Option Byte) (size : Word w) : Response w :=
  match data with
  | some b => { status := st, dataValid := true, data := b, size := size }
  | none   => { status := st, dataValid := false, data := Config.rspData (portNumber p) k, size := size }

/-- `respond(status, data, size)` on port `p` (R11, R50). -/
def respond (p : Port) (st : Status) (data : Option Byte) (size : Word w) (s : Block w) : Block w :=
  s.pushResponse p (mkResponse p (s.port p).unspec st data size)

/-- A command that ends with an error status and records nothing (R85, R89): no byte, size 0. -/
def fail (p : Port) (st : Status) (s : Block w) : Block w := respond p st none 0#w s

/-- The errors that leave a sticky bit (R86, R87). -/
inductive StickyError where
  | illegal
  | unconfigured
deriving DecidableEq, Repr

/-- The `ERR` bit an error sets (R20). -/
def StickyError.bit : StickyError → BitVec 3
  | .illegal      => errIll
  | .unconfigured => errUncfg

/-- The status an error responds with (R55). -/
def StickyError.status : StickyError → Status
  | .illegal      => .illegal
  | .unconfigured => .unconfigured

/-- `raise <Error>` (R11, R85 to R87): what the block has in place of taking an exception.  The command ends
with the error's status and changes nothing but the error's sticky bit.  There is no trap entry and so nothing
to return from: the next command is accepted as after a success (R93). -/
def raise (e : StickyError) (p : Port) (s : Block w) : Block w :=
  fail p e.status { s with err := s.err ||| e.bit }

/-- The UNCONFIGURED check, which comes before a data command's own rule (R87, R90). -/
def whenConfigured (p : Port) (s : Block w) (own : Block w) : Block w :=
  if s.cfg then own else raise .unconfigured p s

/-- The byte accepted by a PUT or a WRITE micro-step: written to `slot(WR_POS)`, and `WR_POS` advanced, in one
step (R38, R64, R79). -/
def pushByte (b : Byte) (s : Block w) : Block w :=
  { s with storage := Memory.write s.storage (s.slot s.wrPos) b, wrPos := s.wrPos + 1#w }

/-- The byte a GET or a READ micro-step takes: the one at `slot(RD_POS)` (R66, R73). -/
def Block.headByte (s : Block w) : Byte := s.memRead (s.slot s.rdPos)

/-- `src_idx` (R50), the byte of `SRC` the producer port asks for while a WRITE is in progress.  DESIGN CHOICE
(log 23): R50 gives no value while the sequencer is IDLE, and none is given here; nor does `rst` enter. -/
def Block.srcIdx (s : Block w) : Option (Word w) :=
  match s.pSeq with
  | .idle       => none
  | .moving _ k => some k

/-- `dst_idx` and `dst_byte` (R50) of the `DstWrite` of the next micro-step while a READ is in progress, and
whether there is one, `dst_we`.  DESIGN CHOICE (log 23): R50 gives `dst_idx` and `dst_byte` no value while the
sequencer is IDLE, and none is given here; and it gives `dst_we` none while `rst` is 1: these are the outputs
outside reset, and a reset step writes nothing to `DST` (R97). -/
def Block.dstOut (s : Block w) : Option (Word w × Byte) :=
  match s.cSeq with
  | .idle       => none
  | .moving _ k => some (k, s.headByte)

/-- `RD_POS` past the byte taken (R66, R73). -/
def dropByte (s : Block w) : Block w := { s with rdPos := s.rdPos + 1#w }

/-- `DstWrite(j, v)` (R11, R48). -/
def dstWrite (j : Word w) (v : Byte) (s : Block w) : Block w :=
  { s with dst := Memory.write s.dst j.toNat v }

/-- What a successful INIT writes (R59): both counters 0, the mask, `CFG`, and a storage whose every slot is
unspecified. -/
def attach (cap : Word w) (s : Block w) : Block w :=
  { s with
    rdPos := 0#w, wrPos := 0#w, mask := cap - 1#w, cfg := true,
    storage := [], storageEpoch := s.storageEpoch + 1 }

/-- A sequencer with an unspecified value. -/
def conflictSeq (field k : Nat) : Sequencer w :=
  if Config.conflictFlag field k then .moving (Config.conflictWord w field k) (Config.conflictWord w (field + 1) k)
  else .idle

/-- Everything R62 calls unspecified, at free values: the counters, `MASK`, `CFG`, the storage, both
sequencers, `DST` (nothing is known of its bytes any more).  `ERR` is not among it: its bits stay set until
reset (R20). -/
def scramble (s : Block w) : Block w :=
  { s with
    rdPos := Config.conflictWord w 0 s.scrambles, wrPos := Config.conflictWord w 1 s.scrambles,
    mask := Config.conflictWord w 2 s.scrambles, cfg := Config.conflictFlag 0 s.scrambles,
    storage := [], storageEpoch := s.storageEpoch + 1,
    pSeq := conflictSeq 3 s.scrambles, cSeq := conflictSeq 5 s.scrambles,
    dst := [], scrambles := s.scrambles + 1 }

/-- An unspecified response (R62): one response, all of it free. -/
def respondUnspecified (p : Port) (s : Block w) : Block w :=
  s.pushResponse p
    { status := Status.ofCode (Config.conflictStatus (portNumber p) (s.port p).unspec)
      dataValid := Config.conflictFlag (10 + portNumber p) (s.port p).unspec
      data := Config.rspData (portNumber p) (s.port p).unspec
      size := Config.conflictWord w (10 + portNumber p) (s.port p).unspec }

/-- INIT_CONFLICT (R62, R88): `ERR.INITC` is set, and the state and the INIT's response are unspecified. -/
def initConflict (s : Block w) : Block w :=
  scramble (respondUnspecified .host { s with err := s.err ||| errInitc })

/-- A micro-step while `ERR.INITC = 1` (R62, R73, R79, U6): whether its command responds now, and with what, is
unspecified; the rest of the state is made unspecified by `settle`. -/
def unspecifiedMicro (p : Port) (s : Block w) : Block w :=
  if Config.conflictFlag (20 + portNumber p) s.scrambles then respondUnspecified p s else s

/-- What every step but reset adds (R62, R88): "from that step on" the state is unspecified, so a step that
starts with `ERR.INITC = 1` also ends in an unspecified state. -/
def settle (pre post : Block w) : Block w := if pre.initc then scramble post else post

/-- Reset, one step that replaces the block's state (R97).  What is outside the block stays: commands not yet
accepted, responses already given, the buffers, values already read, the schedule; a bulk command in progress
is abandoned with no response.  Free values used so far are not used again. -/
def applyReset (s : Block w) : Block w :=
  { s with
    rdPos := 0#w, wrPos := 0#w, mask := 0#w, cfg := false, err := 0#3,
    storage := [], storageEpoch := s.storageEpoch + 1, pSeq := .idle, cSeq := .idle }

/-- A request on the observation port: the register's value, and no side effect on the block (R32, R39). -/
def observe (r : BitVec 3) (s : Block w) : Block w := { s with obs := s.obs ++ [s.view r] }

/-- The request that may come with a clock edge (R32, R42). -/
def observeWith (o : Option (BitVec 3)) (s : Block w) : Block w :=
  match o with
  | some r => observe r s
  | none   => s

/-- A command's whole effect on the block of the machine: the machine goes on, at the same width. -/
def goOn (s : State) (effect : Block s.ptrW → Block s.ptrW) : Host.Outcome State Fault Refusal :=
  .next (effect s.block).state

/-- The state with a port's sequencer idle, so that the port accepts a command. -/
def Block.setIdle (s : Block w) (p : Port) : Block w :=
  match p with
  | .host     => s
  | .producer => { s with pSeq := .idle }
  | .consumer => { s with cSeq := .idle }

/-- An agent presents a command as the next one of its port and is scheduled next (log 4). -/
def placeCommand (p : Port) (c : Command w) (s : Block w) : Block w :=
  { ((s.setIdle p).setPending p (c :: (s.port p).pending)) with schedule := .agent p :: s.schedule }

end Sys2Proof.Machine
end

