-- ==== Sys2Proof/Machine/Bulk.lean ====
section
/-! DEFINITION. The bulk commands' start steps and micro-steps, and the two queries (42_bulk.md R72 to R84). -/

namespace Sys2Proof.Machine

variable {w : Nat}

/-- READ, start step (R72, R75): the status and the transfer count `T` are fixed here. -/
def execRead (n : Nat) (s : State) : Host.Outcome State Fault Refusal :=
  goOn s fun b => whenConfigured .consumer b <|
    if b.occ = 0#_ then fail .consumer .empty b
    else if transferCount (BitVec.ofNat _ n) b.occ = 0#_ then respond .consumer .success none 0#_ b
    else { b with cSeq := .moving (transferCount (BitVec.ofNat _ n) b.occ) 0#_ }

/-- READ, micro-step at `READING(T, k)` (R73): a successful GET whose byte goes to `DST[k]`; the last one
responds. -/
def readMicro (T k : Word w) (s : Block w) : Block w :=
  if k + 1#w = T then
    respond .consumer .success none T { dropByte (dstWrite k s.headByte s) with cSeq := .idle }
  else
    { dropByte (dstWrite k s.headByte s) with cSeq := .moving T (k + 1#w) }

/-- RDAVAIL: report how many bytes are stored (R76, R77). -/
def execRdavail (s : State) : Host.Outcome State Fault Refusal :=
  goOn s fun b => whenConfigured .consumer b <|
    if b.occ = 0#_ then fail .consumer .empty b
    else respond .consumer .success none b.occ b

/-- WRITE, start step (R78, R81): the status and the transfer count `T` are fixed here. -/
def execWrite (n : Nat) (s : State) : Host.Outcome State Fault Refusal :=
  goOn s fun b => whenConfigured .producer b <|
    if b.room = 0#_ then fail .producer .full b
    else if transferCount (BitVec.ofNat _ n) b.room = 0#_ then respond .producer .success none 0#_ b
    else { b with pSeq := .moving (transferCount (BitVec.ofNat _ n) b.room) 0#_ }

/-- WRITE, micro-step at `WRITING(T, k)` (R79): a successful PUT of `SRC[k]`; the last one responds. -/
def writeMicro (T k : Word w) (s : Block w) : Block w :=
  if k + 1#w = T then
    respond .producer .success none T { pushByte (s.srcRead k) s with pSeq := .idle }
  else
    { pushByte (s.srcRead k) s with pSeq := .moving T (k + 1#w) }

/-- WRROOM: report how many bytes fit (R82, R83). -/
def execWrroom (s : State) : Host.Outcome State Fault Refusal :=
  goOn s fun b => whenConfigured .producer b <|
    if b.room = 0#_ then fail .producer .full b
    else respond .producer .success none b.room b

/-- One micro-step of the bulk command at a port (R73, R79); while `ERR.INITC = 1` its outcome is
unspecified. -/
def microStep (p : Port) (T k : Word w) (s : Block w) : Block w :=
  if s.initc then unspecifiedMicro p s
  else
    match p with
    | .host     => s
    | .producer => writeMicro T k s
    | .consumer => readMicro T k s

end Sys2Proof.Machine
end

