-- ==== Sys2Proof/Machine/Init.lean ====
section
/-! DEFINITION. INIT (40_init.md R59 to R63). -/

namespace Sys2Proof.Machine

/-- INIT: attach the storage and set the capacity.  A busy sequencer is an INIT_CONFLICT (R62, R88); then the
storage's presence, then the length (R60); a failed INIT changes nothing (R61). -/
def execInit (bp : Bool) (cap : Nat) (s : State) : Host.Outcome State Fault Refusal :=
  goOn s fun b =>
    if b.busy .producer || b.busy .consumer then initConflict b
    else if bp = false then fail .host .invalidArgument b
    else if b.badCapacity (BitVec.ofNat _ cap) then fail .host .invalidLength b
    else respond .host .success none 0#_ (attach (BitVec.ofNat _ cap) b)

end Sys2Proof.Machine
end

