-- ==== Sys2Proof/Machine/SingleByte.lean ====
section
/-! DEFINITION. The single-byte commands (41_single_byte.md R64 to R71). -/

namespace Sys2Proof.Machine

/-- PUT: append one byte (R64, R65). -/
def execPut (v : Byte) (s : State) : Host.Outcome State Fault Refusal :=
  goOn s fun b => whenConfigured .producer b <|
    if b.mask < b.occ then fail .producer .full b
    else respond .producer .success none 0#_ (pushByte v b)

/-- GET: remove and return the oldest byte (R66, R67). -/
def execGet (s : State) : Host.Outcome State Fault Refusal :=
  goOn s fun b => whenConfigured .consumer b <|
    if b.occ = 0#_ then fail .consumer .empty b
    else respond .consumer .success (some b.headByte) 0#_ (dropByte b)

/-- PEEK: read the byte at offset `idx` without removing it (R68, R69). -/
def execPeek (idx : Nat) (s : State) : Host.Outcome State Fault Refusal :=
  goOn s fun b => whenConfigured .consumer b <|
    if b.occ ≤ BitVec.ofNat _ idx then fail .consumer .notFound b
    else respond .consumer .success (some (b.memRead (b.slot (b.rdPos + BitVec.ofNat _ idx)))) 0#_ b

/-- FLUSH: discard every stored byte (R70, R71). -/
def execFlush (s : State) : Host.Outcome State Fault Refusal :=
  goOn s fun b => whenConfigured .consumer b <|
    respond .consumer .success none 0#_ { b with rdPos := b.wrPos }

end Sys2Proof.Machine
end

