-- ==== Sys2Proof/Machine/Dispatch.lean ====
section
/-! DEFINITION. What an accepted command does: one arm per command. -/

namespace Sys2Proof.Machine

/-- The meaning of a command its port has accepted (30_encoding.md R53). -/
def exec (i : Instr) (s : State) : Host.Outcome State Fault Refusal :=
  match i with
  | .init bp cap => Sys2Proof.Machine.execInit bp cap s
  | .put v => Sys2Proof.Machine.execPut v s
  | .write n => Sys2Proof.Machine.execWrite n s
  | .wrroom => Sys2Proof.Machine.execWrroom s
  | .get => Sys2Proof.Machine.execGet s
  | .peek idx => Sys2Proof.Machine.execPeek idx s
  | .flush => Sys2Proof.Machine.execFlush s
  | .read n => Sys2Proof.Machine.execRead n s
  | .rdavail => Sys2Proof.Machine.execRdavail s

end Sys2Proof.Machine
end

