-- ==== Sys2Proof/Machine/Schedule.lean ====
section
/-! DEFINITION. From an event of the schedule to the block's step: accepting a command, one agent's step, one
clock edge, reset, observation (20_memory.md R40, R42; 30_encoding.md R50; 60_exceptions.md R86). -/

namespace Sys2Proof.Machine

variable {w : Nat}

/-- Go on from a next state; a fault or a refusal stays. -/
def andThen {α β : Type} (o : Host.Outcome α Fault Refusal) (f : α → Host.Outcome β Fault Refusal) :
    Host.Outcome β Fault Refusal :=
  match o with
  | .next s    => f s
  | .fault r   => .fault r
  | .refused r => .refused r

/-- Change a next state; a fault or a refusal stays. -/
def mapNext {α β : Type} (f : α → β) (o : Host.Outcome α Fault Refusal) : Host.Outcome β Fault Refusal :=
  andThen o fun s => .next (f s)

/-- The block of a machine, at the width of `s`.  A command keeps the width (Laws/Ops.lean, `runCommand_eq`), so
the second case is met by none. -/
def State.blockLike (t : State) (s : Block w) : Block w := if h : t.ptrW = w then h ▸ t.block else s

/-- A command's effect on a block: `exec` on the machine of that block. -/
def runCommand (i : Instr) (s : Block w) : Host.Outcome (Block w) Fault Refusal :=
  mapNext (fun t => t.blockLike s) (exec i s.state)

/-- A command word accepted on port `p`: ILLEGAL is checked before anything else (R86); otherwise the command
runs, on the buffer presented with it (R48). -/
def accept (p : Port) (c : Command w) (s : Block w) : Host.Outcome (Block w) Fault Refusal :=
  match decodeAt p c.word with
  | .ok i    => runCommand i (present i c.buf s)
  | .error _ => .next (raise .illegal p s)

/-- One step of port `p`'s agent: a busy sequencer moves one byte and accepts nothing (R50); an idle port
accepts the agent's next command; an agent with no command does nothing (log 13). -/
def portStep (p : Port) (s : Block w) : Host.Outcome (Block w) Fault Refusal :=
  match s.seq p with
  | .moving T k => .next (microStep p T k s)
  | .idle =>
    match (s.port p).pending with
    | []      => .next s
    | c :: cs => accept p c (s.setPending p cs)

/-- Port `p` at a clock edge (R42, R74): it acts if its agent presents a command or its sequencer is busy. -/
def edgePort (valid : Bool) (p : Port) (s : Block w) : Host.Outcome (Block w) Fault Refusal :=
  if valid || s.busy p then portStep p s else .next s

/-- The writes of a producer-side and a consumer-side step made from the same state `s`, committed together
(R42): each side writes its own counter, sequencer, buffer and channel, the producer the storage; a sticky bit
set by either is set. -/
def mergeSides (s sp sc : Block w) : Block w :=
  { s with
    wrPos := sp.wrPos, storage := sp.storage, pSeq := sp.pSeq, src := sp.src, producer := sp.producer,
    rdPos := sc.rdPos, cSeq := sc.cSeq, dst := sc.dst, consumer := sc.consumer,
    err := sp.err ||| sc.err }

/-- One clock edge (R42): both data ports compute from the state before the edge, and the host port acts on
what they leave. -/
def clockCycle (host producer consumer : Bool) (s : Block w) : Host.Outcome (Block w) Fault Refusal :=
  andThen (edgePort producer .producer s) fun sp =>
    andThen (edgePort consumer .consumer s) fun sc =>
      edgePort host .host (mergeSides s sp sc)

/-- What one event does (R32, R40, R42, R97). -/
def runEvent (e : Event) (s : Block w) : Host.Outcome (Block w) Fault Refusal :=
  match e with
  | .agent p       => mapNext (settle s) (portStep p s)
  | .cycle h p c o => mapNext (settle s) (clockCycle h p c (observeWith o s))
  | .observe r     => .next (settle s (observe r s))
  | .reset         => .next (applyReset s)

/-- The next event; when the schedule is at its end, a clock edge at which no agent presents a command
(log 3). -/
def nextEvent (s : Block w) : Event :=
  match s.schedule with
  | []     => .cycle false false false none
  | e :: _ => e

/-- The state with the next event taken off the schedule. -/
def popEvent (s : Block w) : Block w := { s with schedule := s.schedule.tail }

/-- Where a table word is presented: on its opcode's port; a reserved opcode, which is ILLEGAL everywhere, on
the host's. -/
def fetchPort (c : CmdWord w) : Port := (portOfOp (opField c)).getD .host

end Sys2Proof.Machine
end

