-- ==== Sys2Proof/Machine/Step.lean ====
section
/-! DEFINITION. One step of the machine. -/

namespace Sys2Proof.Machine

/-- One step: the next event of the schedule (R12, R40).  The width of the build stays. -/
def step (s : State) : Host.Outcome State Fault Refusal :=
  mapNext Block.state (runEvent (nextEvent s.block) (popEvent s.block))

/-- The state in which a table word is the next command of its port and that port's agent acts next, so that
the next step accepts and runs it (log 4). -/
def State.withFetchWord (s : State) (nbits w : Nat) : State :=
  (placeCommand (fetchPort (tableWord s.ptrW nbits w)) { word := tableWord s.ptrW nbits w, buf := none }
    s.block).state

end Sys2Proof.Machine
end

