-- ==== Sys2Proof/Safety.lean ====
section
/-! DEFINITION. What a safe state is, the invariant the spec lets a model rely on, the queue of stored bytes,
and the terms in which statements say what a step leaves unchanged (10_state.md R18, R23, R28, R30, R31;
60_exceptions.md R88). -/

namespace Sys2Proof.Machine

variable {w : Nat}

/-- No fault mark: `ERR.INITC = 0`, the premise of every claim (R88). -/
abbrev Block.Clean (s : Block w) : Prop := s.initc = false

/-- A sequencer that moves `T` bytes has `k < T`, and what it still needs, `T - k`, is there (R23, R31). -/
def Sequencer.fits (q : Sequencer w) (there : Word w) : Bool :=
  match q with
  | .idle       => true
  | .moving T k => decide (k < T) && decide (T - k ≤ there)

/-- What holds of the registers and the storage while `ERR.INITC = 0`. -/
structure Block.Legal (s : Block w) : Prop where
  /-- `MASK = 2^k - 1` with `k <= MAX_ADDR_W` (R18). -/
  mask_legal : ∃ k : Fin w, k ≤ s.maxAddrW ∧ s.mask.toNat + 1 = 2 ^ k.val
  /-- `OCC <= CAP` (R28). -/
  occ_le_cap : s.occ.toNat ≤ s.mask.toNat + 1
  /-- Before the first successful INIT the registers are as reset leaves them (R13, R14, R15, R18, R23). -/
  unconfigured : s.cfg = false →
    s.rdPos = 0#w ∧ s.wrPos = 0#w ∧ s.mask = 0#w ∧ s.pSeq = .idle ∧ s.cSeq = .idle
  /-- A WRITE in progress finds its room (R31). -/
  write_fits : s.pSeq.fits s.room = true
  /-- A READ in progress finds its bytes (R31). -/
  read_fits : s.cSeq.fits s.occ = true
  /-- Only the slots `0..CAP-1` exist (R21, R34). -/
  slots_exist : ∀ c ∈ s.storage, c.1 ≤ s.mask.toNat
  /-- Every stored position names a written slot (R30). -/
  stored_written : ∀ i < s.occ.toNat,
    (Memory.read s.storage (s.slot (s.rdPos + BitVec.ofNat w i))).isSome = true

/-- The invariant of every step: both memories are canonical, and the state is legal unless the fault mark is
set. -/
structure Block.Inv (s : Block w) : Prop where
  storage_wf : Memory.wf s.storage
  dst_wf     : Memory.wf s.dst
  legal      : s.Clean → s.Legal

/-- The invariant of the machine: its counters have at least 2 bits (R5), and its block's invariant. -/
structure State.Inv (s : State) : Prop where
  width : 2 ≤ s.ptrW
  block : s.block.Inv

/-- The stored bytes, oldest first: those at the `OCC` positions from `RD_POS` on (R30). -/
def Block.contents (s : Block w) : List Byte :=
  (List.range s.occ.toNat).map fun i => s.memRead (s.slot (s.rdPos + BitVec.ofNat w i))

/-- Every slot of the storage, written or not, holds what it held. -/
def SameStorage (s t : Block w) : Prop :=
  ∀ a, Memory.read t.storage a = Memory.read s.storage a ∧ t.memRead a = s.memRead a

/-- Every byte of `DST` is what it was. -/
def SameDst (s t : Block w) : Prop := ∀ a, Memory.read t.dst a = Memory.read s.dst a

/-- What the producer's side writes is unchanged: `WR_POS`, `P_SEQ`, the storage; and so is `SRC`. -/
def KeepsProducerSide (s t : Block w) : Prop :=
  t.wrPos = s.wrPos ∧ t.pSeq = s.pSeq ∧ t.src = s.src ∧ SameStorage s t

/-- What the consumer's side writes is unchanged: `RD_POS`, `C_SEQ`, `DST`. -/
def KeepsConsumerSide (s t : Block w) : Prop :=
  t.rdPos = s.rdPos ∧ t.cSeq = s.cSeq ∧ SameDst s t

/-- What INIT sets up, and the build's parameter, are unchanged. -/
def KeepsSetup (s t : Block w) : Prop :=
  t.mask = s.mask ∧ t.cfg = s.cfg ∧ t.maxAddrW = s.maxAddrW

/-- The observation channel and the schedule are unchanged. -/
def KeepsOutside (s t : Block w) : Prop := t.obs = s.obs ∧ t.schedule = s.schedule

/-- Nothing of the block is changed but, perhaps, `ERR` and the ports' queues. -/
def KeepsBlock (s t : Block w) : Prop :=
  KeepsProducerSide s t ∧ KeepsConsumerSide s t ∧ KeepsSetup s t ∧ KeepsOutside s t

/-- The one new response, on port `p`, is `respond(st, data, size)`; the other ports' queues and every pending
command stay (R50, R56).  With no byte, `rsp_data_valid = 0` and nothing is said of `rsp_data` (U4). -/
def Responded (p : Port) (st : Status) (data : Option Byte) (size : Word w) (s t : Block w) : Prop :=
  (∃ r, (t.port p).responses = (s.port p).responses ++ [r] ∧ r.status = st ∧ r.size = size ∧
    r.dataValid = data.isSome ∧ ∀ b, data = some b → r.data = b) ∧
  (t.port p).pending = (s.port p).pending ∧ ∀ q, q ≠ p → t.port q = s.port q

/-- No port is given a response or loses a pending command. -/
def NoResponse (s t : Block w) : Prop := ∀ q, t.port q = s.port q

/-- A command that fails with `st` on port `p`: the response, and no state change (R85, R89). -/
def FailsWith (p : Port) (st : Status) (s t : Block w) : Prop :=
  Responded p st none 0#w s t ∧ t.err = s.err ∧ KeepsBlock s t

/-- A command that fails on port `p` with `st` and sets the sticky bit `bit` alone (R86, R87). -/
def RaisesOn (p : Port) (st : Status) (bit : BitVec 3) (s t : Block w) : Prop :=
  Responded p st none 0#w s t ∧ t.err = s.err ||| bit ∧ KeepsBlock s t

end Sys2Proof.Machine
end

