-- ==== Sys2Proof/Certificates/Slice0/Obligations.lean ====
section
/-! DEFINITION. The statements about the model.  Every statement about an effect takes `ERR.INITC = 0`
(`Clean`) as a premise, as the spec says every claim does (60_exceptions.md R88).  Every statement is about blocks of
every counter width `w`, the build's `PTR_W` (00_scope.md R5), so about every machine: `s.state` is the machine
whose block is `s`. -/

namespace Sys2Proof.Machine

variable {w : Nat}

/-- A command's form: on its port, any word with its opcode and reserved bits 0 is the command with the operands
`form` reads from the word, whatever its other bits (R51 to R53). -/
def CommandForm (p : Port) (op : Nat) (form : CmdWord w → Instr) : Prop :=
  ∀ c : CmdWord w, c.toNat % 16 = op → c.toNat / 2 ^ 13 % 8 = 0 → decodeAt p c = .ok (form c)

/-- A data command's form: `CommandForm`, and accepted only while the port's sequencer is IDLE: a busy port's step
leaves its agent's commands waiting (R50). -/
def DataCommandForm (p : Port) (op : Nat) (form : CmdWord w → Instr) : Prop :=
  CommandForm p op form ∧
  ∀ (s : Block w) (T k : Word w), s.seq p = .moving T k →
    ∃ t, portStep p s = .next t ∧ (t.port p).pending = (s.port p).pending

/-- A legal capacity of the build: a power of two, at most `2^MAX_ADDR_W` (R6, R7). -/
def LegalCapacity (s : Block w) (cap : Word w) : Prop := ∃ k, k ≤ s.maxAddrW.val ∧ cap.toNat = 2 ^ k

/-- The newest response of port `p` carries byte `b`. -/
def LastByte (p : Port) (t : Block w) (b : Byte) : Prop :=
  ∃ r, (t.port p).responses.getLast? = some r ∧ r.dataValid = true ∧ r.data = b

/-- Ports whose sequencer is busy count for one response still to come. -/
def owed (s : Block w) (p : Port) : Nat := if s.busy p then 1 else 0

/-- The agent events of the ports that act at a clock edge with the given `cmd_valid` (R42, R74). -/
def acting (s : Block w) (valid : Bool) (p : Port) : List Event :=
  if valid || s.busy p then [.agent p] else []

/-- Port `p` at a clock edge, from the state before the edge to what its step leaves: its agent's step if a command is
presented or the sequencer is busy, else nothing (R42, R74). -/
def AtEdge (valid : Bool) (p : Port) (s t : Block w) : Prop :=
  (valid = true ∨ s.seq p ≠ .idle → portStep p s = .next t) ∧ (valid = false → s.seq p = .idle → t = s)

/-- Port `p` is idle and `i` is the next command its agent presents. -/
def Presents (p : Port) (i : Instr) (s : Block w) : Prop :=
  s.seq p = .idle ∧ ∃ c cs, (s.port p).pending = c :: cs ∧ decodeAt p c.word = .ok i

/-- The one new response of port `p` fails with `st`: no byte, size 0 (R56). -/
def AnsweredError (p : Port) (st : Status) (s t : Block w) : Prop :=
  ∃ r, (t.port p).responses = (s.port p).responses ++ [r] ∧ r.status = st ∧ r.dataValid = false ∧ r.size = 0#w

end Sys2Proof.Machine

open Sys2Proof Sys2Proof.Machine

/-! ### Encoding -/

/-- Every command's word decodes to it, with every operand the build's width holds, on its own port and on no other
(R51, R53, R54). -/
def Obligations.EncodedCommandDecodesToItself : Prop :=
  ∀ (w : Nat) (i : Instr), wfWidth w i = true → decode (encode w i) = .ok i ∧
    ∀ p : Port, decodeAt p (encode w i) = if i.port = p then .ok i else .error .wrongPort

/-- A word that decodes is its command's word but for the ignored fields, and its operands fit the build's width
(R51, R52, R53). -/
def Obligations.DecodedWordIsEncodingUpToIgnoredFields : Prop :=
  ∀ {w : Nat} (c : CmdWord w) (i : Instr), decode c = .ok i →
    wfWidth w i = true ∧ encode w i = c &&& usedMask w i

/-- R52: operands are the fields unchanged, ignored fields have no effect, `rsv` must be 0. -/
def Obligations.OperandFieldsAreUsedUnchanged : Prop :=
  ∀ {w : Nat} (c : CmdWord w) (i : Instr), decode c = .ok i →
    c.toNat / 2 ^ 13 % 8 = 0 ∧
    (∀ v : CmdWord w, v &&& usedMask w i = c &&& usedMask w i → decode v = .ok i) ∧
    (∀ bp cap, i = .init bp cap →
      (bp = true ↔ c.toNat / 2 ^ 12 % 2 = 1) ∧ cap = c.toNat / 2 ^ 16) ∧
    (∀ b, i = .put b → b.toNat = c.toNat / 2 ^ 4 % 2 ^ 8) ∧
    ∀ x, i = .write x ∨ i = .peek x ∨ i = .read x → x = c.toNat / 2 ^ 16

/-- R54, R86: which words are ILLEGAL on which port, and what an accepted ILLEGAL word does. -/
def Obligations.IllegalWordSetsErrIllAndNothingElse : Prop :=
  ∀ {w : Nat} (p : Port) (c : CmdWord w),
    ((∃ r, decodeAt p c = .error r) ↔
      c.toNat % 16 = 0 ∨ 10 ≤ c.toNat % 16 ∨ c.toNat / 2 ^ 13 % 8 ≠ 0 ∨
      (c.toNat % 16 = 1 ∧ p ≠ .host) ∨
      (2 ≤ c.toNat % 16 ∧ c.toNat % 16 ≤ 4 ∧ p ≠ .producer) ∨
      (5 ≤ c.toNat % 16 ∧ c.toNat % 16 ≤ 9 ∧ p ≠ .consumer)) ∧
    ∀ (s : Block w) (buf : Option (List Byte)) (cs : List (Command w)),
      s.Clean → (∃ r, decodeAt p c = .error r) → s.seq p = .idle →
      (s.port p).pending = { word := c, buf := buf } :: cs →
      ∃ t, portStep p s = .next t ∧ RaisesOn p .illegal 0b001 (s.setPending p cs) t

/-- Words written out from the spec's examples decode to their commands, at the default width. -/
def Obligations.SpecExampleWordsDecode : Prop :=
  decodeAt .host (0x000000041001 : CmdWord 32) = .ok (.init true 4) ∧
  decodeAt .producer (0x000012341412 : CmdWord 32) = .ok (.put 0x41) ∧
  decodeAt .producer (0x0000000A0003 : CmdWord 32) = .ok (.write 10) ∧
  decodeAt .consumer (0xFFFFFFFF0006 : CmdWord 32) = .ok (.peek 0xFFFFFFFF) ∧
  decodeAt .consumer (0x000000070009 : CmdWord 32) = .ok .rdavail

/-- A value of any width on a byte-wide bus, a command word or a size among them, goes least significant byte first,
and the bytes make it again (R36).  The bits of the last byte above the value are the model's (log 21). -/
def Obligations.BusBytesCarryTheValue : Prop :=
  ∀ {n : Nat} (v : BitVec n), ofBusBytes n (busBytes v) = some v ∧ (busBytes v).length = (n + 7) / 8 ∧
    ∀ j < (n + 7) / 8, ∃ b, (busBytes v)[j]? = some b ∧ b.toNat = v.toNat / 2 ^ (8 * j) % 2 ^ 8

/-- R55: the status codes; 8 to 15 are no status. -/
def Obligations.StatusCodesAreTheTable : Prop :=
  Status.code .success = 0 ∧ Status.code .invalidArgument = 1 ∧ Status.code .invalidLength = 2 ∧
  Status.code .full = 3 ∧ Status.code .empty = 4 ∧ Status.code .notFound = 5 ∧ Status.code .illegal = 6 ∧
  Status.code .unconfigured = 7 ∧ ∀ c : BitVec 4, (∃ st, Status.code st = c) ↔ c.toNat < 8

/-! ### The step -/

/-- A step of an idle port's agent runs the command its next word decodes to, on the buffer presented with it;
with the fault mark set the state then is unspecified (`settle`). -/
def Obligations.StepRunsTheDecodedCommand : Prop :=
  ∀ {w : Nat} (s : Block w) (p : Port) (c : Command w) (cs : List (Command w)) (i : Instr) (rest : List Event),
    s.schedule = .agent p :: rest → s.seq p = .idle → (s.port p).pending = c :: cs →
    decodeAt p c.word = .ok i →
    (
      ∃ t : Block w, exec i (present i c.buf ((Block.setPending { s with schedule := rest } p cs))).state = .next t.state ∧
      step s.state = .next (settle s t).state) ∧
    (s.Clean → step s.state =
      exec i (present i c.buf ((Block.setPending { s with schedule := rest } p cs))).state)

/-- R50: `cmd_ready` is 1 exactly when the port's sequencer is IDLE (outside reset), the host port always ready,
and a port that is busy takes no command: its step leaves its agent's commands waiting. -/
def Obligations.BusyPortTakesNoCommand : Prop :=
  ∀ {w : Nat} (s : Block w) (p : Port),
    (s.cmdReady false p = true ↔ s.seq p = .idle) ∧ s.cmdReady false .host = true ∧
    ∀ T k, s.seq p = .moving T k →
      ∃ t, portStep p s = .next t ∧ (t.port p).pending = (s.port p).pending

/-- While a READ is in progress `dst_idx` and `dst_byte` are the place and the byte its next micro-step writes, while
a WRITE is `src_idx` is the byte its next micro-step takes.  That an idle port has no value of them is the model's
choice (log 23), and so is that they are the outputs outside reset. -/
def Obligations.PortOutputsAreTheNextMicroSteps : Prop :=
  ∀ {w : Nat} (s : Block w), s.Clean →
    (∀ T k, s.cSeq = .moving T k →
      ∃ v t, s.dstOut = some (k, v) ∧ v = s.memRead (s.slot s.rdPos) ∧
        portStep .consumer s = .next t ∧ Memory.read t.dst k.toNat = some v) ∧
    (∀ T k, s.pSeq = .moving T k →
      s.srcIdx = some k ∧ ∃ t, portStep .producer s = .next t ∧
        ∀ b, s.src[k.toNat]? = some b → Memory.read t.storage (s.slot s.wrPos) = some b) ∧
    (s.cSeq = .idle → s.dstOut = none) ∧ (s.pSeq = .idle → s.srcIdx = none)

/-- R48: a WRITE's buffer is `SRC`, a READ's is `DST`; with none, and for every other command, both stay.  That a
command carries its buffer, and that an unlisted byte is unknown, are the model's (log 10, 11). -/
def Obligations.PresentedBufferIsTheCommands : Prop :=
  ∀ {w : Nat} (s : Block w) (n : Nat) (bs : List Byte),
    (∀ j : Nat, (present (.write n) (some bs) s).src[j]? = bs[j]?) ∧ SameDst s (present (.write n) (some bs) s) ∧
    (∀ a, Memory.read (present (.read n) (some bs) s).dst a = bs[a]?) ∧
    (present (.read n) (some bs) s).src = s.src ∧
    (∀ i : Instr, present i none s = s) ∧
    (∀ (i : Instr) (buf : Option (List Byte)), (∀ x, i ≠ .write x ∧ i ≠ .read x) → present i buf s = s) ∧
    ∀ (i : Instr) (buf : Option (List Byte)), SameStorage s (present i buf s) ∧
      (present i buf s).rdPos = s.rdPos ∧ (present i buf s).wrPos = s.wrPos ∧ (present i buf s).err = s.err ∧
      (present i buf s).pSeq = s.pSeq ∧ (present i buf s).cSeq = s.cSeq ∧ KeepsSetup s (present i buf s) ∧
      KeepsOutside s (present i buf s) ∧ NoResponse s (present i buf s)

/-- The model's choice (log 4): the step after `withFetchWord` runs the command of the table word, at the machine's
width; the opcode table's own words are those of width 32. -/
def Obligations.StepRunsTheFetchWord : Prop :=
  (∀ (s : State) (nbits c : Nat) (i : Instr), s.block.Clean → decodeTableWordAt s.ptrW nbits c = some i →
    step (s.withFetchWord nbits c) = exec i (s.block.setIdle i.port).state) ∧
  ∀ nbits c : Nat, decodeTableWord nbits c = decodeTableWordAt 32 nbits c

/-- R85: no command traps or halts the block, and neither does any other step; the width of the build stays (R5). -/
def Obligations.EveryStepGoesOn : Prop :=
  ∀ {w : Nat} (s : Block w),
    (∀ i : Instr, ∃ t : Block w, exec i s.state = .next t.state) ∧ ∃ t : Block w, step s.state = .next t.state

/-- The model's choice (log 3): with nothing scheduled and both sequencers idle a step changes nothing. -/
def Obligations.IdleBlockStaysAsItIs : Prop :=
  ∀ {w : Nat} (s : Block w), s.Clean → s.schedule = [] → s.pSeq = .idle → s.cSeq = .idle → step s.state = .next s.state

/-! ### Commands -/

/-- R87: every data command on an unconfigured block fails with UNCONFIGURED and sets `ERR.UNCFG` alone. -/
def Obligations.DataCommandNeedsConfiguration : Prop :=
  ∀ {w : Nat} (i : Instr) (s : Block w), (∀ bp cap, i ≠ .init bp cap) → s.Clean → s.cfg = false →
    ∃ t : Block w, exec i s.state = .next t.state ∧ RaisesOn i.port .unconfigured 0b010 s t

/-- R59, R60, R61: INIT. -/
def Obligations.InitSetsCapacityOrChangesNothing : Prop :=
  ∀ {w : Nat}, CommandForm .host 0x1
    (fun c : CmdWord w => .init (decide (c.toNat / 2 ^ 12 % 2 = 1)) (c.toNat / 2 ^ 16)) ∧
  ∀ (s : Block w) (cap : Word w), s.Clean →
    (s.pSeq ≠ .idle ∨ s.cSeq ≠ .idle → ∀ bp, ∃ t : Block w, exec (.init bp cap.toNat) s.state = .next t.state ∧
      t.initc = true) ∧
    (s.pSeq = .idle → s.cSeq = .idle →
      (∃ t : Block w, exec (.init false cap.toNat) s.state = .next t.state ∧ FailsWith .host .invalidArgument s t) ∧
      (¬ LegalCapacity s cap →
        ∃ t : Block w, exec (.init true cap.toNat) s.state = .next t.state ∧ FailsWith .host .invalidLength s t) ∧
      (LegalCapacity s cap →
        ∃ t : Block w, exec (.init true cap.toNat) s.state = .next t.state ∧
          t.rdPos = 0#w ∧ t.wrPos = 0#w ∧ t.mask = cap - 1#w ∧ t.mask.toNat + 1 = cap.toNat ∧ t.cfg = true ∧
          (∀ a, Memory.read t.storage a = none) ∧
          t.occ = 0#w ∧ t.emptyOut = true ∧ t.fullOut = false ∧
          Responded .host .success none 0#w s t ∧
          t.err = s.err ∧ t.pSeq = .idle ∧ t.cSeq = .idle ∧ t.src = s.src ∧ SameDst s t ∧
          t.maxAddrW = s.maxAddrW ∧ KeepsOutside s t))

/-- R62, R88: an INIT that finds a sequencer busy sets `ERR.INITC` and keeps the other sticky bits; from then on
the mark stays until reset.  Nothing is said of the rest of the state. -/
def Obligations.InitConflictSetsTheFaultMark : Prop :=
  ∀ {w : Nat}, (∀ (s : Block w) (bp : Bool) (cap : Nat), s.pSeq ≠ .idle ∨ s.cSeq ≠ .idle →
    ∃ t : Block w, exec (.init bp cap) s.state = .next t.state ∧ t.err = s.err ||| 0b100) ∧
  ∀ s t : Block w, s.initc = true → nextEvent s ≠ .reset → step s.state = .next t.state → t.initc = true

/-- R64: PUT. -/
def Obligations.PutAppendsOneByte : Prop :=
  ∀ {w : Nat}, DataCommandForm .producer 0x2 (fun c : CmdWord w => .put (BitVec.ofNat 8 (c.toNat / 2 ^ 4))) ∧
  ∀ (s : Block w) (b : Byte), s.Clean →
    (s.cfg = false →
      ∃ t : Block w, exec (.put b) s.state = .next t.state ∧ RaisesOn .producer .unconfigured 0b010 s t) ∧
    (s.cfg = true → s.mask < s.occ →
      ∃ t : Block w, exec (.put b) s.state = .next t.state ∧ FailsWith .producer .full s t) ∧
    (s.cfg = true → s.occ ≤ s.mask →
      ∃ t : Block w, exec (.put b) s.state = .next t.state ∧
        t.wrPos = s.wrPos + 1#w ∧ Memory.read t.storage (s.slot s.wrPos) = some b ∧
        (∀ a, a ≠ s.slot s.wrPos →
          Memory.read t.storage a = Memory.read s.storage a ∧ t.memRead a = s.memRead a) ∧
        Responded .producer .success none 0#w s t ∧
        t.err = s.err ∧ t.pSeq = s.pSeq ∧ t.src = s.src ∧
        KeepsConsumerSide s t ∧ KeepsSetup s t ∧ KeepsOutside s t ∧
        (s.Legal → t.occ.toNat = s.occ.toNat + 1 ∧ t.emptyOut = false ∧
          (t.fullOut = true ↔ t.occ.toNat = t.mask.toNat + 1)))

/-- R66: GET. -/
def Obligations.GetRemovesTheOldestByte : Prop :=
  ∀ {w : Nat}, DataCommandForm .consumer 0x5 (fun _ : CmdWord w => .get) ∧
  ∀ s : Block w, s.Clean →
    (s.cfg = false → ∃ t : Block w, exec .get s.state = .next t.state ∧ RaisesOn .consumer .unconfigured 0b010 s t) ∧
    (s.cfg = true → s.occ = 0#w → ∃ t : Block w, exec .get s.state = .next t.state ∧ FailsWith .consumer .empty s t) ∧
    (s.cfg = true → s.occ ≠ 0#w →
      ∃ t : Block w, exec .get s.state = .next t.state ∧
        t.rdPos = s.rdPos + 1#w ∧
        Responded .consumer .success (some (s.memRead (s.slot s.rdPos))) 0#w s t ∧
        t.err = s.err ∧ t.cSeq = s.cSeq ∧ SameDst s t ∧
        KeepsProducerSide s t ∧ KeepsSetup s t ∧ KeepsOutside s t ∧
        (s.Legal → t.occ.toNat + 1 = s.occ.toNat ∧ t.fullOut = false ∧
          (t.emptyOut = true ↔ t.occ = 0#w)))

/-- R68: PEEK. -/
def Obligations.PeekReadsWithoutRemoving : Prop :=
  ∀ {w : Nat}, DataCommandForm .consumer 0x6 (fun c : CmdWord w => .peek (c.toNat / 2 ^ 16)) ∧
  ∀ (s : Block w) (idx : Word w), s.Clean →
    (s.cfg = false →
      ∃ t : Block w, exec (.peek idx.toNat) s.state = .next t.state ∧ RaisesOn .consumer .unconfigured 0b010 s t) ∧
    (s.cfg = true → s.occ ≤ idx →
      ∃ t : Block w, exec (.peek idx.toNat) s.state = .next t.state ∧ FailsWith .consumer .notFound s t) ∧
    (s.cfg = true → idx < s.occ →
      ∃ t : Block w, exec (.peek idx.toNat) s.state = .next t.state ∧
        Responded .consumer .success (some (s.memRead (s.slot (s.rdPos + idx)))) 0#w s t ∧
        t.err = s.err ∧ KeepsBlock s t)

/-- R70: FLUSH. -/
def Obligations.FlushDiscardsEveryByte : Prop :=
  ∀ {w : Nat}, DataCommandForm .consumer 0x7 (fun _ : CmdWord w => .flush) ∧
  ∀ s : Block w, s.Clean →
    (s.cfg = false → ∃ t : Block w, exec .flush s.state = .next t.state ∧ RaisesOn .consumer .unconfigured 0b010 s t) ∧
    (s.cfg = true →
      ∃ t : Block w, exec .flush s.state = .next t.state ∧
        t.rdPos = s.wrPos ∧ Responded .consumer .success none 0#w s t ∧
        t.err = s.err ∧ t.cSeq = s.cSeq ∧ SameDst s t ∧
        KeepsProducerSide s t ∧ KeepsSetup s t ∧ KeepsOutside s t ∧
        t.occ = 0#w ∧ t.emptyOut = true ∧ t.fullOut = false)

/-- R72: READ, the start step. -/
def Obligations.ReadStartFixesTheTransfer : Prop :=
  ∀ {w : Nat}, DataCommandForm .consumer 0x8 (fun c : CmdWord w => .read (c.toNat / 2 ^ 16)) ∧
  ∀ (s : Block w) (n : Word w), s.Clean →
    (s.cfg = false →
      ∃ t : Block w, exec (.read n.toNat) s.state = .next t.state ∧ RaisesOn .consumer .unconfigured 0b010 s t) ∧
    (s.cfg = true → s.occ = 0#w →
      ∃ t : Block w, exec (.read n.toNat) s.state = .next t.state ∧ FailsWith .consumer .empty s t) ∧
    (s.cfg = true → s.occ ≠ 0#w → n = 0#w →
      ∃ t : Block w, exec (.read n.toNat) s.state = .next t.state ∧
        Responded .consumer .success none 0#w s t ∧ t.err = s.err ∧ KeepsBlock s t) ∧
    (s.cfg = true → s.occ ≠ 0#w → n ≠ 0#w →
      ∃ (t : Block w) (T : Word w), exec (.read n.toNat) s.state = .next t.state ∧
        t.cSeq = .moving T 0#w ∧ T.toNat = min n.toNat s.occ.toNat ∧ NoResponse s t ∧
        t.err = s.err ∧ t.rdPos = s.rdPos ∧ SameDst s t ∧
        KeepsProducerSide s t ∧ KeepsSetup s t ∧ KeepsOutside s t)

/-- R73: READ, one micro-step. -/
def Obligations.ReadMicroStepMovesOneByte : Prop :=
  ∀ {w : Nat} (s : Block w) (T k : Word w), s.Clean → s.cSeq = .moving T k →
    ∃ t, portStep .consumer s = .next t ∧
      Memory.read t.dst k.toNat = some (s.memRead (s.slot s.rdPos)) ∧
      (∀ a, a ≠ k.toNat → Memory.read t.dst a = Memory.read s.dst a) ∧
      t.rdPos = s.rdPos + 1#w ∧
      (k + 1#w = T → t.cSeq = .idle ∧ Responded .consumer .success none T s t) ∧
      (k + 1#w ≠ T → t.cSeq = .moving T (k + 1#w) ∧ NoResponse s t) ∧
      t.err = s.err ∧ KeepsProducerSide s t ∧ KeepsSetup s t ∧ KeepsOutside s t

/-- R76: RDAVAIL. -/
def Obligations.RdavailReportsStoredBytes : Prop :=
  ∀ {w : Nat}, DataCommandForm .consumer 0x9 (fun _ : CmdWord w => .rdavail) ∧
  ∀ s : Block w, s.Clean →
    (s.cfg = false →
      ∃ t : Block w, exec .rdavail s.state = .next t.state ∧ RaisesOn .consumer .unconfigured 0b010 s t) ∧
    (s.cfg = true → s.occ = 0#w →
      ∃ t : Block w, exec .rdavail s.state = .next t.state ∧ FailsWith .consumer .empty s t) ∧
    (s.cfg = true → s.occ ≠ 0#w →
      ∃ t : Block w, exec .rdavail s.state = .next t.state ∧
        Responded .consumer .success none s.occ s t ∧ t.err = s.err ∧ KeepsBlock s t)

/-- R78: WRITE, the start step. -/
def Obligations.WriteStartFixesTheTransfer : Prop :=
  ∀ {w : Nat}, DataCommandForm .producer 0x3 (fun c : CmdWord w => .write (c.toNat / 2 ^ 16)) ∧
  ∀ (s : Block w) (n : Word w), s.Clean →
    (s.cfg = false →
      ∃ t : Block w, exec (.write n.toNat) s.state = .next t.state ∧ RaisesOn .producer .unconfigured 0b010 s t) ∧
    (s.cfg = true → s.room = 0#w →
      ∃ t : Block w, exec (.write n.toNat) s.state = .next t.state ∧ FailsWith .producer .full s t) ∧
    (s.cfg = true → s.room ≠ 0#w → n = 0#w →
      ∃ t : Block w, exec (.write n.toNat) s.state = .next t.state ∧
        Responded .producer .success none 0#w s t ∧ t.err = s.err ∧ KeepsBlock s t) ∧
    (s.cfg = true → s.room ≠ 0#w → n ≠ 0#w →
      ∃ (t : Block w) (T : Word w), exec (.write n.toNat) s.state = .next t.state ∧
        t.pSeq = .moving T 0#w ∧ T.toNat = min n.toNat s.room.toNat ∧ NoResponse s t ∧
        t.err = s.err ∧ t.wrPos = s.wrPos ∧ t.src = s.src ∧ SameStorage s t ∧
        KeepsConsumerSide s t ∧ KeepsSetup s t ∧ KeepsOutside s t)

/-- R79: WRITE, one micro-step. -/
def Obligations.WriteMicroStepMovesOneByte : Prop :=
  ∀ {w : Nat} (s : Block w) (T k : Word w), s.Clean → s.pSeq = .moving T k →
    ∃ t, portStep .producer s = .next t ∧
      Memory.read t.storage (s.slot s.wrPos) = some (s.srcRead k) ∧
      (∀ b, s.src[k.toNat]? = some b → Memory.read t.storage (s.slot s.wrPos) = some b) ∧
      (∀ a, a ≠ s.slot s.wrPos →
        Memory.read t.storage a = Memory.read s.storage a ∧ t.memRead a = s.memRead a) ∧
      t.wrPos = s.wrPos + 1#w ∧
      (k + 1#w = T → t.pSeq = .idle ∧ Responded .producer .success none T s t) ∧
      (k + 1#w ≠ T → t.pSeq = .moving T (k + 1#w) ∧ NoResponse s t) ∧
      t.err = s.err ∧ t.src = s.src ∧ KeepsConsumerSide s t ∧ KeepsSetup s t ∧ KeepsOutside s t

/-- R82: WRROOM. -/
def Obligations.WrroomReportsFreeSlots : Prop :=
  ∀ {w : Nat}, DataCommandForm .producer 0x4 (fun _ : CmdWord w => .wrroom) ∧
  ∀ s : Block w, s.Clean →
    (s.cfg = false → ∃ t : Block w, exec .wrroom s.state = .next t.state ∧ RaisesOn .producer .unconfigured 0b010 s t) ∧
    (s.cfg = true → s.room = 0#w →
      ∃ t : Block w, exec .wrroom s.state = .next t.state ∧ FailsWith .producer .full s t) ∧
    (s.cfg = true → s.room ≠ 0#w →
      ∃ t : Block w, exec .wrroom s.state = .next t.state ∧
        Responded .producer .success none s.room s t ∧ t.err = s.err ∧ KeepsBlock s t)

/-! ### Responses, observation, reset -/

/-- R56: what a response carries: a byte exactly when GET or PEEK succeeds, a size other than 0 only from READ,
RDAVAIL, WRITE or WRROOM. -/
def Obligations.ResponseCarriesByteOrCount : Prop :=
  ∀ {w : Nat}, (∀ (i : Instr) (s t : Block w) (r : Response w), s.Clean → t.Clean → exec i s.state = .next t.state →
    (t.port i.port).responses = (s.port i.port).responses ++ [r] →
    (r.dataValid = true ↔ r.status = .success ∧ (i = .get ∨ ∃ idx, i = .peek idx)) ∧
    (r.size ≠ 0#w → r.status = .success ∧ (i = .rdavail ∨ i = .wrroom))) ∧
  ∀ (p : Port) (s t : Block w) (T k : Word w) (r : Response w), s.Clean → s.seq p = .moving T k →
    portStep p s = .next t → (t.port p).responses = (s.port p).responses ++ [r] →
    r.status = .success ∧ r.dataValid = false ∧ r.size = T

/-- R50: each accepted command has exactly one response, in order: on every port, responses given, commands not
yet accepted and the bulk command in progress together stay the same in number, and responses given stay. -/
def Obligations.EachCommandHasOneResponse : Prop :=
  ∀ {w : Nat} (s t : Block w) (p : Port), s.Clean → t.Clean → nextEvent s ≠ .reset → step s.state = .next t.state →
    (t.port p).responses.length + (t.port p).pending.length + owed t p =
      (s.port p).responses.length + (s.port p).pending.length + owed s p ∧
    (s.port p).responses <+: (t.port p).responses

/-- R32: the observation view. -/
def Obligations.ObservationReadsWithoutSideEffect : Prop :=
  ∀ {w : Nat} (s : Block w),
    (s.view 0 = s.rdPos ∧ s.view 1 = s.wrPos ∧ s.view 2 = s.mask ∧ s.view 3 = s.wrPos - s.rdPos ∧
      s.view 6 = 0#w ∧ s.view 7 = 0#w) ∧
    ((s.view 4).getLsbD 0 = s.cfg ∧ (1 < w → (s.view 4).getLsbD 1 = (s.cfg && decide (s.wrPos = s.rdPos))) ∧
      (2 < w → (s.view 4).getLsbD 2 = (s.cfg && decide (s.mask < s.wrPos - s.rdPos))) ∧
      (3 < w → (s.view 4).getLsbD 3 = decide (s.pSeq ≠ .idle)) ∧
      (4 < w → (s.view 4).getLsbD 4 = decide (s.cSeq ≠ .idle)) ∧
      ∀ j, 5 ≤ j → (s.view 4).getLsbD j = false) ∧
    (3 ≤ w → (s.view 5).toNat = s.err.toNat) ∧
    (∀ (r : BitVec 3) (rest : List Event), s.Clean → s.schedule = .observe r :: rest →
      step s.state = .next (Block.state { s with schedule := rest, obs := s.obs ++ [s.view r] })) ∧
    ∀ (r : BitVec 3) (h p c : Bool) (rest : List Event) (t : Block w),
      s.schedule = .cycle h p c (some r) :: rest → step s.state = .next t.state → t.obs = s.obs ++ [s.view r]

/-- The model's reading (log 22): on a build whose registers are narrower than `FLAGS` or `ERR`, the observation port
gives their low bits. -/
def Obligations.NarrowRegistersGiveTheLowBits : Prop :=
  ∀ {w : Nat} (s : Block w), (s.view 5).toNat = s.err.toNat % 2 ^ w ∧
    ∀ {v : Nat} (u : Block v), v ≤ w → u.cfg = s.cfg → u.emptyOut = s.emptyOut → u.fullOut = s.fullOut →
      (∀ p, u.busy p = s.busy p) → (u.view 4).toNat = (s.view 4).toNat % 2 ^ v

/-- R97: reset. -/
def Obligations.ResetReplacesTheBlockState : Prop :=
  ∀ {w : Nat} (s : Block w) (rest : List Event), s.schedule = .reset :: rest →
    (∃ t : Block w, step s.state = .next t.state ∧
      t.rdPos = 0#w ∧ t.wrPos = 0#w ∧ t.mask = 0#w ∧ t.cfg = false ∧ t.err = 0#3 ∧
      t.pSeq = .idle ∧ t.cSeq = .idle ∧ (∀ a, Memory.read t.storage a = none) ∧
      SameDst s t ∧ NoResponse s t ∧ t.maxAddrW = s.maxAddrW) ∧
    ∀ p, s.cmdReady true p = false

/-- R98: right after reset the outputs and the view are 0, and every data command fails with UNCONFIGURED
(reset itself: R97). -/
def Obligations.AfterResetOnlyInitSucceeds : Prop :=
  ∀ {w : Nat} (s : Block w) (rest : List Event), s.schedule = .reset :: rest →
    ∃ t : Block w, step s.state = .next t.state ∧
      t.occ = 0#w ∧ t.emptyOut = false ∧ t.fullOut = false ∧ (∀ r, t.view r = 0#w) ∧
      ∀ i : Instr, (∀ bp cap, i ≠ .init bp cap) →
        ∃ u : Block w, exec i t.state = .next u.state ∧ Responded i.port .unconfigured none 0#w t u ∧ u.err = 0b010

/-! ### Comparator and slots -/

/-- R29: the gate-level form of FULL and EMPTY for the largest capacity, at every counter width. -/
def Obligations.LargestCapacityFullIsMsbCompare : Prop :=
  ∀ (w : Nat) (rd wr : BitVec (w + 1)),
    (occupancy wr rd = BitVec.ofNat (w + 1) (2 ^ w) ↔
      wr.msb ≠ rd.msb ∧ wr.setWidth w = rd.setWidth w) ∧
    (fullFlag true (BitVec.ofNat (w + 1) (2 ^ w - 1)) (occupancy wr rd) = true ↔
      2 ^ w ≤ (occupancy wr rd).toNat) ∧
    ((occupancy wr rd).toNat ≤ 2 ^ w →
      (fullFlag true (BitVec.ofNat (w + 1) (2 ^ w - 1)) (occupancy wr rd) = true ↔
        wr.msb ≠ rd.msb ∧ wr.setWidth w = rd.setWidth w)) ∧
    (emptyFlag true (occupancy wr rd) = true ↔ wr = rd)

/-- R34: the slot of a position, and the next position's slot, across the counter's wrap too. -/
def Obligations.NextPositionIsNextSlot : Prop :=
  ∀ {w : Nat} (s : Block w) (p : Word w), (∃ k : Fin w, s.mask.toNat + 1 = 2 ^ k.val) →
    s.slot p = (p &&& s.mask).toNat ∧ s.slot p = p.toNat % (s.mask.toNat + 1) ∧ s.slot p ≤ s.mask.toNat ∧
    s.slot (p + 1#w) = (s.slot p + 1) % (s.mask.toNat + 1)

/-- R44: the slot a successful producer write goes to is none of those the consumer can read. -/
def Obligations.ProducerAndConsumerSlotsDiffer : Prop :=
  ∀ {w : Nat} (s : Block w) (i : Nat), s.Legal → s.occ ≤ s.mask → i < s.occ.toNat →
    s.slot s.wrPos ≠ s.slot (s.rdPos + BitVec.ofNat w i)

/-- R28: the occupancy is within the capacity, FULL is `OCC == CAP`, and room and occupancy make the
capacity. -/
def Obligations.OccupancyIsWithinCapacity : Prop :=
  ∀ {w : Nat} (s : Block w), s.Inv → s.Clean →
    s.occ.toNat ≤ s.mask.toNat + 1 ∧ s.room.toNat ≤ s.mask.toNat + 1 ∧
    s.occ.toNat + s.room.toNat = s.mask.toNat + 1 ∧
    (s.fullOut = true ↔ s.cfg = true ∧ s.occ.toNat = s.mask.toNat + 1)

/-! ### The whole machine -/

/-- The invariant holds at reset, at the defaults and at every width with every largest storage (R5, R7). -/
def Obligations.ResetMeetsTheInvariant : Prop :=
  State.reset.Inv ∧ ∀ {w : Nat} (m : Fin w), (Block.reset m).Inv

/-- R5, R18, R22, R28, R30, R31: every step, of every event, keeps the invariant, and the width of the build. -/
def Obligations.EveryStepKeepsTheInvariant : Prop :=
  ∀ s t : State, s.Inv → step s = .next t → t.Inv ∧ t.ptrW = s.ptrW

/-- R20: a sticky bit stays set until reset. -/
def Obligations.StickyBitsStayUntilReset : Prop :=
  ∀ {w : Nat} (s t : Block w), nextEvent s ≠ .reset → step s.state = .next t.state → s.err &&& t.err = s.err

/-- R19: nothing but reset clears `CFG`, and only a successful INIT sets it. -/
def Obligations.CfgIsSetByInitAndClearedByReset : Prop :=
  ∀ {w : Nat}, (∀ s t : Block w, s.Clean → t.Clean → nextEvent s ≠ .reset → step s.state = .next t.state →
    s.cfg = true → t.cfg = true) ∧
  ∀ (i : Instr) (s t : Block w), s.Clean → t.Clean → exec i s.state = .next t.state →
    t.cfg ≠ s.cfg ∨ t.mask ≠ s.mask →
    ∃ n, i = .init true n ∧ LegalCapacity s (BitVec.ofNat w n) ∧ t.mask = BitVec.ofNat w n - 1#w ∧ t.cfg = true

/-- R14, R15, R16, R17: each counter is moved by its own side alone, by one, or by FLUSH to the other. -/
def Obligations.EachCounterHasOneWriter : Prop :=
  ∀ {w : Nat} (s t : Block w), s.Clean →
    (portStep .producer s = .next t →
      (t.wrPos = s.wrPos ∨ t.wrPos = s.wrPos + 1#w) ∧ KeepsConsumerSide s t ∧ KeepsSetup s t ∧
      KeepsOutside s t ∧ t.host = s.host ∧ t.consumer = s.consumer) ∧
    (portStep .consumer s = .next t →
      (t.rdPos = s.rdPos ∨ t.rdPos = s.rdPos + 1#w ∨
        (t.rdPos = s.wrPos ∧ ∃ c cs, s.consumer.pending = c :: cs ∧ decodeAt .consumer c.word = .ok .flush)) ∧
      KeepsProducerSide s t ∧ KeepsSetup s t ∧ KeepsOutside s t ∧
      t.host = s.host ∧ t.producer = s.producer) ∧
    (portStep .host s = .next t → t.Clean →
      (t.rdPos = s.rdPos ∧ t.wrPos = s.wrPos ∨ t.rdPos = 0#w ∧ t.wrPos = 0#w ∧ t.cfg = true) ∧
      t.pSeq = s.pSeq ∧ t.cSeq = s.cSeq ∧ t.src = s.src ∧ SameDst s t ∧ KeepsOutside s t ∧
      t.producer = s.producer ∧ t.consumer = s.consumer)

/-- R45 (b), (c), (d): a producer step never lowers the occupancy and a consumer step never lowers the room. -/
def Obligations.NeitherSideTakesFromTheOther : Prop :=
  ∀ {w : Nat} (s t : Block w), s.Inv → s.Clean →
    (portStep .producer s = .next t → s.occ.toNat ≤ t.occ.toNat) ∧
    (portStep .consumer s = .next t → s.room.toNat ≤ t.room.toNat)

/-- R30, R45 (a), R84: the block is a queue of bytes: the commands and micro-steps that move bytes append at the
end and take from the front, in order. -/
def Obligations.BlockIsAFirstInFirstOutQueue : Prop :=
  ∀ {w : Nat} (s : Block w), s.Inv → s.Clean → s.cfg = true →
    (∀ b, s.contents.length ≤ s.mask.toNat →
      ∃ t : Block w, exec (.put b) s.state = .next t.state ∧ t.contents = s.contents ++ [b]) ∧
    (∀ v rest, s.contents = v :: rest →
      ∃ t : Block w, exec .get s.state = .next t.state ∧ t.contents = rest ∧ LastByte .consumer t v) ∧
    (∀ (idx : Word w) v, s.contents[idx.toNat]? = some v →
        ∃ t : Block w, exec (.peek idx.toNat) s.state = .next t.state ∧ t.contents = s.contents ∧ LastByte .consumer t v) ∧
    (∃ t : Block w, exec .flush s.state = .next t.state ∧ t.contents = []) ∧
    (∀ T k, s.cSeq = .moving T k →
      ∃ (t : Block w) (v : Byte), portStep .consumer s = .next t ∧ s.contents = v :: t.contents ∧
        Memory.read t.dst k.toNat = some v) ∧
    (∀ T k, s.pSeq = .moving T k →
      ∃ t, portStep .producer s = .next t ∧ t.contents = s.contents ++ [s.srcRead k]) ∧
    s.occ.toNat = s.contents.length

/-- R42: at a clock edge both data ports compute from the state before it, their writes commit together, each side's
its own, and the host's step takes effect after them: INIT's writes override theirs, and its conflict check sees the
sequencers as they leave them.  That a sticky bit set by either side is set after the edge is the model's deduction
(log 18): R42 does not name ERR. -/
def Obligations.ClockEdgeCommitsBothSidesThenInit : Prop :=
  ∀ {w : Nat} (s : Block w) (h p c : Bool) (o : Option (BitVec 3)) (rest : List Event),
    s.Clean → s.schedule = .cycle h p c o :: rest →
    ∃ b sp sc m t : Block w,
      b = observeWith o { s with schedule := rest } ∧
      AtEdge p .producer b sp ∧ AtEdge c .consumer b sc ∧
      (m.wrPos = sp.wrPos ∧ m.storage = sp.storage ∧ m.pSeq = sp.pSeq ∧ m.src = sp.src ∧ m.producer = sp.producer) ∧
      (m.rdPos = sc.rdPos ∧ m.cSeq = sc.cSeq ∧ m.dst = sc.dst ∧ m.consumer = sc.consumer) ∧
      m.err = sp.err ||| sc.err ∧ KeepsSetup b m ∧ KeepsOutside b m ∧ m.host = b.host ∧
      m.storageEpoch = b.storageEpoch ∧ KeepsConsumerSide b sp ∧ KeepsProducerSide b sc ∧
      AtEdge h .host m t ∧ step s.state = .next t.state ∧
      ∀ (bp : Bool) (cap : Word w), h = true → Presents .host (.init bp cap.toNat) s →
        (sp.pSeq ≠ .idle ∨ sc.cSeq ≠ .idle → t.initc = true) ∧
        (sp.pSeq = .idle → sc.cSeq = .idle → bp = true → LegalCapacity s cap →
          t.rdPos = 0#w ∧ t.wrPos = 0#w ∧ t.mask = cap - 1#w ∧ t.cfg = true)

/-- R65 (e), R67 (d), R69 (e): what is full before a clock edge fails a PUT with FULL, what is empty before it fails a
GET with EMPTY, and an index not stored before it fails a PEEK with NOT_FOUND, whatever the other ports do at that
edge; with no host command there, its own side stays. -/
def Obligations.SameEdgeCommandsSeeTheStateBefore : Prop :=
  ∀ {w : Nat} (s : Block w) (h p c : Bool) (o : Option (BitVec 3)) (rest : List Event),
    s.Clean → s.cfg = true → s.schedule = .cycle h p c o :: rest →
    (∀ b, p = true → Presents .producer (.put b) s → s.mask < s.occ →
      ∃ t : Block w, step s.state = .next t.state ∧ AnsweredError .producer .full s t ∧
        (h = false → t.wrPos = s.wrPos ∧ SameStorage s t)) ∧
    (c = true → Presents .consumer .get s → s.occ = 0#w →
      ∃ t : Block w, step s.state = .next t.state ∧ AnsweredError .consumer .empty s t ∧
        (h = false → t.rdPos = s.rdPos)) ∧
    ∀ idx : Word w, c = true → Presents .consumer (.peek idx.toNat) s → s.occ ≤ idx →
      ∃ t : Block w, step s.state = .next t.state ∧ AnsweredError .consumer .notFound s t ∧
        (h = false → t.rdPos = s.rdPos)

/-- R43: every outcome of one clock cycle is the outcome of an interleaving of the same steps, the host last. -/
def Obligations.CycleIsAnInterleaving : Prop :=
  ∀ {w : Nat} (s : Block w) (h p c : Bool) (rest : List Event), s.Inv → s.Clean →
    ∃ evs : List Event,
      (evs = acting s p .producer ++ acting s c .consumer ++ acting s h .host ∨
        evs = acting s c .consumer ++ acting s p .producer ++ acting s h .host) ∧
      Host.Core.run Sys2Proof.core 1 (Block.state { s with schedule := .cycle h p c none :: rest }) =
        Host.Core.run Sys2Proof.core evs.length (Block.state { s with schedule := evs ++ rest })

/-- R74, R80, R84: a READ at `READING(T, k)` completes after exactly `T - k` micro-steps, with one response, and
leaves the oldest stored bytes, in order, in `DST[k..T-1]`, every other byte of `DST` as it was. -/
def Obligations.ReadCompletesAfterItsMicroSteps : Prop :=
  ∀ {w : Nat} (s : Block w) (T k : Word w) (rest : List Event), s.Inv → s.Clean → s.cSeq = .moving T k →
    let s₀ := Block.state { s with schedule := List.replicate (T - k).toNat (.agent .consumer) ++ rest }
    (∀ m, m < (T - k).toNat →
      ∃ u : Block w, Host.Core.run Sys2Proof.core m s₀ = .next u.state ∧ u.cSeq = .moving T (k + BitVec.ofNat w m)) ∧
    ∃ t : Block w, Host.Core.run Sys2Proof.core (T - k).toNat s₀ = .next t.state ∧
      t.cSeq = .idle ∧ t.rdPos = s.rdPos + (T - k) ∧
      Responded .consumer .success none T s t ∧
      (∀ j, j < (T - k).toNat → Memory.read t.dst (k.toNat + j) = s.contents[j]?) ∧
      (∀ a, a < k.toNat ∨ T.toNat ≤ a → Memory.read t.dst a = Memory.read s.dst a) ∧
      t.contents = s.contents.drop (T - k).toNat ∧
      t.err = s.err ∧ KeepsProducerSide s t ∧ KeepsSetup s t

/-- R74, R80, R84: a WRITE at `WRITING(T, k)` completes after exactly `T - k` micro-steps, with one response, and
appends `SRC[k..T-1]` in order. -/
def Obligations.WriteCompletesAfterItsMicroSteps : Prop :=
  ∀ {w : Nat} (s : Block w) (T k : Word w) (rest : List Event), s.Inv → s.Clean → s.pSeq = .moving T k →
    let s₀ := Block.state { s with schedule := List.replicate (T - k).toNat (.agent .producer) ++ rest }
    (∀ m, m < (T - k).toNat →
      ∃ u : Block w, Host.Core.run Sys2Proof.core m s₀ = .next u.state ∧ u.pSeq = .moving T (k + BitVec.ofNat w m)) ∧
    ∃ t : Block w, Host.Core.run Sys2Proof.core (T - k).toNat s₀ = .next t.state ∧
      t.pSeq = .idle ∧ t.wrPos = s.wrPos + (T - k) ∧
      Responded .producer .success none T s t ∧
      t.contents = s.contents ++
        (List.range (T - k).toNat).map (fun j => s.srcRead (k + BitVec.ofNat w j)) ∧
      t.err = s.err ∧ t.src = s.src ∧ KeepsConsumerSide s t ∧ KeepsSetup s t

/-- R106: FLUSH against a PUT or a WRITE's micro-step: FLUSH first keeps the byte, FLUSH last discards it, and at one
clock edge they act as FLUSH first. -/
def Obligations.FlushAndPutRaceHasTwoOutcomes : Prop :=
  ∀ {w : Nat} (s : Block w) (b : Byte), s.Inv → s.Clean → s.cfg = true →
    (∃ t u : Block w, exec .flush s.state = .next t.state ∧ exec (.put b) t.state = .next u.state ∧
      u.contents = [b] ∧ u.occ = 1#w) ∧
    (s.occ ≤ s.mask →
      ∃ t u : Block w, exec (.put b) s.state = .next t.state ∧ exec .flush t.state = .next u.state ∧
        u.contents = [] ∧ u.occ = 0#w) ∧
    (∀ T k, s.pSeq = .moving T k →
      (∃ t u : Block w, exec .flush s.state = .next t.state ∧ portStep .producer t = .next u ∧
        u.contents = [s.srcRead k] ∧ u.occ = 1#w) ∧
      ∃ t u : Block w, portStep .producer s = .next t ∧ exec .flush t.state = .next u.state ∧
        u.contents = [] ∧ u.occ = 0#w) ∧
    ∀ (p : Bool) (rest : List Event), s.schedule = .cycle false p true none :: rest → Presents .consumer .flush s →
      (p = true → Presents .producer (.put b) s → s.occ ≤ s.mask →
        ∃ t : Block w, step s.state = .next t.state ∧ t.contents = [b] ∧ t.occ = 1#w) ∧
      ∀ T k, s.pSeq = .moving T k →
        ∃ t : Block w, step s.state = .next t.state ∧ t.contents = [s.srcRead k] ∧ t.occ = 1#w

/-- R107, R71 (b): a PUT and a GET on an empty block return the byte put, from every counter position, the wrap
included, and leave it empty one position on. -/
def Obligations.PutThenGetAtEveryPosition : Prop :=
  ∀ {w : Nat} (s : Block w) (b : Byte), s.Inv → s.Clean → s.cfg = true → s.rdPos = s.wrPos →
    ∃ t u : Block w, exec (.put b) s.state = .next t.state ∧ t.occ = 1#w ∧ exec .get t.state = .next u.state ∧
      Responded .consumer .success (some b) 0#w t u ∧
      u.rdPos = s.rdPos + 1#w ∧ u.wrPos = s.rdPos + 1#w ∧ u.occ = 0#w
end

