-- ==== Sys2Proof/Laws/Arith.lean ====
section
/-! SUPPORT. The comparator's and the slots' arithmetic, once. -/

namespace Sys2Proof.Machine

variable {w : Nat}

/-- A sum is exact, or wraps once (R10). -/
theorem toNat_add_cases (a b : Word w) :
    a.toNat + b.toNat < 2 ^ w ∧ (a + b).toNat = a.toNat + b.toNat ∨
      2 ^ w ≤ a.toNat + b.toNat ∧ (a + b).toNat + 2 ^ w = a.toNat + b.toNat := by
  have := a.isLt
  have := b.isLt
  rw [BitVec.toNat_add]
  by_cases h : a.toNat + b.toNat < 2 ^ w
  · exact .inl ⟨h, Nat.mod_eq_of_lt h⟩
  · rw [Nat.mod_eq_sub_mod (by omega), Nat.mod_eq_of_lt (by omega)]
    omega

/-- A difference is exact, or wraps once (R10). -/
theorem toNat_sub_cases (a b : Word w) :
    b.toNat ≤ a.toNat ∧ (a - b).toNat + b.toNat = a.toNat ∨
      a.toNat < b.toNat ∧ (a - b).toNat + b.toNat = a.toNat + 2 ^ w := by
  have := toNat_add_cases (a - b) b
  rw [BitVec.sub_add_cancel] at this
  have := (a - b).isLt
  omega

/-- A width at which two values differ is not 0. -/
theorem width_pos {a : Word w} {n : Nat} (h : n < a.toNat) : 0 < w := by
  rcases Nat.eq_zero_or_pos w with rfl | h'
  · have := a.isLt
    omega
  · exact h'

theorem toNat_one (h : 0 < w) : (1#w).toNat = 1 := by
  rw [BitVec.toNat_ofNat, Nat.mod_eq_of_lt (Nat.one_lt_two_pow (by omega))]

/-- A value below the one being incremented by is a value the increment does not pass. -/
theorem toNat_add_one {a : Word w} {n : Nat} (h : a.toNat < n) (hn : n < 2 ^ w) : (a + 1#w).toNat = a.toNat + 1 := by
  have hw : 0 < w := width_pos (a := BitVec.ofNat w n) (n := a.toNat) (by
    rwa [BitVec.toNat_ofNat, Nat.mod_eq_of_lt hn])
  have := toNat_add_cases a 1#w
  rw [toNat_one hw] at this
  omega

theorem toNat_sub_of_le {a b : Word w} (h : b.toNat ≤ a.toNat) : (a - b).toNat = a.toNat - b.toNat := by
  have := toNat_sub_cases a b
  omega

theorem Block.occ_eq (s : Block w) : s.occ = s.wrPos - s.rdPos := rfl

theorem Block.room_eq (s : Block w) : s.room = s.mask + 1#w - (s.wrPos - s.rdPos) := rfl

theorem Block.slot_le_mask (s : Block w) (p : Word w) : s.slot p ≤ s.mask.toNat := by
  simp only [Block.slot, BitVec.toNat_and]
  exact Nat.and_le_right

/-- With a legal mask the slot is the position modulo the capacity. -/
theorem Block.slot_eq_mod (s : Block w) (p : Word w) {k : Nat} (h : s.mask.toNat + 1 = 2 ^ k) :
    s.slot p = p.toNat % 2 ^ k := by
  have : s.mask.toNat = 2 ^ k - 1 := by omega
  simp only [Block.slot, BitVec.toNat_and, this, Nat.and_two_pow_sub_one_eq_mod]

/-- A legal mask's exponent is within the counter width. -/
theorem exponent_le {m : Word w} {k : Nat} (h : m.toNat + 1 = 2 ^ k) : k ≤ w := by
  have := m.isLt
  exact (Nat.pow_le_pow_iff_right (a := 2) (by omega)).1 (by omega)

/-- The slot of a position some way on from another. -/
theorem Block.slot_add (s : Block w) (p d : Word w) {k : Nat} (h : s.mask.toNat + 1 = 2 ^ k) :
    s.slot (p + d) = (p.toNat + d.toNat) % 2 ^ k := by
  rw [s.slot_eq_mod _ h, BitVec.toNat_add, Nat.mod_mod_of_dvd _ (Nat.pow_dvd_pow 2 (exponent_le h))]

/-- Two different positions less than a capacity apart have different slots. -/
theorem Block.slot_ne (s : Block w) (p q : Word w) {k : Nat} (h : s.mask.toNat + 1 = 2 ^ k)
    (h0 : (q - p).toNat ≠ 0) (hlt : (q - p).toNat ≤ s.mask.toNat) : s.slot p ≠ s.slot q := by
  have hq : q = p + (q - p) := by simp
  rw [hq, s.slot_add _ _ h, s.slot_eq_mod _ h]
  intro he
  have hd : (q - p).toNat % 2 ^ k = 0 % 2 ^ k :=
    Nat.ModEq.add_left_cancel' p.toNat (by simpa [Nat.ModEq] using he.symm)
  rw [Nat.mod_eq_of_lt (by omega)] at hd
  simp at hd
  exact h0 (by simpa using hd)

end Sys2Proof.Machine
end

