-- ==== Sys2Proof/Laws/Encoding.lean ====
section
/-! SUPPORT. The command word's fields as numbers, what the decoder can answer, and the fields of an encoded
word: the decoder and the encoder need not be unfolded again. -/

namespace Sys2Proof

variable {w : Nat}

/-- A command word has `CMD_W` bits (30_encoding.md R51). -/
theorem cmdWord_width (w : Nat) : CmdWord w = BitVec (Config.cmdW w) := rfl

theorem opField_toNat (c : CmdWord w) : (opField c).toNat = c.toNat % 16 := by simp [opField]

theorem dataField_toNat (c : CmdWord w) : (dataField c).toNat = c.toNat / 2 ^ 4 % 2 ^ 8 := by
  simp [dataField, Nat.shiftRight_eq_div_pow]

theorem bpField_eq (c : CmdWord w) : bpField c = decide (c.toNat / 2 ^ 12 % 2 = 1) := by
  simp [bpField, BitVec.getLsbD, Nat.testBit_eq_decide_div_mod_eq]

theorem rsvField_toNat (c : CmdWord w) : (rsvField c).toNat = c.toNat / 2 ^ 13 % 8 := by
  simp [rsvField, Nat.shiftRight_eq_div_pow]

theorem argField_toNat (c : CmdWord w) : (argField c).toNat = c.toNat / 2 ^ 16 := by
  have := c.isLt
  rw [Nat.pow_add] at this
  simp [argField, Nat.shiftRight_eq_div_pow]
  exact Nat.mod_eq_of_lt (by omega)

/-- The reserved bits are 0, as bits and as a number. -/
theorem rsvField_eq_zero (c : CmdWord w) : rsvField c = 0#3 ↔ c.toNat / 2 ^ 13 % 8 = 0 := by
  rw [← BitVec.toNat_inj, rsvField_toNat]
  rfl

/-- An encoded word as a number: `{arg, rsv, bp, data, op}`. -/
theorem commandWord_toNat (op : BitVec 4) (d : Byte) (bp : Bool) (a : Word w) :
    (commandWord op d bp a).toNat = a.toNat * 2 ^ 16 + bp.toNat * 2 ^ 12 + d.toNat * 2 ^ 4 + op.toNat := by
  have hlow : (0#3 ++ BitVec.ofBool bp ++ d ++ op).toNat = bp.toNat * 2 ^ 12 + d.toNat * 2 ^ 4 + op.toNat := by
    simp only [BitVec.toNat_append]
    rw [← Nat.shiftLeft_add_eq_or_of_lt op.isLt, ← Nat.shiftLeft_add_eq_or_of_lt d.isLt,
      ← Nat.shiftLeft_add_eq_or_of_lt (BitVec.ofBool bp).isLt]
    simp only [Nat.shiftLeft_eq]
    cases bp <;> simp
    omega
  rw [commandWord, BitVec.toNat_append, ← Nat.shiftLeft_add_eq_or_of_lt (BitVec.isLt _), hlow, Nat.shiftLeft_eq]
  omega

@[simp] theorem opField_commandWord (op : BitVec 4) (d : Byte) (bp : Bool) (a : Word w) :
    opField (commandWord op d bp a) = op := by
  apply BitVec.eq_of_toNat_eq
  rw [opField_toNat, commandWord_toNat]
  omega

@[simp] theorem dataField_commandWord (op : BitVec 4) (d : Byte) (bp : Bool) (a : Word w) :
    dataField (commandWord op d bp a) = d := by
  apply BitVec.eq_of_toNat_eq
  rw [dataField_toNat, commandWord_toNat]
  have := bp.toNat_lt
  omega

@[simp] theorem bpField_commandWord (op : BitVec 4) (d : Byte) (bp : Bool) (a : Word w) :
    bpField (commandWord op d bp a) = bp := by
  rw [bpField_eq, commandWord_toNat]
  have := op.isLt
  have := d.isLt
  cases bp <;> simp <;> omega

@[simp] theorem rsvField_commandWord (op : BitVec 4) (d : Byte) (bp : Bool) (a : Word w) :
    rsvField (commandWord op d bp a) = 0#3 := by
  rw [rsvField_eq_zero, commandWord_toNat]
  have := op.isLt
  have := d.isLt
  have := bp.toNat_lt
  omega

@[simp] theorem argField_commandWord (op : BitVec 4) (d : Byte) (bp : Bool) (a : Word w) :
    argField (commandWord op d bp a) = a := by
  apply BitVec.eq_of_toNat_eq
  rw [argField_toNat, commandWord_toNat]
  have := op.isLt
  have := d.isLt
  have := bp.toNat_lt
  omega

/-- Everything the decoder can answer, row by row of the opcode table (R53, R54). -/
theorem decode_ok_iff (c : CmdWord w) (i : Instr) :
    decode c = .ok i ↔ rsvField c = 0#3 ∧
      (((opField c).toNat = 1 ∧ i = .init (bpField c) (argField c).toNat) ∨ ((opField c).toNat = 2 ∧ i = .put (dataField c)) ∨
       ((opField c).toNat = 3 ∧ i = .write (argField c).toNat) ∨ ((opField c).toNat = 4 ∧ i = .wrroom) ∨
       ((opField c).toNat = 5 ∧ i = .get) ∨ ((opField c).toNat = 6 ∧ i = .peek (argField c).toNat) ∨
       ((opField c).toNat = 7 ∧ i = .flush) ∨ ((opField c).toNat = 8 ∧ i = .read (argField c).toNat) ∨
       ((opField c).toNat = 9 ∧ i = .rdavail)) := by
  by_cases h : rsvField c = 0#3
  · have hlt := (opField c).isLt
    simp only [decode, h, ne_eq, not_true_eq_false, if_false, true_and]
    generalize (opField c).toNat = n at *
    interval_cases n <;> simp [eq_comm]
  · simp [decode, h]

/-- The decoder refuses exactly what R54 (a) and (b) name. -/
theorem decode_error_iff (c : CmdWord w) :
    (∃ r, decode c = .error r) ↔
      c.toNat % 16 = 0 ∨ 10 ≤ c.toNat % 16 ∨ c.toNat / 2 ^ 13 % 8 ≠ 0 := by
  rw [← opField_toNat, ne_eq, ← rsvField_eq_zero]
  by_cases h : rsvField c = 0#3
  · have hlt := (opField c).isLt
    simp only [decode, h, ne_eq, not_true_eq_false, if_false, or_false]
    generalize (opField c).toNat = n at *
    interval_cases n <;> simp
  · simp [decode, h]

end Sys2Proof
end

