-- ==== Sys2Proof/Laws/Memory.lean ====
section
/-! SUPPORT. Memories: a read after a write, and that every operation keeps the canonical form. -/

namespace Sys2Proof.Machine

variable {w : Nat}

@[simp] theorem Memory.read_nil (a : Nat) : Memory.read [] a = none := rfl

@[simp] theorem Memory.read_write_same (m : Memory) (a : Nat) (b : Byte) :
    Memory.read (Memory.write m a b) a = some b := by
  induction m with
  | nil => simp [Memory.write, Memory.read]
  | cons c m ih =>
    obtain ⟨k, v⟩ := c
    simp only [Memory.write]
    split
    · simp [Memory.read]
    · split
      · simp [Memory.read]
      · simp [Memory.read, *]

theorem Memory.read_write_other (m : Memory) (a x : Nat) (b : Byte) (h : x ≠ a) :
    Memory.read (Memory.write m a b) x = Memory.read m x := by
  induction m with
  | nil => simp [Memory.write, Memory.read, h]
  | cons c m ih =>
    obtain ⟨k, v⟩ := c
    simp only [Memory.write]
    split
    · simp [Memory.read, h]
    · split
      · subst_vars; simp [Memory.read, h]
      · simp [Memory.read, ih]

theorem Memory.read_write (m : Memory) (a x : Nat) (b : Byte) :
    Memory.read (Memory.write m a b) x = if x = a then some b else Memory.read m x := by
  split
  · subst_vars; simp
  · exact Memory.read_write_other m a x b ‹_›

/-- A cell of a written memory is the one written or one that was there. -/
theorem Memory.mem_write {m : Memory} {a : Nat} {b : Byte} {c : Host.Cell} (h : c ∈ Memory.write m a b) :
    c = (a, b) ∨ c ∈ m := by
  induction m with
  | nil => simpa [Memory.write] using h
  | cons d m ih =>
    obtain ⟨k, v⟩ := d
    simp only [Memory.write] at h
    split at h
    · simpa using h
    · split at h
      · rcases List.mem_cons.1 h with h | h <;> simp [h]
      · rcases List.mem_cons.1 h with h | h
        · simp [h]
        · rcases ih h with h | h <;> simp [h]

/-- A write keeps the canonical form. -/
theorem Memory.write_wf {m : Memory} (a : Nat) (b : Byte) (h : Memory.wf m) :
    Memory.wf (Memory.write m a b) := by
  induction m with
  | nil => simp [Memory.write]
  | cons d m ih =>
    obtain ⟨k, v⟩ := d
    rw [Memory.wf, List.pairwise_cons] at h
    simp only [Memory.write]
    split
    · refine List.pairwise_cons.2 ⟨fun c hc => ?_, List.pairwise_cons.2 h⟩
      rcases List.mem_cons.1 hc with hc | hc
      · simpa [hc]
      · exact lt_trans ‹a < k› (h.1 c hc)
    · split
      · subst_vars; exact List.pairwise_cons.2 h
      · refine List.pairwise_cons.2 ⟨fun c hc => ?_, ih h.2⟩
        rcases Memory.mem_write hc with hc | hc
        · subst hc; simp only; omega
        · exact h.1 c hc

theorem Memory.ofBytesFrom_ge {k : Nat} {bs : List Byte} {c : Host.Cell}
    (h : c ∈ Memory.ofBytesFrom k bs) : k ≤ c.1 := by
  induction bs generalizing k with
  | nil => simp [Memory.ofBytesFrom] at h
  | cons b bs ih =>
    rcases List.mem_cons.1 h with h | h
    · simp [h]
    · exact Nat.le_of_succ_le (ih h)

/-- A presented buffer is canonical. -/
theorem Memory.ofBytes_wf (bs : List Byte) : Memory.wf (Memory.ofBytes bs) := by
  suffices ∀ k, Memory.wf (Memory.ofBytesFrom k bs) from this 0
  induction bs with
  | nil => intro k; simp [Memory.ofBytesFrom]
  | cons b bs ih =>
    exact fun k => List.pairwise_cons.2 ⟨fun c hc => Memory.ofBytesFrom_ge hc, ih (k + 1)⟩

/-- A presented buffer holds the bytes presented. -/
theorem Memory.read_ofBytes (bs : List Byte) (a : Nat) : Memory.read (Memory.ofBytes bs) a = bs[a]? := by
  suffices ∀ k, Memory.read (Memory.ofBytesFrom k bs) (k + a) = bs[a]? from (by simpa using this 0 : Memory.read (Memory.ofBytesFrom 0 bs) a = bs[a]?)
  induction bs generalizing a with
  | nil => intro k; simp [Memory.ofBytesFrom]
  | cons b bs ih =>
    intro k
    cases a with
    | zero => simp [Memory.ofBytesFrom, Memory.read]
    | succ a =>
      have : k + (a + 1) ≠ k := by omega
      simp only [Memory.ofBytesFrom, Memory.read, this, if_false, List.getElem?_cons_succ]
      rw [← ih a (k + 1)]
      congr 1
      omega

/-- The memories of the reset state are canonical. -/
theorem reset_memories_wf : Memory.wf State.reset.block.storage ∧ Memory.wf State.reset.block.dst := by decide

/-- What a push does to one slot of the storage. -/
theorem memRead_pushByte (s : Block w) (b : Byte) (a : Nat) :
    (pushByte b s).memRead a = if a = s.slot s.wrPos then b else s.memRead a := by
  simp only [Block.memRead, pushByte, Memory.read_write]
  split <;> simp

/-- Operations that leave the storage and its epoch alone leave every slot alone. -/
theorem memRead_congr {s t : Block w} (h : t.storage = s.storage) (he : t.storageEpoch = s.storageEpoch)
    (a : Nat) : t.memRead a = s.memRead a := by
  simp [Block.memRead, h, he]

end Sys2Proof.Machine
end

