-- ==== Sys2Proof/Laws/State.lean ====
section
/-! SUPPORT. What each shared update does to each field of Block, so that no proof unfolds a record update. -/

namespace Sys2Proof.Machine

variable {w : Nat}

section Ports

@[simp] theorem port_host (s : Block w) : s.port .host = s.host := rfl
@[simp] theorem port_producer (s : Block w) : s.port .producer = s.producer := rfl
@[simp] theorem port_consumer (s : Block w) : s.port .consumer = s.consumer := rfl

@[simp] theorem port_setPort_same (s : Block w) (p : Port) (io : PortIO w) : (s.setPort p io).port p = io := by
  cases p <;> rfl

theorem port_setPort_other (s : Block w) (p q : Port) (io : PortIO w) (h : q ≠ p) :
    (s.setPort p io).port q = s.port q := by
  cases p <;> cases q <;> first | rfl | exact absurd rfl h

@[simp] theorem setPort_rdPos (s : Block w) (p : Port) (io : PortIO w) : (s.setPort p io).rdPos = s.rdPos := by cases p <;> rfl
@[simp] theorem setPort_wrPos (s : Block w) (p : Port) (io : PortIO w) : (s.setPort p io).wrPos = s.wrPos := by cases p <;> rfl
@[simp] theorem setPort_mask (s : Block w) (p : Port) (io : PortIO w) : (s.setPort p io).mask = s.mask := by cases p <;> rfl
@[simp] theorem setPort_cfg (s : Block w) (p : Port) (io : PortIO w) : (s.setPort p io).cfg = s.cfg := by cases p <;> rfl
@[simp] theorem setPort_err (s : Block w) (p : Port) (io : PortIO w) : (s.setPort p io).err = s.err := by cases p <;> rfl
@[simp] theorem setPort_storage (s : Block w) (p : Port) (io : PortIO w) : (s.setPort p io).storage = s.storage := by cases p <;> rfl
@[simp] theorem setPort_pSeq (s : Block w) (p : Port) (io : PortIO w) : (s.setPort p io).pSeq = s.pSeq := by cases p <;> rfl
@[simp] theorem setPort_cSeq (s : Block w) (p : Port) (io : PortIO w) : (s.setPort p io).cSeq = s.cSeq := by cases p <;> rfl
@[simp] theorem setPort_src (s : Block w) (p : Port) (io : PortIO w) : (s.setPort p io).src = s.src := by cases p <;> rfl
@[simp] theorem setPort_dst (s : Block w) (p : Port) (io : PortIO w) : (s.setPort p io).dst = s.dst := by cases p <;> rfl
@[simp] theorem setPort_obs (s : Block w) (p : Port) (io : PortIO w) : (s.setPort p io).obs = s.obs := by cases p <;> rfl
@[simp] theorem setPort_schedule (s : Block w) (p : Port) (io : PortIO w) : (s.setPort p io).schedule = s.schedule := by cases p <;> rfl
@[simp] theorem setPort_maxAddrW (s : Block w) (p : Port) (io : PortIO w) : (s.setPort p io).maxAddrW = s.maxAddrW := by cases p <;> rfl
@[simp] theorem setPort_storageEpoch (s : Block w) (p : Port) (io : PortIO w) : (s.setPort p io).storageEpoch = s.storageEpoch := by cases p <;> rfl
@[simp] theorem setPort_scrambles (s : Block w) (p : Port) (io : PortIO w) : (s.setPort p io).scrambles = s.scrambles := by cases p <;> rfl

@[simp] theorem setPending_rdPos (s : Block w) (p : Port) (cs : List (Command w)) : (s.setPending p cs).rdPos = s.rdPos := by cases p <;> rfl
@[simp] theorem setPending_wrPos (s : Block w) (p : Port) (cs : List (Command w)) : (s.setPending p cs).wrPos = s.wrPos := by cases p <;> rfl
@[simp] theorem setPending_mask (s : Block w) (p : Port) (cs : List (Command w)) : (s.setPending p cs).mask = s.mask := by cases p <;> rfl
@[simp] theorem setPending_cfg (s : Block w) (p : Port) (cs : List (Command w)) : (s.setPending p cs).cfg = s.cfg := by cases p <;> rfl
@[simp] theorem setPending_err (s : Block w) (p : Port) (cs : List (Command w)) : (s.setPending p cs).err = s.err := by cases p <;> rfl
@[simp] theorem setPending_storage (s : Block w) (p : Port) (cs : List (Command w)) : (s.setPending p cs).storage = s.storage := by cases p <;> rfl
@[simp] theorem setPending_pSeq (s : Block w) (p : Port) (cs : List (Command w)) : (s.setPending p cs).pSeq = s.pSeq := by cases p <;> rfl
@[simp] theorem setPending_cSeq (s : Block w) (p : Port) (cs : List (Command w)) : (s.setPending p cs).cSeq = s.cSeq := by cases p <;> rfl
@[simp] theorem setPending_src (s : Block w) (p : Port) (cs : List (Command w)) : (s.setPending p cs).src = s.src := by cases p <;> rfl
@[simp] theorem setPending_dst (s : Block w) (p : Port) (cs : List (Command w)) : (s.setPending p cs).dst = s.dst := by cases p <;> rfl
@[simp] theorem setPending_obs (s : Block w) (p : Port) (cs : List (Command w)) : (s.setPending p cs).obs = s.obs := by cases p <;> rfl
@[simp] theorem setPending_schedule (s : Block w) (p : Port) (cs : List (Command w)) : (s.setPending p cs).schedule = s.schedule := by cases p <;> rfl
@[simp] theorem setPending_maxAddrW (s : Block w) (p : Port) (cs : List (Command w)) : (s.setPending p cs).maxAddrW = s.maxAddrW := by cases p <;> rfl
@[simp] theorem setPending_storageEpoch (s : Block w) (p : Port) (cs : List (Command w)) : (s.setPending p cs).storageEpoch = s.storageEpoch := by cases p <;> rfl
@[simp] theorem setPending_scrambles (s : Block w) (p : Port) (cs : List (Command w)) : (s.setPending p cs).scrambles = s.scrambles := by cases p <;> rfl

@[simp] theorem respond_rdPos (s : Block w) (p : Port) (st : Status) (d : Option Byte) (n : Word w) : (respond p st d n s).rdPos = s.rdPos := by cases p <;> rfl
@[simp] theorem respond_wrPos (s : Block w) (p : Port) (st : Status) (d : Option Byte) (n : Word w) : (respond p st d n s).wrPos = s.wrPos := by cases p <;> rfl
@[simp] theorem respond_mask (s : Block w) (p : Port) (st : Status) (d : Option Byte) (n : Word w) : (respond p st d n s).mask = s.mask := by cases p <;> rfl
@[simp] theorem respond_cfg (s : Block w) (p : Port) (st : Status) (d : Option Byte) (n : Word w) : (respond p st d n s).cfg = s.cfg := by cases p <;> rfl
@[simp] theorem respond_err (s : Block w) (p : Port) (st : Status) (d : Option Byte) (n : Word w) : (respond p st d n s).err = s.err := by cases p <;> rfl
@[simp] theorem respond_storage (s : Block w) (p : Port) (st : Status) (d : Option Byte) (n : Word w) : (respond p st d n s).storage = s.storage := by cases p <;> rfl
@[simp] theorem respond_pSeq (s : Block w) (p : Port) (st : Status) (d : Option Byte) (n : Word w) : (respond p st d n s).pSeq = s.pSeq := by cases p <;> rfl
@[simp] theorem respond_cSeq (s : Block w) (p : Port) (st : Status) (d : Option Byte) (n : Word w) : (respond p st d n s).cSeq = s.cSeq := by cases p <;> rfl
@[simp] theorem respond_src (s : Block w) (p : Port) (st : Status) (d : Option Byte) (n : Word w) : (respond p st d n s).src = s.src := by cases p <;> rfl
@[simp] theorem respond_dst (s : Block w) (p : Port) (st : Status) (d : Option Byte) (n : Word w) : (respond p st d n s).dst = s.dst := by cases p <;> rfl
@[simp] theorem respond_obs (s : Block w) (p : Port) (st : Status) (d : Option Byte) (n : Word w) : (respond p st d n s).obs = s.obs := by cases p <;> rfl
@[simp] theorem respond_schedule (s : Block w) (p : Port) (st : Status) (d : Option Byte) (n : Word w) : (respond p st d n s).schedule = s.schedule := by cases p <;> rfl
@[simp] theorem respond_maxAddrW (s : Block w) (p : Port) (st : Status) (d : Option Byte) (n : Word w) : (respond p st d n s).maxAddrW = s.maxAddrW := by cases p <;> rfl
@[simp] theorem respond_storageEpoch (s : Block w) (p : Port) (st : Status) (d : Option Byte) (n : Word w) : (respond p st d n s).storageEpoch = s.storageEpoch := by cases p <;> rfl
@[simp] theorem respond_scrambles (s : Block w) (p : Port) (st : Status) (d : Option Byte) (n : Word w) : (respond p st d n s).scrambles = s.scrambles := by cases p <;> rfl

@[simp] theorem fail_rdPos (s : Block w) (p : Port) (st : Status) : (fail p st s).rdPos = s.rdPos := by cases p <;> rfl
@[simp] theorem fail_wrPos (s : Block w) (p : Port) (st : Status) : (fail p st s).wrPos = s.wrPos := by cases p <;> rfl
@[simp] theorem fail_mask (s : Block w) (p : Port) (st : Status) : (fail p st s).mask = s.mask := by cases p <;> rfl
@[simp] theorem fail_cfg (s : Block w) (p : Port) (st : Status) : (fail p st s).cfg = s.cfg := by cases p <;> rfl
@[simp] theorem fail_err (s : Block w) (p : Port) (st : Status) : (fail p st s).err = s.err := by cases p <;> rfl
@[simp] theorem fail_storage (s : Block w) (p : Port) (st : Status) : (fail p st s).storage = s.storage := by cases p <;> rfl
@[simp] theorem fail_pSeq (s : Block w) (p : Port) (st : Status) : (fail p st s).pSeq = s.pSeq := by cases p <;> rfl
@[simp] theorem fail_cSeq (s : Block w) (p : Port) (st : Status) : (fail p st s).cSeq = s.cSeq := by cases p <;> rfl
@[simp] theorem fail_src (s : Block w) (p : Port) (st : Status) : (fail p st s).src = s.src := by cases p <;> rfl
@[simp] theorem fail_dst (s : Block w) (p : Port) (st : Status) : (fail p st s).dst = s.dst := by cases p <;> rfl
@[simp] theorem fail_obs (s : Block w) (p : Port) (st : Status) : (fail p st s).obs = s.obs := by cases p <;> rfl
@[simp] theorem fail_schedule (s : Block w) (p : Port) (st : Status) : (fail p st s).schedule = s.schedule := by cases p <;> rfl
@[simp] theorem fail_maxAddrW (s : Block w) (p : Port) (st : Status) : (fail p st s).maxAddrW = s.maxAddrW := by cases p <;> rfl
@[simp] theorem fail_storageEpoch (s : Block w) (p : Port) (st : Status) : (fail p st s).storageEpoch = s.storageEpoch := by cases p <;> rfl
@[simp] theorem fail_scrambles (s : Block w) (p : Port) (st : Status) : (fail p st s).scrambles = s.scrambles := by cases p <;> rfl

@[simp] theorem raise_rdPos (s : Block w) (e : StickyError) (p : Port) : (raise e p s).rdPos = s.rdPos := by cases p <;> rfl
@[simp] theorem raise_wrPos (s : Block w) (e : StickyError) (p : Port) : (raise e p s).wrPos = s.wrPos := by cases p <;> rfl
@[simp] theorem raise_mask (s : Block w) (e : StickyError) (p : Port) : (raise e p s).mask = s.mask := by cases p <;> rfl
@[simp] theorem raise_cfg (s : Block w) (e : StickyError) (p : Port) : (raise e p s).cfg = s.cfg := by cases p <;> rfl
@[simp] theorem raise_err (s : Block w) (e : StickyError) (p : Port) : (raise e p s).err = s.err ||| e.bit := by cases p <;> rfl
@[simp] theorem raise_storage (s : Block w) (e : StickyError) (p : Port) : (raise e p s).storage = s.storage := by cases p <;> rfl
@[simp] theorem raise_pSeq (s : Block w) (e : StickyError) (p : Port) : (raise e p s).pSeq = s.pSeq := by cases p <;> rfl
@[simp] theorem raise_cSeq (s : Block w) (e : StickyError) (p : Port) : (raise e p s).cSeq = s.cSeq := by cases p <;> rfl
@[simp] theorem raise_src (s : Block w) (e : StickyError) (p : Port) : (raise e p s).src = s.src := by cases p <;> rfl
@[simp] theorem raise_dst (s : Block w) (e : StickyError) (p : Port) : (raise e p s).dst = s.dst := by cases p <;> rfl
@[simp] theorem raise_obs (s : Block w) (e : StickyError) (p : Port) : (raise e p s).obs = s.obs := by cases p <;> rfl
@[simp] theorem raise_schedule (s : Block w) (e : StickyError) (p : Port) : (raise e p s).schedule = s.schedule := by cases p <;> rfl
@[simp] theorem raise_maxAddrW (s : Block w) (e : StickyError) (p : Port) : (raise e p s).maxAddrW = s.maxAddrW := by cases p <;> rfl
@[simp] theorem raise_storageEpoch (s : Block w) (e : StickyError) (p : Port) : (raise e p s).storageEpoch = s.storageEpoch := by cases p <;> rfl
@[simp] theorem raise_scrambles (s : Block w) (e : StickyError) (p : Port) : (raise e p s).scrambles = s.scrambles := by cases p <;> rfl

end Ports

section Bytes

@[simp] theorem pushByte_rdPos (s : Block w) (b : Byte) : (pushByte b s).rdPos = s.rdPos := rfl
@[simp] theorem pushByte_wrPos (s : Block w) (b : Byte) : (pushByte b s).wrPos = s.wrPos + 1#w := rfl
@[simp] theorem pushByte_mask (s : Block w) (b : Byte) : (pushByte b s).mask = s.mask := rfl
@[simp] theorem pushByte_cfg (s : Block w) (b : Byte) : (pushByte b s).cfg = s.cfg := rfl
@[simp] theorem pushByte_err (s : Block w) (b : Byte) : (pushByte b s).err = s.err := rfl
@[simp] theorem pushByte_storage (s : Block w) (b : Byte) : (pushByte b s).storage = Memory.write s.storage (s.slot s.wrPos) b := rfl
@[simp] theorem pushByte_pSeq (s : Block w) (b : Byte) : (pushByte b s).pSeq = s.pSeq := rfl
@[simp] theorem pushByte_cSeq (s : Block w) (b : Byte) : (pushByte b s).cSeq = s.cSeq := rfl
@[simp] theorem pushByte_src (s : Block w) (b : Byte) : (pushByte b s).src = s.src := rfl
@[simp] theorem pushByte_dst (s : Block w) (b : Byte) : (pushByte b s).dst = s.dst := rfl
@[simp] theorem pushByte_host (s : Block w) (b : Byte) : (pushByte b s).host = s.host := rfl
@[simp] theorem pushByte_producer (s : Block w) (b : Byte) : (pushByte b s).producer = s.producer := rfl
@[simp] theorem pushByte_consumer (s : Block w) (b : Byte) : (pushByte b s).consumer = s.consumer := rfl
@[simp] theorem pushByte_obs (s : Block w) (b : Byte) : (pushByte b s).obs = s.obs := rfl
@[simp] theorem pushByte_schedule (s : Block w) (b : Byte) : (pushByte b s).schedule = s.schedule := rfl
@[simp] theorem pushByte_maxAddrW (s : Block w) (b : Byte) : (pushByte b s).maxAddrW = s.maxAddrW := rfl
@[simp] theorem pushByte_storageEpoch (s : Block w) (b : Byte) : (pushByte b s).storageEpoch = s.storageEpoch := rfl
@[simp] theorem pushByte_scrambles (s : Block w) (b : Byte) : (pushByte b s).scrambles = s.scrambles := rfl

@[simp] theorem dropByte_rdPos (s : Block w) : (dropByte s).rdPos = s.rdPos + 1#w := rfl
@[simp] theorem dropByte_wrPos (s : Block w) : (dropByte s).wrPos = s.wrPos := rfl
@[simp] theorem dropByte_mask (s : Block w) : (dropByte s).mask = s.mask := rfl
@[simp] theorem dropByte_cfg (s : Block w) : (dropByte s).cfg = s.cfg := rfl
@[simp] theorem dropByte_err (s : Block w) : (dropByte s).err = s.err := rfl
@[simp] theorem dropByte_storage (s : Block w) : (dropByte s).storage = s.storage := rfl
@[simp] theorem dropByte_pSeq (s : Block w) : (dropByte s).pSeq = s.pSeq := rfl
@[simp] theorem dropByte_cSeq (s : Block w) : (dropByte s).cSeq = s.cSeq := rfl
@[simp] theorem dropByte_src (s : Block w) : (dropByte s).src = s.src := rfl
@[simp] theorem dropByte_dst (s : Block w) : (dropByte s).dst = s.dst := rfl
@[simp] theorem dropByte_host (s : Block w) : (dropByte s).host = s.host := rfl
@[simp] theorem dropByte_producer (s : Block w) : (dropByte s).producer = s.producer := rfl
@[simp] theorem dropByte_consumer (s : Block w) : (dropByte s).consumer = s.consumer := rfl
@[simp] theorem dropByte_obs (s : Block w) : (dropByte s).obs = s.obs := rfl
@[simp] theorem dropByte_schedule (s : Block w) : (dropByte s).schedule = s.schedule := rfl
@[simp] theorem dropByte_maxAddrW (s : Block w) : (dropByte s).maxAddrW = s.maxAddrW := rfl
@[simp] theorem dropByte_storageEpoch (s : Block w) : (dropByte s).storageEpoch = s.storageEpoch := rfl
@[simp] theorem dropByte_scrambles (s : Block w) : (dropByte s).scrambles = s.scrambles := rfl

@[simp] theorem dstWrite_rdPos (s : Block w) (j : Word w) (v : Byte) : (dstWrite j v s).rdPos = s.rdPos := rfl
@[simp] theorem dstWrite_wrPos (s : Block w) (j : Word w) (v : Byte) : (dstWrite j v s).wrPos = s.wrPos := rfl
@[simp] theorem dstWrite_mask (s : Block w) (j : Word w) (v : Byte) : (dstWrite j v s).mask = s.mask := rfl
@[simp] theorem dstWrite_cfg (s : Block w) (j : Word w) (v : Byte) : (dstWrite j v s).cfg = s.cfg := rfl
@[simp] theorem dstWrite_err (s : Block w) (j : Word w) (v : Byte) : (dstWrite j v s).err = s.err := rfl
@[simp] theorem dstWrite_storage (s : Block w) (j : Word w) (v : Byte) : (dstWrite j v s).storage = s.storage := rfl
@[simp] theorem dstWrite_pSeq (s : Block w) (j : Word w) (v : Byte) : (dstWrite j v s).pSeq = s.pSeq := rfl
@[simp] theorem dstWrite_cSeq (s : Block w) (j : Word w) (v : Byte) : (dstWrite j v s).cSeq = s.cSeq := rfl
@[simp] theorem dstWrite_src (s : Block w) (j : Word w) (v : Byte) : (dstWrite j v s).src = s.src := rfl
@[simp] theorem dstWrite_dst (s : Block w) (j : Word w) (v : Byte) : (dstWrite j v s).dst = Memory.write s.dst j.toNat v := rfl
@[simp] theorem dstWrite_host (s : Block w) (j : Word w) (v : Byte) : (dstWrite j v s).host = s.host := rfl
@[simp] theorem dstWrite_producer (s : Block w) (j : Word w) (v : Byte) : (dstWrite j v s).producer = s.producer := rfl
@[simp] theorem dstWrite_consumer (s : Block w) (j : Word w) (v : Byte) : (dstWrite j v s).consumer = s.consumer := rfl
@[simp] theorem dstWrite_obs (s : Block w) (j : Word w) (v : Byte) : (dstWrite j v s).obs = s.obs := rfl
@[simp] theorem dstWrite_schedule (s : Block w) (j : Word w) (v : Byte) : (dstWrite j v s).schedule = s.schedule := rfl
@[simp] theorem dstWrite_maxAddrW (s : Block w) (j : Word w) (v : Byte) : (dstWrite j v s).maxAddrW = s.maxAddrW := rfl
@[simp] theorem dstWrite_storageEpoch (s : Block w) (j : Word w) (v : Byte) : (dstWrite j v s).storageEpoch = s.storageEpoch := rfl
@[simp] theorem dstWrite_scrambles (s : Block w) (j : Word w) (v : Byte) : (dstWrite j v s).scrambles = s.scrambles := rfl

end Bytes

section Whole

@[simp] theorem attach_rdPos (s : Block w) (cap : Word w) : (attach cap s).rdPos = 0#w := rfl
@[simp] theorem attach_wrPos (s : Block w) (cap : Word w) : (attach cap s).wrPos = 0#w := rfl
@[simp] theorem attach_mask (s : Block w) (cap : Word w) : (attach cap s).mask = cap - 1#w := rfl
@[simp] theorem attach_cfg (s : Block w) (cap : Word w) : (attach cap s).cfg = true := rfl
@[simp] theorem attach_err (s : Block w) (cap : Word w) : (attach cap s).err = s.err := rfl
@[simp] theorem attach_storage (s : Block w) (cap : Word w) : (attach cap s).storage = [] := rfl
@[simp] theorem attach_pSeq (s : Block w) (cap : Word w) : (attach cap s).pSeq = s.pSeq := rfl
@[simp] theorem attach_cSeq (s : Block w) (cap : Word w) : (attach cap s).cSeq = s.cSeq := rfl
@[simp] theorem attach_src (s : Block w) (cap : Word w) : (attach cap s).src = s.src := rfl
@[simp] theorem attach_dst (s : Block w) (cap : Word w) : (attach cap s).dst = s.dst := rfl
@[simp] theorem attach_host (s : Block w) (cap : Word w) : (attach cap s).host = s.host := rfl
@[simp] theorem attach_producer (s : Block w) (cap : Word w) : (attach cap s).producer = s.producer := rfl
@[simp] theorem attach_consumer (s : Block w) (cap : Word w) : (attach cap s).consumer = s.consumer := rfl
@[simp] theorem attach_obs (s : Block w) (cap : Word w) : (attach cap s).obs = s.obs := rfl
@[simp] theorem attach_schedule (s : Block w) (cap : Word w) : (attach cap s).schedule = s.schedule := rfl
@[simp] theorem attach_maxAddrW (s : Block w) (cap : Word w) : (attach cap s).maxAddrW = s.maxAddrW := rfl
@[simp] theorem attach_storageEpoch (s : Block w) (cap : Word w) : (attach cap s).storageEpoch = s.storageEpoch + 1 := rfl
@[simp] theorem attach_scrambles (s : Block w) (cap : Word w) : (attach cap s).scrambles = s.scrambles := rfl

@[simp] theorem applyReset_rdPos (s : Block w) : (applyReset s).rdPos = 0#w := rfl
@[simp] theorem applyReset_wrPos (s : Block w) : (applyReset s).wrPos = 0#w := rfl
@[simp] theorem applyReset_mask (s : Block w) : (applyReset s).mask = 0#w := rfl
@[simp] theorem applyReset_cfg (s : Block w) : (applyReset s).cfg = false := rfl
@[simp] theorem applyReset_err (s : Block w) : (applyReset s).err = 0#3 := rfl
@[simp] theorem applyReset_storage (s : Block w) : (applyReset s).storage = [] := rfl
@[simp] theorem applyReset_pSeq (s : Block w) : (applyReset s).pSeq = .idle := rfl
@[simp] theorem applyReset_cSeq (s : Block w) : (applyReset s).cSeq = .idle := rfl
@[simp] theorem applyReset_src (s : Block w) : (applyReset s).src = s.src := rfl
@[simp] theorem applyReset_dst (s : Block w) : (applyReset s).dst = s.dst := rfl
@[simp] theorem applyReset_host (s : Block w) : (applyReset s).host = s.host := rfl
@[simp] theorem applyReset_producer (s : Block w) : (applyReset s).producer = s.producer := rfl
@[simp] theorem applyReset_consumer (s : Block w) : (applyReset s).consumer = s.consumer := rfl
@[simp] theorem applyReset_obs (s : Block w) : (applyReset s).obs = s.obs := rfl
@[simp] theorem applyReset_schedule (s : Block w) : (applyReset s).schedule = s.schedule := rfl
@[simp] theorem applyReset_maxAddrW (s : Block w) : (applyReset s).maxAddrW = s.maxAddrW := rfl
@[simp] theorem applyReset_storageEpoch (s : Block w) : (applyReset s).storageEpoch = s.storageEpoch + 1 := rfl
@[simp] theorem applyReset_scrambles (s : Block w) : (applyReset s).scrambles = s.scrambles := rfl

@[simp] theorem observe_rdPos (s : Block w) (r : BitVec 3) : (observe r s).rdPos = s.rdPos := rfl
@[simp] theorem observe_wrPos (s : Block w) (r : BitVec 3) : (observe r s).wrPos = s.wrPos := rfl
@[simp] theorem observe_mask (s : Block w) (r : BitVec 3) : (observe r s).mask = s.mask := rfl
@[simp] theorem observe_cfg (s : Block w) (r : BitVec 3) : (observe r s).cfg = s.cfg := rfl
@[simp] theorem observe_err (s : Block w) (r : BitVec 3) : (observe r s).err = s.err := rfl
@[simp] theorem observe_storage (s : Block w) (r : BitVec 3) : (observe r s).storage = s.storage := rfl
@[simp] theorem observe_pSeq (s : Block w) (r : BitVec 3) : (observe r s).pSeq = s.pSeq := rfl
@[simp] theorem observe_cSeq (s : Block w) (r : BitVec 3) : (observe r s).cSeq = s.cSeq := rfl
@[simp] theorem observe_src (s : Block w) (r : BitVec 3) : (observe r s).src = s.src := rfl
@[simp] theorem observe_dst (s : Block w) (r : BitVec 3) : (observe r s).dst = s.dst := rfl
@[simp] theorem observe_host (s : Block w) (r : BitVec 3) : (observe r s).host = s.host := rfl
@[simp] theorem observe_producer (s : Block w) (r : BitVec 3) : (observe r s).producer = s.producer := rfl
@[simp] theorem observe_consumer (s : Block w) (r : BitVec 3) : (observe r s).consumer = s.consumer := rfl
@[simp] theorem observe_obs (s : Block w) (r : BitVec 3) : (observe r s).obs = s.obs ++ [s.view r] := rfl
@[simp] theorem observe_schedule (s : Block w) (r : BitVec 3) : (observe r s).schedule = s.schedule := rfl
@[simp] theorem observe_maxAddrW (s : Block w) (r : BitVec 3) : (observe r s).maxAddrW = s.maxAddrW := rfl
@[simp] theorem observe_storageEpoch (s : Block w) (r : BitVec 3) : (observe r s).storageEpoch = s.storageEpoch := rfl
@[simp] theorem observe_scrambles (s : Block w) (r : BitVec 3) : (observe r s).scrambles = s.scrambles := rfl

@[simp] theorem popEvent_rdPos (s : Block w) : (popEvent s).rdPos = s.rdPos := rfl
@[simp] theorem popEvent_wrPos (s : Block w) : (popEvent s).wrPos = s.wrPos := rfl
@[simp] theorem popEvent_mask (s : Block w) : (popEvent s).mask = s.mask := rfl
@[simp] theorem popEvent_cfg (s : Block w) : (popEvent s).cfg = s.cfg := rfl
@[simp] theorem popEvent_err (s : Block w) : (popEvent s).err = s.err := rfl
@[simp] theorem popEvent_storage (s : Block w) : (popEvent s).storage = s.storage := rfl
@[simp] theorem popEvent_pSeq (s : Block w) : (popEvent s).pSeq = s.pSeq := rfl
@[simp] theorem popEvent_cSeq (s : Block w) : (popEvent s).cSeq = s.cSeq := rfl
@[simp] theorem popEvent_src (s : Block w) : (popEvent s).src = s.src := rfl
@[simp] theorem popEvent_dst (s : Block w) : (popEvent s).dst = s.dst := rfl
@[simp] theorem popEvent_host (s : Block w) : (popEvent s).host = s.host := rfl
@[simp] theorem popEvent_producer (s : Block w) : (popEvent s).producer = s.producer := rfl
@[simp] theorem popEvent_consumer (s : Block w) : (popEvent s).consumer = s.consumer := rfl
@[simp] theorem popEvent_obs (s : Block w) : (popEvent s).obs = s.obs := rfl
@[simp] theorem popEvent_schedule (s : Block w) : (popEvent s).schedule = s.schedule.tail := rfl
@[simp] theorem popEvent_maxAddrW (s : Block w) : (popEvent s).maxAddrW = s.maxAddrW := rfl
@[simp] theorem popEvent_storageEpoch (s : Block w) : (popEvent s).storageEpoch = s.storageEpoch := rfl
@[simp] theorem popEvent_scrambles (s : Block w) : (popEvent s).scrambles = s.scrambles := rfl

@[simp] theorem scramble_rdPos (s : Block w) : (scramble s).rdPos = Config.conflictWord w 0 s.scrambles := rfl
@[simp] theorem scramble_wrPos (s : Block w) : (scramble s).wrPos = Config.conflictWord w 1 s.scrambles := rfl
@[simp] theorem scramble_mask (s : Block w) : (scramble s).mask = Config.conflictWord w 2 s.scrambles := rfl
@[simp] theorem scramble_cfg (s : Block w) : (scramble s).cfg = Config.conflictFlag 0 s.scrambles := rfl
@[simp] theorem scramble_err (s : Block w) : (scramble s).err = s.err := rfl
@[simp] theorem scramble_storage (s : Block w) : (scramble s).storage = [] := rfl
@[simp] theorem scramble_pSeq (s : Block w) : (scramble s).pSeq = conflictSeq 3 s.scrambles := rfl
@[simp] theorem scramble_cSeq (s : Block w) : (scramble s).cSeq = conflictSeq 5 s.scrambles := rfl
@[simp] theorem scramble_src (s : Block w) : (scramble s).src = s.src := rfl
@[simp] theorem scramble_dst (s : Block w) : (scramble s).dst = [] := rfl
@[simp] theorem scramble_host (s : Block w) : (scramble s).host = s.host := rfl
@[simp] theorem scramble_producer (s : Block w) : (scramble s).producer = s.producer := rfl
@[simp] theorem scramble_consumer (s : Block w) : (scramble s).consumer = s.consumer := rfl
@[simp] theorem scramble_obs (s : Block w) : (scramble s).obs = s.obs := rfl
@[simp] theorem scramble_schedule (s : Block w) : (scramble s).schedule = s.schedule := rfl
@[simp] theorem scramble_maxAddrW (s : Block w) : (scramble s).maxAddrW = s.maxAddrW := rfl
@[simp] theorem scramble_storageEpoch (s : Block w) : (scramble s).storageEpoch = s.storageEpoch + 1 := rfl
@[simp] theorem scramble_scrambles (s : Block w) : (scramble s).scrambles = s.scrambles + 1 := rfl

end Whole

end Sys2Proof.Machine
end

