-- ==== Sys2Proof/Laws/Ops.lean ====
section
/-! SUPPORT. What the shared operations do, once: the views a response leaves alone, the shape of a response,
the commands' common failures, and the byte moves. -/

namespace Sys2Proof.Machine

variable {w : Nat}

@[simp] theorem setPort_occ (s : Block w) (p : Port) (io : PortIO w) : (s.setPort p io).occ = s.occ := by cases p <;> rfl
@[simp] theorem setPort_room (s : Block w) (p : Port) (io : PortIO w) : (s.setPort p io).room = s.room := by cases p <;> rfl
@[simp] theorem setPort_seq (s : Block w) (p : Port) (io : PortIO w) : (s.setPort p io).seq = s.seq := by cases p <;> rfl
@[simp] theorem setPort_contents (s : Block w) (p : Port) (io : PortIO w) : (s.setPort p io).contents = s.contents := by cases p <;> rfl
@[simp] theorem setPort_slot (s : Block w) (p : Port) (io : PortIO w) (x) : (s.setPort p io).slot x = s.slot x := by cases p <;> rfl
@[simp] theorem setPort_memRead (s : Block w) (p : Port) (io : PortIO w) (x) : (s.setPort p io).memRead x = s.memRead x := by cases p <;> rfl
@[simp] theorem setPort_initc (s : Block w) (p : Port) (io : PortIO w) : (s.setPort p io).initc = s.initc := by cases p <;> rfl

@[simp] theorem setPending_occ (s : Block w) (p : Port) (cs : List (Command w)) : (s.setPending p cs).occ = s.occ := by cases p <;> rfl
@[simp] theorem setPending_room (s : Block w) (p : Port) (cs : List (Command w)) : (s.setPending p cs).room = s.room := by cases p <;> rfl
@[simp] theorem setPending_seq (s : Block w) (p : Port) (cs : List (Command w)) : (s.setPending p cs).seq = s.seq := by cases p <;> rfl
@[simp] theorem setPending_contents (s : Block w) (p : Port) (cs : List (Command w)) : (s.setPending p cs).contents = s.contents := by cases p <;> rfl
@[simp] theorem setPending_slot (s : Block w) (p : Port) (cs : List (Command w)) (x) : (s.setPending p cs).slot x = s.slot x := by cases p <;> rfl
@[simp] theorem setPending_memRead (s : Block w) (p : Port) (cs : List (Command w)) (x) : (s.setPending p cs).memRead x = s.memRead x := by cases p <;> rfl
@[simp] theorem setPending_initc (s : Block w) (p : Port) (cs : List (Command w)) : (s.setPending p cs).initc = s.initc := by cases p <;> rfl

@[simp] theorem respond_occ (s : Block w) (p : Port) (st : Status) (d : Option Byte) (n : Word w) : (respond p st d n s).occ = s.occ := by cases p <;> rfl
@[simp] theorem respond_room (s : Block w) (p : Port) (st : Status) (d : Option Byte) (n : Word w) : (respond p st d n s).room = s.room := by cases p <;> rfl
@[simp] theorem respond_seq (s : Block w) (p : Port) (st : Status) (d : Option Byte) (n : Word w) : (respond p st d n s).seq = s.seq := by cases p <;> rfl
@[simp] theorem respond_contents (s : Block w) (p : Port) (st : Status) (d : Option Byte) (n : Word w) : (respond p st d n s).contents = s.contents := by cases p <;> rfl
@[simp] theorem respond_slot (s : Block w) (p : Port) (st : Status) (d : Option Byte) (n : Word w) (x) : (respond p st d n s).slot x = s.slot x := by cases p <;> rfl
@[simp] theorem respond_memRead (s : Block w) (p : Port) (st : Status) (d : Option Byte) (n : Word w) (x) : (respond p st d n s).memRead x = s.memRead x := by cases p <;> rfl
@[simp] theorem respond_initc (s : Block w) (p : Port) (st : Status) (d : Option Byte) (n : Word w) : (respond p st d n s).initc = s.initc := by cases p <;> rfl

@[simp] theorem fail_occ (s : Block w) (p : Port) (st : Status) : (fail p st s).occ = s.occ := by cases p <;> rfl
@[simp] theorem fail_room (s : Block w) (p : Port) (st : Status) : (fail p st s).room = s.room := by cases p <;> rfl
@[simp] theorem fail_seq (s : Block w) (p : Port) (st : Status) : (fail p st s).seq = s.seq := by cases p <;> rfl
@[simp] theorem fail_contents (s : Block w) (p : Port) (st : Status) : (fail p st s).contents = s.contents := by cases p <;> rfl
@[simp] theorem fail_slot (s : Block w) (p : Port) (st : Status) (x) : (fail p st s).slot x = s.slot x := by cases p <;> rfl
@[simp] theorem fail_memRead (s : Block w) (p : Port) (st : Status) (x) : (fail p st s).memRead x = s.memRead x := by cases p <;> rfl
@[simp] theorem fail_initc (s : Block w) (p : Port) (st : Status) : (fail p st s).initc = s.initc := by cases p <;> rfl

@[simp] theorem raise_occ (s : Block w) (e : StickyError) (p : Port) : (raise e p s).occ = s.occ := by cases p <;> rfl
@[simp] theorem raise_room (s : Block w) (e : StickyError) (p : Port) : (raise e p s).room = s.room := by cases p <;> rfl
@[simp] theorem raise_seq (s : Block w) (e : StickyError) (p : Port) : (raise e p s).seq = s.seq := by cases p <;> rfl
@[simp] theorem raise_contents (s : Block w) (e : StickyError) (p : Port) : (raise e p s).contents = s.contents := by cases p <;> rfl
@[simp] theorem raise_slot (s : Block w) (e : StickyError) (p : Port) (x) : (raise e p s).slot x = s.slot x := by cases p <;> rfl
@[simp] theorem raise_memRead (s : Block w) (e : StickyError) (p : Port) (x) : (raise e p s).memRead x = s.memRead x := by cases p <;> rfl

/-- The fault mark is a bit of `ERR`. -/
theorem Block.initc_congr {s t : Block w} (h : t.err = s.err) : t.initc = s.initc := by
  simp [Block.initc, h]

/-- Setting a sticky bit other than `ERR.INITC` leaves the fault mark. -/
@[simp] theorem raise_initc (s : Block w) (e : StickyError) (p : Port) : (raise e p s).initc = s.initc := by
  cases e <;> simp [Block.initc, StickyError.bit, errIll, errUncfg]

/-- A port is busy when its sequencer is not idle. -/
theorem Block.busy_eq_false {s : Block w} {p : Port} : s.busy p = false ↔ s.seq p = .idle := by
  simp [Block.busy]

theorem Block.busy_eq_true {s : Block w} {p : Port} : s.busy p = true ↔ s.seq p ≠ .idle := by
  simp [Block.busy]

/-- `respond` from any state with `s`'s queues gives port `p` its response and the other ports nothing. -/
theorem respond_responded (p : Port) (st : Status) (d : Option Byte) (n : Word w) {s u : Block w}
    (h : ∀ q, u.port q = s.port q) : Responded p st d n s (respond p st d n u) := by
  refine ⟨⟨mkResponse p (u.port p).unspec st d n, ?_, ?_⟩, ?_, fun q hq => ?_⟩
  · simp [respond, Block.pushResponse, h]
  · cases d <;> simp [mkResponse]
  · simp [respond, Block.pushResponse, h]
  · rw [← h q]
    exact port_setPort_other u p q _ hq

theorem KeepsBlock.refl (s : Block w) : KeepsBlock s s :=
  ⟨⟨rfl, rfl, rfl, fun _ => ⟨rfl, rfl⟩⟩, ⟨rfl, rfl, fun _ => rfl⟩, ⟨rfl, rfl, rfl⟩, rfl, rfl⟩

/-- A response leaves the block as it is. -/
theorem respond_keepsBlock (p : Port) (st : Status) (d : Option Byte) (n : Word w) (s : Block w) :
    KeepsBlock s (respond p st d n s) := by
  cases p <;> exact KeepsBlock.refl s

/-- `fail` is a failing command's whole effect. -/
theorem fail_failsWith (p : Port) (st : Status) (s : Block w) : FailsWith p st s (fail p st s) :=
  ⟨respond_responded p st none 0#w fun _ => rfl, by simp, respond_keepsBlock p st none 0#w s⟩

/-- `raise` is an error's whole effect. -/
theorem raise_raisesOn (e : StickyError) (p : Port) (s : Block w) :
    RaisesOn p e.status e.bit s (raise e p s) := by
  refine ⟨respond_responded p _ none 0#w fun q => ?_, by simp, ?_⟩
  · cases q <;> rfl
  · cases p <;> exact KeepsBlock.refl s

/-- On an unconfigured block a data command raises UNCONFIGURED. -/
theorem whenConfigured_false {s : Block w} (p : Port) (own : Block w) (h : s.cfg = false) :
    whenConfigured p s own = raise .unconfigured p s := by simp [whenConfigured, h]

theorem whenConfigured_true {s : Block w} (p : Port) (own : Block w) (h : s.cfg = true) :
    whenConfigured p s own = own := by simp [whenConfigured, h]

theorem settle_clean {s : Block w} (t : Block w) (h : s.Clean) : settle s t = t := by
  have h : s.initc = false := h
  simp [settle, h]

theorem mapNext_settle_clean {s : Block w} (o : Host.Outcome (Block w) Fault Refusal) (h : s.Clean) :
    mapNext (settle s) o = o := by
  cases o <;> simp [mapNext, andThen, settle_clean _ h]

@[simp] theorem andThen_next {α β : Type} (s : α) (f : α → Host.Outcome β Fault Refusal) :
    andThen (.next s) f = f s := rfl

@[simp] theorem mapNext_next {α β : Type} (f : α → β) (s : α) :
    mapNext f (.next s : Host.Outcome α Fault Refusal) = .next (f s) := rfl

/-- What `goOn` can do: go on, at the same width. -/
@[simp] theorem goOn_state (s : Block w) (f : Block w → Block w) : goOn s.state f = .next (f s).state := rfl

theorem state_inj {s t : Block w} : s.state = t.state ↔ s = t := by
  constructor
  · intro h; cases h; rfl
  · rintro rfl; rfl

@[simp] theorem blockLike_state (t s : Block w) : t.state.blockLike s = t := by simp [State.blockLike]

/-- A command goes on, at the width of its machine. -/
theorem exec_goesOn (i : Instr) (s : Block w) : ∃ t : Block w, exec i s.state = .next t.state := by
  cases i <;> exact ⟨_, rfl⟩

/-- A command on a block is `exec` on the machine of that block. -/
theorem runCommand_eq {i : Instr} {s t : Block w} : runCommand i s = .next t ↔ exec i s.state = .next t.state := by
  obtain ⟨u, hu⟩ := exec_goesOn i s
  simp [runCommand, hu]

end Sys2Proof.Machine
end

