-- ==== Sys2Proof/Laws/PerInstr.lean ====
section
/-! SUPPORT. Statements about every command, one lemma per constructor of Instr. -/

namespace Sys2Proof.Laws.OwnPort

/-- On a build of any width that holds its operands, a command's word, presented on the command's port with no buffer
of its own, passes every check of WellFormed.lean, and its opcode is assigned to that port (30_encoding.md R53). -/
def Statement (i : Instr) : Prop :=
  ∀ w : Nat, wfWidth w i = true →
    Command.wf i.port { word := encode w i, buf := none } = true ∧ portOfOp (opField (encode w i)) = some i.port

/-- The checks, from the round trip of the word. -/
theorem statement_of {i : Instr} (hd : ∀ w, wfWidth w i = true → decode (encode w i) = .ok i)
    (hp : ∀ w, portOfOp (opField (encode w i)) = some i.port)
    (hl : wfBufferLength i none = true) (hn : wfNoBuffer i none = true) : Statement i := by
  refine fun w hw => ⟨?_, hp w⟩
  simp [Command.wf, decodeAt, hd w hw, Instr.wf, wfPort, hw, hl, hn]

/-- A fitting operand is the number in `arg`. -/
theorem toNat_ofNat_of_lt {w n : Nat} (h : decide (n < 2 ^ w) = true) : (BitVec.ofNat w n).toNat = n := by
  rw [BitVec.toNat_ofNat, Nat.mod_eq_of_lt (by simpa using h)]

theorem init (bp : Bool) (cap : Nat) : Statement (.init bp cap) :=
  statement_of (fun _ h => (decode_ok_iff _ _).2 (by simp [encode, -BitVec.toNat_ofNat, toNat_ofNat_of_lt h]))
    (fun _ => by rw [encode, opField_commandWord]; rfl) rfl rfl

theorem put (b : Byte) : Statement (.put b) :=
  statement_of (fun _ _ => (decode_ok_iff _ _).2 (by simp [encode]))
    (fun _ => by rw [encode, opField_commandWord]; rfl) rfl rfl

theorem write (n : Nat) : Statement (.write n) :=
  statement_of (fun _ h => (decode_ok_iff _ _).2 (by simp [encode, -BitVec.toNat_ofNat, toNat_ofNat_of_lt h]))
    (fun _ => by rw [encode, opField_commandWord]; rfl) rfl rfl

theorem wrroom : Statement .wrroom :=
  statement_of (fun _ _ => (decode_ok_iff _ _).2 (by simp [encode]))
    (fun _ => by rw [encode, opField_commandWord]; rfl) rfl rfl

theorem get : Statement .get :=
  statement_of (fun _ _ => (decode_ok_iff _ _).2 (by simp [encode]))
    (fun _ => by rw [encode, opField_commandWord]; rfl) rfl rfl

theorem peek (idx : Nat) : Statement (.peek idx) :=
  statement_of (fun _ h => (decode_ok_iff _ _).2 (by simp [encode, -BitVec.toNat_ofNat, toNat_ofNat_of_lt h]))
    (fun _ => by rw [encode, opField_commandWord]; rfl) rfl rfl

theorem flush : Statement .flush :=
  statement_of (fun _ _ => (decode_ok_iff _ _).2 (by simp [encode]))
    (fun _ => by rw [encode, opField_commandWord]; rfl) rfl rfl

theorem read (n : Nat) : Statement (.read n) :=
  statement_of (fun _ h => (decode_ok_iff _ _).2 (by simp [encode, -BitVec.toNat_ofNat, toNat_ofNat_of_lt h]))
    (fun _ => by rw [encode, opField_commandWord]; rfl) rfl rfl

theorem rdavail : Statement .rdavail :=
  statement_of (fun _ _ => (decode_ok_iff _ _).2 (by simp [encode]))
    (fun _ => by rw [encode, opField_commandWord]; rfl) rfl rfl

end Sys2Proof.Laws.OwnPort
end

