-- ==== Sys2Proof/Laws/Steps.lean ====
section
/-! SUPPORT. Everything a step of each side can do, said once: one inversion lemma for accepting a command, and
one for each port's step while `ERR.INITC = 0`.  Invariants follow from these without unfolding a meaning. -/

namespace Sys2Proof.Machine

variable {w : Nat}

/-- What a port's step is: a micro-step, nothing, an ILLEGAL word, or a command of the port's own. -/
theorem portStep_cases {p : Port} {s t : Block w} (h : portStep p s = .next t) :
    (∃ T k, s.seq p = .moving T k ∧ t = microStep p T k s) ∨
    (s.seq p = .idle ∧ (s.port p).pending = [] ∧ t = s) ∨
    (s.seq p = .idle ∧ ∃ c cs, (s.port p).pending = c :: cs ∧
      ((∃ r, decodeAt p c.word = .error r ∧ t = raise .illegal p (s.setPending p cs)) ∨
       ∃ i, decodeAt p c.word = .ok i ∧ i.port = p ∧
         exec i (present i c.buf (s.setPending p cs)).state = .next t.state)) := by
  unfold portStep at h
  split at h
  · rename_i T k hq
    exact .inl ⟨T, k, hq, by simpa using h.symm⟩
  · rename_i hq
    split at h
    · rename_i hp
      exact .inr (.inl ⟨hq, hp, by simpa using h.symm⟩)
    · rename_i c cs hp
      refine .inr (.inr ⟨hq, c, cs, hp, ?_⟩)
      unfold accept at h
      split at h
      · rename_i i hd
        refine .inr ⟨i, hd, ?_, runCommand_eq.1 h⟩
        simp only [decodeAt] at hd
        split at hd
        · split at hd
          · rename_i hi
            cases hd
            exact hi
          · cases hd
        · cases hd
      · rename_i r hd
        exact .inl ⟨r, hd, by simpa using h.symm⟩

/-- What a producer-side step never touches. -/
structure ProducerFrame (s t : Block w) : Prop where
  rdPos        : t.rdPos = s.rdPos
  mask         : t.mask = s.mask
  cfg          : t.cfg = s.cfg
  cSeq         : t.cSeq = s.cSeq
  dst          : t.dst = s.dst
  host         : t.host = s.host
  consumer     : t.consumer = s.consumer
  obs          : t.obs = s.obs
  schedule     : t.schedule = s.schedule
  maxAddrW     : t.maxAddrW = s.maxAddrW
  storageEpoch : t.storageEpoch = s.storageEpoch
  scrambles    : t.scrambles = s.scrambles
  initc        : t.initc = s.initc

/-- What a consumer-side step never touches. -/
structure ConsumerFrame (s t : Block w) : Prop where
  wrPos        : t.wrPos = s.wrPos
  mask         : t.mask = s.mask
  cfg          : t.cfg = s.cfg
  pSeq         : t.pSeq = s.pSeq
  storage      : t.storage = s.storage
  src          : t.src = s.src
  host         : t.host = s.host
  producer     : t.producer = s.producer
  obs          : t.obs = s.obs
  schedule     : t.schedule = s.schedule
  maxAddrW     : t.maxAddrW = s.maxAddrW
  storageEpoch : t.storageEpoch = s.storageEpoch
  scrambles    : t.scrambles = s.scrambles
  initc        : t.initc = s.initc

/-- The next value of a sequencer that has moved byte `k` of `T`. -/
def Sequencer.after (T k : Word w) : Sequencer w := if k + 1#w = T then .idle else .moving T (k + 1#w)

/-- What a producer-side step does to what it owns. -/
inductive ProducerEffect (s t : Block w) : Prop where
  /-- A failure, a query, an empty transfer, or nothing to do. -/
  | none (wrPos : t.wrPos = s.wrPos) (storage : t.storage = s.storage) (pSeq : t.pSeq = s.pSeq)
  /-- A successful PUT. -/
  | put (b : Byte) (idle : s.pSeq = .idle) (cfg : s.cfg = true) (fits : s.occ ≤ s.mask)
      (wrPos : t.wrPos = s.wrPos + 1#w) (storage : t.storage = Memory.write s.storage (s.slot s.wrPos) b)
      (pSeq : t.pSeq = .idle)
  /-- A WRITE's start step with a transfer. -/
  | start (n : Word w) (idle : s.pSeq = .idle) (cfg : s.cfg = true) (some : transferCount n s.room ≠ 0#w)
      (wrPos : t.wrPos = s.wrPos) (storage : t.storage = s.storage)
      (pSeq : t.pSeq = .moving (transferCount n s.room) 0#w)
  /-- A WRITE's micro-step. -/
  | micro (T k : Word w) (busy : s.pSeq = .moving T k) (wrPos : t.wrPos = s.wrPos + 1#w)
      (storage : t.storage = Memory.write s.storage (s.slot s.wrPos) (s.srcRead k))
      (pSeq : t.pSeq = Sequencer.after T k)

/-- What a consumer-side step does to the registers it owns. -/
inductive ConsumerEffect (s t : Block w) : Prop where
  /-- A failure, a query, a PEEK, an empty transfer, or nothing to do. -/
  | none (rdPos : t.rdPos = s.rdPos) (cSeq : t.cSeq = s.cSeq)
  /-- A successful GET. -/
  | get (idle : s.cSeq = .idle) (cfg : s.cfg = true) (has : s.occ ≠ 0#w) (rdPos : t.rdPos = s.rdPos + 1#w)
      (cSeq : t.cSeq = .idle)
  /-- A FLUSH. -/
  | flush (idle : s.cSeq = .idle) (cfg : s.cfg = true) (rdPos : t.rdPos = s.wrPos) (cSeq : t.cSeq = .idle)
  /-- A READ's start step with a transfer. -/
  | start (n : Word w) (idle : s.cSeq = .idle) (cfg : s.cfg = true) (some : transferCount n s.occ ≠ 0#w)
      (rdPos : t.rdPos = s.rdPos) (cSeq : t.cSeq = .moving (transferCount n s.occ) 0#w)
  /-- A READ's micro-step. -/
  | micro (T k : Word w) (busy : s.cSeq = .moving T k) (rdPos : t.rdPos = s.rdPos + 1#w)
      (cSeq : t.cSeq = Sequencer.after T k)

/-- What a consumer-side step does to `DST`: nothing, or a READ comes with a buffer, or a micro-step writes. -/
inductive DstEffect (s t : Block w) : Prop where
  | none (dst : t.dst = s.dst)
  | presented (bs : List Byte) (idle : s.cSeq = .idle) (dst : t.dst = Memory.ofBytes bs)
  | written (T k : Word w) (busy : s.cSeq = .moving T k) (dst : t.dst = Memory.write s.dst k.toNat s.headByte)

theorem producerFrame_raise (e : StickyError) (s : Block w) : ProducerFrame s (raise e .producer s) := by
  constructor <;> first | rfl | simp

theorem consumerFrame_raise (e : StickyError) (s : Block w) : ConsumerFrame s (raise e .consumer s) := by
  constructor <;> first | rfl | simp

theorem ProducerFrame.refl (s : Block w) : ProducerFrame s s := by constructor <;> rfl

theorem ConsumerFrame.refl (s : Block w) : ConsumerFrame s s := by constructor <;> rfl

theorem producerFrame_respond (st : Status) (d : Option Byte) (n : Word w) (s : Block w) :
    ProducerFrame s (respond .producer st d n s) := by constructor <;> rfl

theorem consumerFrame_respond (st : Status) (d : Option Byte) (n : Word w) (s : Block w) :
    ConsumerFrame s (respond .consumer st d n s) := by constructor <;> rfl

/-- A producer command run on an idle port. -/
theorem exec_producer {i : Instr} {s t : Block w} (hp : i.port = .producer) (hq : s.pSeq = .idle)
    (hx : exec i s.state = .next t.state) : ProducerFrame s t ∧ ProducerEffect s t := by
  by_cases hcfg : s.cfg = true
  · cases i <;> simp only [Instr.port, reduceCtorEq] at hp <;>
      simp only [exec, execPut, execWrite, execWrroom, whenConfigured_true _ _ hcfg,
        goOn_state, Host.Outcome.next.injEq, state_inj] at hx <;> subst hx
    case put b =>
      split
      · exact ⟨producerFrame_respond _ _ _ s, .none rfl rfl rfl⟩
      · rename_i hf
        exact ⟨by constructor <;> rfl, .put b hq hcfg (BitVec.not_lt.1 hf) rfl rfl hq⟩
    case write n =>
      split
      · exact ⟨producerFrame_respond _ _ _ s, .none rfl rfl rfl⟩
      · split
        · exact ⟨producerFrame_respond _ _ _ s, .none rfl rfl rfl⟩
        · rename_i hn
          exact ⟨by constructor <;> rfl, .start n hq hcfg hn rfl rfl rfl⟩
    case wrroom =>
      split <;> exact ⟨producerFrame_respond _ _ _ s, .none rfl rfl rfl⟩
  · have hcfg : s.cfg = false := by simpa using hcfg
    cases i <;> simp only [Instr.port, reduceCtorEq] at hp <;>
      simp only [exec, execPut, execWrite, execWrroom, whenConfigured_false _ _ hcfg,
        goOn_state, Host.Outcome.next.injEq, state_inj] at hx <;> subst hx <;>
      exact ⟨producerFrame_raise .unconfigured s, .none rfl rfl rfl⟩

/-- A consumer command run on an idle port. -/
theorem exec_consumer {i : Instr} {s t : Block w} (hp : i.port = .consumer) (hq : s.cSeq = .idle)
    (hx : exec i s.state = .next t.state) : ConsumerFrame s t ∧ ConsumerEffect s t := by
  by_cases hcfg : s.cfg = true
  · cases i <;> simp only [Instr.port, reduceCtorEq] at hp <;>
      simp only [exec, execGet, execPeek, execFlush, execRead, execRdavail, whenConfigured_true _ _ hcfg,
        goOn_state, Host.Outcome.next.injEq, state_inj] at hx <;> subst hx
    case get =>
      split
      · exact ⟨consumerFrame_respond _ _ _ s, .none rfl rfl⟩
      · rename_i hf
        exact ⟨by constructor <;> rfl, .get hq hcfg hf rfl hq⟩
    case peek idx =>
      split <;> exact ⟨consumerFrame_respond _ _ _ s, .none rfl rfl⟩
    case flush =>
      exact ⟨by constructor <;> rfl, .flush hq hcfg rfl hq⟩
    case read n =>
      split
      · exact ⟨consumerFrame_respond _ _ _ s, .none rfl rfl⟩
      · split
        · exact ⟨consumerFrame_respond _ _ _ s, .none rfl rfl⟩
        · rename_i hn
          exact ⟨by constructor <;> rfl, .start n hq hcfg hn rfl rfl⟩
    case rdavail =>
      split <;> exact ⟨consumerFrame_respond _ _ _ s, .none rfl rfl⟩
  · have hcfg : s.cfg = false := by simpa using hcfg
    cases i <;> simp only [Instr.port, reduceCtorEq] at hp <;>
      simp only [exec, execGet, execPeek, execFlush, execRead, execRdavail, whenConfigured_false _ _ hcfg,
        goOn_state, Host.Outcome.next.injEq, state_inj] at hx <;> subst hx <;>
      exact ⟨consumerFrame_raise .unconfigured s, .none rfl rfl⟩

/-- What a port has ready when its command runs: the state but for the producer's queue and `SRC`. -/
theorem present_producer {i : Instr} (hp : i.port = .producer) (buf : Option (List Byte)) (cs : List (Command w))
    (s : Block w) : ∃ io src, present i buf (s.setPending .producer cs) = { s with producer := io, src := src } := by
  cases i <;> simp only [Instr.port, reduceCtorEq] at hp <;> exact ⟨_, _, rfl⟩

/-- What a port has ready when its command runs: the state but for the consumer's queue and `DST`. -/
theorem present_consumer {i : Instr} (hp : i.port = .consumer) (buf : Option (List Byte)) (cs : List (Command w))
    (s : Block w) : ∃ io dst, present i buf (s.setPending .consumer cs) = { s with consumer := io, dst := dst } ∧
      (dst = s.dst ∨ ∃ bs, dst = Memory.ofBytes bs) := by
  cases i <;> simp only [Instr.port, reduceCtorEq] at hp
  case read n =>
    cases buf with
    | none => exact ⟨_, _, rfl, .inl rfl⟩
    | some bs => exact ⟨_, _, rfl, .inr ⟨bs, rfl⟩⟩
  all_goals exact ⟨_, _, rfl, .inl rfl⟩

/-- No consumer command writes `DST`: its micro-steps do. -/
theorem exec_consumer_dst {i : Instr} {s t : Block w} (hp : i.port = .consumer) (hx : exec i s.state = .next t.state) :
    t.dst = s.dst := by
  cases i <;> simp only [Instr.port, reduceCtorEq] at hp <;>
    simp only [exec, execGet, execPeek, execFlush, execRead, execRdavail, whenConfigured,
      goOn_state, Host.Outcome.next.injEq, state_inj] at hx <;> subst hx <;> (repeat' split) <;> rfl

/-- A producer-side step, while `ERR.INITC = 0`. -/
theorem producer_step {s t : Block w} (hc : s.Clean) (h : portStep .producer s = .next t) :
    ProducerFrame s t ∧ ProducerEffect s t := by
  have hi : s.initc = false := hc
  rcases portStep_cases h with ⟨T, k, hq, rfl⟩ | ⟨_, _, rfl⟩ | ⟨hq, c, cs, _, ⟨_, _, rfl⟩ | ⟨i, _, hp, hx⟩⟩
  · simp only [microStep, hi, Bool.false_eq_true, if_false]
    refine ⟨?_, .micro T k hq ?_ ?_ ?_⟩
    · simp only [writeMicro]
      split <;> constructor <;> rfl
    all_goals
      simp only [writeMicro, Sequencer.after]
      split <;> rfl
  · exact ⟨.refl _, .none rfl rfl rfl⟩
  · refine ⟨?_, .none rfl rfl rfl⟩
    obtain ⟨h1, h2, h3, h4, h5, h6, h7, h8, h9, h10, h11, h12, h13⟩ :=
      producerFrame_raise .illegal (s.setPending .producer cs)
    exact ⟨h1, h2, h3, h4, h5, h6, h7, h8, h9, h10, h11, h12, h13⟩
  · obtain ⟨io, src, hu⟩ := present_producer hp c.buf cs s
    rw [hu] at hx
    obtain ⟨⟨h1, h2, h3, h4, h5, h6, h7, h8, h9, h10, h11, h12, h13⟩, he⟩ := exec_producer hp (by exact hq) hx
    refine ⟨⟨h1, h2, h3, h4, h5, h6, h7, h8, h9, h10, h11, h12, h13⟩, ?_⟩
    cases he with
    | none a b c => exact .none a b c
    | put b a1 a2 a3 a4 a5 a6 => exact .put b a1 a2 a3 a4 a5 a6
    | start n a1 a2 a3 a4 a5 a6 => exact .start n a1 a2 a3 a4 a5 a6
    | micro T k a1 => exact absurd (a1.symm.trans hq) (by simp)

/-- A consumer-side step, while `ERR.INITC = 0`. -/
theorem consumer_step {s t : Block w} (hc : s.Clean) (h : portStep .consumer s = .next t) :
    ConsumerFrame s t ∧ ConsumerEffect s t ∧ DstEffect s t := by
  have hi : s.initc = false := hc
  rcases portStep_cases h with ⟨T, k, hq, rfl⟩ | ⟨_, _, rfl⟩ | ⟨hq, c, cs, _, ⟨_, _, rfl⟩ | ⟨i, _, hp, hx⟩⟩
  · simp only [microStep, hi, Bool.false_eq_true, if_false]
    refine ⟨?_, .micro T k hq ?_ ?_, .written T k hq ?_⟩
    · simp only [readMicro]
      split <;> constructor <;> rfl
    all_goals
      simp only [readMicro, Sequencer.after]
      split <;> rfl
  · exact ⟨.refl _, .none rfl rfl, .none rfl⟩
  · refine ⟨?_, .none rfl rfl, .none rfl⟩
    obtain ⟨h1, h2, h3, h4, h5, h6, h7, h8, h9, h10, h11, h12, h13, h14⟩ :=
      consumerFrame_raise .illegal (s.setPending .consumer cs)
    exact ⟨h1, h2, h3, h4, h5, h6, h7, h8, h9, h10, h11, h12, h13, h14⟩
  · obtain ⟨io, dst, hu, hd⟩ := present_consumer hp c.buf cs s
    rw [hu] at hx
    have ht := exec_consumer_dst hp hx
    obtain ⟨⟨h1, h2, h3, h4, h5, h6, h7, h8, h9, h10, h11, h12, h13, h14⟩, he⟩ :=
      exec_consumer hp (by exact hq) hx
    refine ⟨⟨h1, h2, h3, h4, h5, h6, h7, h8, h9, h10, h11, h12, h13, h14⟩, ?_, ?_⟩
    · cases he with
      | none a b => exact .none a b
      | get a1 a2 a3 a4 a5 => exact .get a1 a2 a3 a4 a5
      | flush a1 a2 a3 a4 => exact .flush a1 a2 a3 a4
      | start n a1 a2 a3 a4 a5 => exact .start n a1 a2 a3 a4 a5
      | micro T k a1 => exact absurd (a1.symm.trans hq) (by simp)
    · rcases hd with hd | ⟨bs, hd⟩
      · exact .none (ht.trans hd)
      · exact .presented bs hq (ht.trans hd)

/-- What a host-side step does when it sets no fault mark: nothing but to its own queue and `ERR`, or a
successful INIT. -/
inductive HostEffect (s t : Block w) : Prop where
  | none (io : PortIO w) (err : BitVec 3) (initc : err.getLsbD 2 = s.initc)
      (state : t = { s with host := io, err := err })
  | init (io : PortIO w) (cap : Word w) (idleP : s.pSeq = .idle) (idleC : s.cSeq = .idle)
      (good : s.badCapacity cap = false) (state : t = { attach cap s with host := io })
  | conflict (io : PortIO w) (busy : (s.busy .producer || s.busy .consumer) = true)
      (state : t = scramble { s with host := io, err := s.err ||| errInitc })

/-- A host command. -/
theorem exec_host {i : Instr} {s t : Block w} (hp : i.port = .host) (hx : exec i s.state = .next t.state) :
    HostEffect s t := by
  cases i <;> simp only [Instr.port, reduceCtorEq] at hp
  case init bp cap =>
    simp only [exec, execInit, goOn_state, Host.Outcome.next.injEq, state_inj] at hx
    subst hx
    split
    · exact .conflict _ ‹_› rfl
    · rename_i hb
      split
      · exact .none _ _ rfl rfl
      · split
        · exact .none _ _ rfl rfl
        · rename_i hg
          have hb : s.pSeq = .idle ∧ s.cSeq = .idle := by
            rw [Bool.not_eq_true, Bool.or_eq_false_iff, Block.busy_eq_false, Block.busy_eq_false] at hb
            exact hb
          exact .init _ _ hb.1 hb.2 (by simpa using hg) rfl

/-- A host-side step. -/
theorem host_step {s t : Block w} (h : portStep .host s = .next t) : HostEffect s t := by
  rcases portStep_cases h with ⟨T, k, hq, _⟩ | ⟨_, _, rfl⟩ | ⟨_, c, cs, _, ⟨_, _, rfl⟩ | ⟨i, _, hp, hx⟩⟩
  · cases hq
  · exact .none _ _ rfl rfl
  · refine .none _ (s.err ||| errIll) ?_ rfl
    simp [Block.initc, errIll]
  · have hu : present i c.buf (s.setPending .host cs) = s.setPending .host cs := by
      cases i <;> first | rfl | simp [Instr.port] at hp
    rw [hu] at hx
    cases exec_host hp hx with
    | none io err h1 h2 => exact .none io err h1 h2
    | init io cap h1 h2 h3 h4 => exact .init io cap h1 h2 h3 h4
    | conflict io h1 h2 => exact .conflict io h1 h2

end Sys2Proof.Machine
end

