-- ==== Sys2Proof/Laws/Queue.lean ====
section
/-! SUPPORT. The arithmetic of a legal state, what a sequencer still needs, and how the stored bytes change at
the two ends. -/

namespace Sys2Proof.Machine

variable {w : Nat}

/-- What a bulk command moves (R72, R78). -/
theorem transferCount_toNat (n a : Word w) : (transferCount n a).toNat = min n.toNat a.toNat := by
  unfold transferCount
  split <;> rename_i h <;> simp [BitVec.le_def] at h <;> omega

/-- A legal capacity is at most half the counters' range (R8). -/
theorem two_mul_capacity_le {m : Word w} {k : Fin w} (h : m.toNat + 1 = 2 ^ k.val) : 2 * (m.toNat + 1) ≤ 2 ^ w := by
  rw [h, ← Nat.pow_succ']
  exact Nat.pow_le_pow_right (by omega) k.isLt

theorem Block.Legal.two_mul_capacity_le {s : Block w} (h : s.Legal) : 2 * (s.mask.toNat + 1) ≤ 2 ^ w := by
  obtain ⟨k, _, hm⟩ := h.mask_legal
  exact Machine.two_mul_capacity_le hm

theorem Block.width_pos (s : Block w) : 0 < w := s.maxAddrW.pos

/-- `MASK + 1` does not wrap: the capacity (R18). -/
theorem Block.Legal.capacity_toNat {s : Block w} (h : s.Legal) : (s.mask + 1#w).toNat = s.mask.toNat + 1 := by
  have := h.two_mul_capacity_le
  exact toNat_add_one (n := s.mask.toNat + 1) (by omega) (by omega)

/-- Room and occupancy make the capacity (R26, R28). -/
theorem Block.Legal.occ_add_room {s : Block w} (h : s.Legal) :
    s.occ.toNat + s.room.toNat = s.mask.toNat + 1 := by
  have hc := h.capacity_toNat
  have ho := h.occ_le_cap
  have e : s.room = s.mask + 1#w - s.occ := rfl
  rw [e, toNat_sub_of_le (by omega)]
  omega

theorem Sequencer.fits_iff (q : Sequencer w) (a : Word w) :
    q.fits a = true ↔ ∀ T k, q = .moving T k → k.toNat < T.toNat ∧ T.toNat - k.toNat ≤ a.toNat := by
  cases q with
  | idle => simp [Sequencer.fits]
  | moving T k =>
    simp only [Sequencer.fits, Bool.and_eq_true, decide_eq_true_eq, moving.injEq, BitVec.lt_def, BitVec.le_def]
    constructor
    · rintro ⟨h1, h2⟩ _ _ ⟨rfl, rfl⟩
      rw [toNat_sub_of_le (by omega)] at h2
      exact ⟨h1, h2⟩
    · intro h
      obtain ⟨h1, h2⟩ := h T k ⟨rfl, rfl⟩
      rw [toNat_sub_of_le (by omega)]
      exact ⟨h1, h2⟩

/-- More of what a sequencer needs does it no harm (R31). -/
theorem Sequencer.fits_mono {q : Sequencer w} {a b : Word w} (h : q.fits a = true) (hab : a.toNat ≤ b.toNat) :
    q.fits b = true := by
  rw [Sequencer.fits_iff] at *
  intro T k hq
  have := h T k hq
  omega

/-- A micro-step uses up one of what its sequencer needs (R31). -/
theorem Sequencer.fits_after {T k a b : Word w} (h : (Sequencer.moving T k).fits a = true)
    (hab : a.toNat ≤ b.toNat + 1) : (Sequencer.after T k).fits b = true := by
  obtain ⟨h1, h2⟩ := (Sequencer.fits_iff _ _).1 h T k rfl
  have h3 := toNat_add_one h1 T.isLt
  rw [Sequencer.fits_iff]
  unfold Sequencer.after
  intro T' k' hq
  split at hq
  · cases hq
  · rename_i hne
    cases hq
    have : (k + 1#w).toNat ≠ T.toNat := fun e => hne (BitVec.eq_of_toNat_eq e)
    omega

/-- A busy sequencer finds at least one byte, or one free slot (R31). -/
theorem Sequencer.fits_pos {T k a : Word w} (h : (Sequencer.moving T k).fits a = true) : 0 < a.toNat := by
  have := (Sequencer.fits_iff _ _).1 h T k rfl
  omega

/-- A start step asks for no more than there is (R72, R78). -/
theorem Sequencer.fits_start {n a : Word w} (h : transferCount n a ≠ 0#w) :
    (Sequencer.moving (transferCount n a) 0#w).fits a = true := by
  rw [Sequencer.fits_iff]
  intro T k hq
  cases hq
  have h0 : (transferCount n a).toNat ≠ 0 := fun e => h (BitVec.eq_of_toNat_eq (by simpa using e))
  rw [transferCount_toNat] at *
  simp only [BitVec.toNat_ofNat, Nat.zero_mod]
  omega

/-- The position past the last stored byte is `WR_POS` (R25). -/
theorem Block.rdPos_add_occ (s : Block w) : s.rdPos + BitVec.ofNat w s.occ.toNat = s.wrPos := by
  have : BitVec.ofNat w s.occ.toNat = s.occ := by apply BitVec.eq_of_toNat_eq; simp
  rw [this, Block.occ_eq]
  ring

theorem Block.length_contents (s : Block w) : s.contents.length = s.occ.toNat := by simp [Block.contents]

/-- Advancing `RD_POS` takes the oldest byte off (R30, R66, R73). -/
theorem Block.contents_cons {s t : Block w} (h : 0 < s.occ.toNat) (hs : t.storage = s.storage)
    (he : t.storageEpoch = s.storageEpoch) (hm : t.mask = s.mask) (hw : t.wrPos = s.wrPos)
    (hr : t.rdPos = s.rdPos + 1#w) : s.contents = s.headByte :: t.contents := by
  have ho : t.occ.toNat + 1 = s.occ.toNat := by
    have : t.occ = s.occ - 1#w := by simp only [Block.occ_eq, hw, hr]; ring
    rw [this, toNat_sub_of_le (by rw [toNat_one s.width_pos]; omega), toNat_one s.width_pos]
    omega
  unfold Block.contents
  rw [← ho, List.range_succ_eq_map]
  simp [Block.headByte, Function.comp_def]
  intro a ha
  rw [memRead_congr hs he]
  have e : s.rdPos + 1#w + BitVec.ofNat w a = s.rdPos + BitVec.ofNat w (a + 1) := by
    rw [BitVec.ofNat_add]; ring
  simp [Block.slot, hm, hr, e]

/-- A byte written at `slot(WR_POS)`, and `WR_POS` advanced, is the newest byte (R30, R64, R79). -/
theorem Block.contents_append {s t : Block w} {k : Fin w} (hmm : s.mask.toNat + 1 = 2 ^ k.val)
    (hf : s.occ.toNat ≤ s.mask.toNat) {b : Byte}
    (hs : t.storage = Memory.write s.storage (s.slot s.wrPos) b) (he : t.storageEpoch = s.storageEpoch)
    (hm : t.mask = s.mask) (hw : t.wrPos = s.wrPos + 1#w) (hr : t.rdPos = s.rdPos) :
    t.contents = s.contents ++ [b] := by
  have hml := two_mul_capacity_le hmm
  have ho : t.occ.toNat = s.occ.toNat + 1 := by
    have : t.occ = s.occ + 1#w := by simp only [Block.occ_eq, hw, hr]; ring
    rw [this]
    exact toNat_add_one (n := s.occ.toNat + 1) (by omega) (by omega)
  have hread : ∀ a, t.memRead a = if a = s.slot s.wrPos then b else s.memRead a := by
    intro a
    simp only [Block.memRead, hs, he, Memory.read_write]
    split <;> simp
  have hsl : ∀ p, t.slot p = s.slot p := by intro p; simp [Block.slot, hm]
  unfold Block.contents
  rw [ho, List.range_succ, List.map_append]
  congr 1
  · apply List.map_congr_left
    intro i hi
    have hi := List.mem_range.1 hi
    rw [hread, hsl, hr, if_neg]
    have hi' : (BitVec.ofNat w i).toNat = i := by
      rw [BitVec.toNat_ofNat, Nat.mod_eq_of_lt (by omega)]
    apply Block.slot_ne _ _ _ hmm
    · have e : s.wrPos - (s.rdPos + BitVec.ofNat w i) = s.occ - BitVec.ofNat w i := by simp only [Block.occ_eq]; ring
      rw [e, toNat_sub_of_le (by omega)]; omega
    · have e : s.wrPos - (s.rdPos + BitVec.ofNat w i) = s.occ - BitVec.ofNat w i := by simp only [Block.occ_eq]; ring
      rw [e, toNat_sub_of_le (by omega)]; omega
  · simp only [List.map_cons, List.map_nil, hread, hsl, hr]
    rw [if_pos]
    rw [s.rdPos_add_occ]

/-- What goes on after a step that answers a next state. -/
theorem andThen_eq_next {α β : Type} {o : Host.Outcome α Fault Refusal} {f : α → Host.Outcome β Fault Refusal} {t : β}
    (h : andThen o f = .next t) : ∃ s, o = .next s ∧ f s = .next t := by
  cases o <;> simp [andThen] at h
  exact ⟨_, rfl, h⟩

theorem mapNext_eq_next {α β : Type} {f : α → β} {o : Host.Outcome α Fault Refusal} {t : β}
    (h : mapNext f o = .next t) : ∃ s, o = .next s ∧ t = f s := by
  obtain ⟨s, h1, h2⟩ := andThen_eq_next h
  exact ⟨s, h1, by simpa using h2.symm⟩

/-- A step of the machine is the next event of its block (R12, R40). -/
theorem step_eq_next {s t : Block w} :
    step s.state = .next t.state ↔ runEvent (nextEvent s) (popEvent s) = .next t := by
  constructor
  · intro h
    obtain ⟨u, h1, h2⟩ := mapNext_eq_next h
    rw [h1, state_inj.1 h2]
  · intro h
    simp [step, h]

/-- A step keeps the width of the build (R5). -/
theorem step_keeps_width {s t : State} (h : step s = .next t) : ∃ u : Block s.ptrW, t = u.state := by
  obtain ⟨u, _, h⟩ := mapNext_eq_next h
  exact ⟨u, h⟩

/-- Merging the two sides sets no fault mark (R42). -/
theorem initc_mergeSides {s sp sc : Block w} (h1 : sp.Clean) (h2 : sc.Clean) : (mergeSides s sp sc).Clean := by
  simp [Block.Clean, Block.initc, mergeSides] at *
  simp [h1, h2]

theorem edgePort_producer {v : Bool} {s t : Block w} (hc : s.Clean) (h : edgePort v .producer s = .next t) :
    ProducerFrame s t ∧ ProducerEffect s t := by
  unfold edgePort at h
  split at h
  · exact producer_step hc h
  · cases h
    exact ⟨.refl _, .none rfl rfl rfl⟩

theorem edgePort_consumer {v : Bool} {s t : Block w} (hc : s.Clean) (h : edgePort v .consumer s = .next t) :
    ConsumerFrame s t ∧ ConsumerEffect s t ∧ DstEffect s t := by
  unfold edgePort at h
  split at h
  · exact consumer_step hc h
  · cases h
    exact ⟨.refl _, .none rfl rfl, .none rfl⟩

theorem edgePort_host {v : Bool} {s t : Block w} (h : edgePort v .host s = .next t) : HostEffect s t := by
  unfold edgePort at h
  split at h
  · exact host_step h
  · cases h
    exact .none _ _ rfl rfl

/-- INIT's length check is R59's: a power of two that the build's storage can hold (R6, R7). -/
theorem Block.badCapacity_eq_false (s : Block w) (cap : Word w) :
    s.badCapacity cap = false ↔ ∃ k, k ≤ s.maxAddrW.val ∧ cap.toNat = 2 ^ k := by
  simp only [Block.badCapacity, Bool.or_eq_false_iff, decide_eq_false_iff_not, not_not]
  have hand : (cap &&& cap - 1#w) = 0#w ↔ cap.toNat &&& (cap - 1#w).toNat = 0 := by
    rw [← BitVec.toNat_inj]; simp
  by_cases h0 : cap.toNat = 0
  · have : cap = 0 := BitVec.eq_of_toNat_eq h0
    simp [this]; intro x hx; positivity
  have hne : cap ≠ 0#w := fun h => h0 (by rw [h]; rfl)
  have hs : (cap - 1#w).toNat = cap.toNat - 1 := by
    rw [toNat_sub_of_le (by rw [toNat_one s.width_pos]; omega), toNat_one s.width_pos]
  simp [hne, hand, hs]
  constructor
  · rintro ⟨h1, h2⟩
    obtain ⟨k, hk⟩ := (Nat.and_sub_one_eq_zero_iff_isPowerOfTwo h0).1 h1
    refine ⟨k, ?_, hk⟩
    rw [hk] at h2
    exact (Nat.pow_le_pow_iff_right (by omega)).1 h2
  · rintro ⟨k, h1, h2⟩
    exact ⟨(Nat.and_sub_one_eq_zero_iff_isPowerOfTwo h0).2 ⟨k, h2⟩,
      by rw [h2]; exact Nat.pow_le_pow_right (by omega) h1⟩

end Sys2Proof.Machine
end

