-- ==== Sys2Proof/Tests/Slice0.lean ====
section
/-! SUPPORT. Tests of the model against the spec's own vectors (95_test_vectors.md; the vector's number is in each
comment), ill-formed presentations, and for every statement with hypotheses states that meet them. -/

namespace Sys2Proof.Machine.Tests

open Sys2Proof Sys2Proof.Machine

/-- The block after reset, at the defaults of the build's parameters. -/
abbrev reset32 : Block 32 := State.reset.block

/-- A configured block with idle ports. -/
def block (rd wr mask : Word 32) (mem : Memory) : Block 32 :=
  { reset32 with rdPos := rd, wrPos := wr, mask := mask, cfg := true, storage := mem }

/-- A configured block of a build with `PTR_W` = 4. -/
def block4 (rd wr mask : Word 4) (mem : Memory) : Block 4 :=
  { Block.reset (3 : Fin 4) with rdPos := rd, wrPos := wr, mask := mask, cfg := true, storage := mem }

/-- The outcome is a next state of width `w` whose block is one of which `P` holds. -/
def goesToAt (w : Nat) (o : Host.Outcome State Fault Refusal) (P : Block w → Bool) : Bool :=
  match o with
  | .next t    => if h : t.ptrW = w then P (h ▸ t.block) else false
  | .fault _   => false
  | .refused _ => false

/-- The same at the default width. -/
def goesTo (o : Host.Outcome State Fault Refusal) (P : Block 32 → Bool) : Bool := goesToAt 32 o P

/-- The responses on a port, as the vectors write them: the status, the byte if there is one, the size. -/
def said {w : Nat} (p : Port) (t : Block w) : List (Status × Option Byte × Word w) :=
  (t.port p).responses.map fun r => (r.status, if r.dataValid then some r.data else none, r.size)

/-- The registers `RD`, `WR`, `MASK`, `CFG`, `ERR`. -/
def regs {w : Nat} (t : Block w) (rd wr mask : Word w) (cfg : Bool) (err : BitVec 3) : Bool :=
  t.rdPos = rd ∧ t.wrPos = wr ∧ t.mask = mask ∧ t.cfg = cfg ∧ t.err = err

/-- A command presented on a port, and its agent scheduled. -/
def withCommand {w : Nat} (p : Port) (c : CmdWord w) (buf : Option (List Byte)) (s : Block w) : Block w :=
  placeCommand p { word := c, buf := buf } s

/-! ### Ill-formed presentations (30_encoding.md R53, R54, R57; 20_memory.md R48) -/

theorem test_wf_width_refused : wfWidth 4 (.peek 16) = false ∧ wfWidth 32 (.init true 0x100000000) = false ∧
    wfWidth 4 (.peek 15) = true := by decide
theorem test_wf_port_refused : wfPort .producer .get = false := by decide
theorem test_wf_length_refused : wfBufferLength (.write 3) (some [0x01, 0x02]) = false := by decide
theorem test_wf_length_read_refused : wfBufferLength (.read 1) (some []) = false := by decide
theorem test_wf_buffer_refused : wfNoBuffer (.put 0x41) (some []) = false := by decide
theorem test_wf_word_refused : Command.wf .producer { word := (0x000000002412 : CmdWord 32), buf := none } = false := by decide
theorem test_wf_wrong_port_refused : Command.wf .host { word := (0x000000000412 : CmdWord 32), buf := none } = false := by decide
theorem test_wf_write_accepted :
    Command.wf .producer { word := (0x000000030003 : CmdWord 32), buf := some [0x01, 0x02, 0x03] } = true := by decide

/-! ### Words written out from the spec's encoding (R51, R53; the vectors' words) -/

/-- I1; I3 and I10 for `bp` and the ignored `data`. -/
theorem test_decode_init : (decodeAt .host (0x000000041001 : CmdWord 32)).toOption = some (.init true 4) ∧
    (decodeAt .host (0x000000000001 : CmdWord 32)).toOption = some (.init false 0) ∧
    (decodeAt .host (0x000000041FF1 : CmdWord 32)).toOption = some (.init true 4) := by decide
/-- PU1, PU6. -/
theorem test_decode_put : (decodeAt .producer (0x000000000412 : CmdWord 32)).toOption = some (.put 0x41) ∧
    (decodeAt .producer (0x000012341412 : CmdWord 32)).toOption = some (.put 0x41) := by decide
/-- W1. -/
theorem test_decode_write : (decodeAt .producer (0x0000000A0003 : CmdWord 32)).toOption = some (.write 10) := by decide
/-- WR1. -/
theorem test_decode_wrroom : (decodeAt .producer (0x000000000004 : CmdWord 32)).toOption = some .wrroom := by decide
/-- G1. -/
theorem test_decode_get : (decodeAt .consumer (0x000000000005 : CmdWord 32)).toOption = some .get := by decide
/-- K3, K5. -/
theorem test_decode_peek : (decodeAt .consumer (0x000000020006 : CmdWord 32)).toOption = some (.peek 2) ∧
    (decodeAt .consumer (0xFFFFFFFF0006 : CmdWord 32)).toOption = some (.peek 0xFFFFFFFF) := by decide
/-- F1. -/
theorem test_decode_flush : (decodeAt .consumer (0x000000000007 : CmdWord 32)).toOption = some .flush := by decide
/-- RD1. -/
theorem test_decode_read : (decodeAt .consumer (0x000000020008 : CmdWord 32)).toOption = some (.read 2) := by decide
/-- RA1, RA4. -/
theorem test_decode_rdavail : (decodeAt .consumer (0x000000000009 : CmdWord 32)).toOption = some .rdavail ∧
    (decodeAt .consumer (0x000000070009 : CmdWord 32)).toOption = some .rdavail := by decide
/-- R51 at `PTR_W` = 4: `CMD_W` is 20, `arg` is bits 19:16. -/
theorem test_decode_narrow : (decodeAt .host (0x81001 : CmdWord 4)).toOption = some (.init true 8) ∧
    (decodeAt .consumer (0xF0006 : CmdWord 4)).toOption = some (.peek 15) := by decide
/-- R54 (a): opcode 0x0 and 0xA to 0xF; P4 step 12. -/
theorem test_decode_reserved_opcode :
    [0x0, 0xA, 0xB, 0xC, 0xD, 0xE, 0xF].all (fun w : CmdWord 32 => (decode w).toOption = none) := by decide
/-- R54 (b): I11 and PU7. -/
theorem test_decode_reserved_bits : (decodeAt .host (0x000000049001 : CmdWord 32)).toOption = none ∧
    (decodeAt .producer (0x000000002412 : CmdWord 32)).toOption = none := by decide
/-- R54 (c): I12, PU8, G6. -/
theorem test_decode_wrong_port : (decodeAt .consumer (0x000000041001 : CmdWord 32)).toOption = none ∧
    (decodeAt .consumer (0x000000000412 : CmdWord 32)).toOption = none ∧
    (decodeAt .producer (0x000000000005 : CmdWord 32)).toOption = none := by decide
/-- R36: least significant byte first. -/
theorem test_bus_bytes : busBytes (0x0000000A0003 : CmdWord 32) = [0x03, 0x00, 0x0A, 0x00, 0x00, 0x00] ∧
    busBytes (0x80000001 : Word 32) = [0x01, 0x00, 0x00, 0x80] ∧
    ofBusBytes 32 [0x01, 0x00, 0x00, 0x80] = some 0x80000001 := by decide
/-- R57, R58: `P: write 3, [1,2,3]` (W4) and the two pseudo-instructions (RA5, WR5). -/
theorem test_assemble : assemble 32 (.write 3 [1, 2, 3]) = (.producer, { word := 0x000000030003, buf := some [1, 2, 3] }) ∧
    assemble 32 (.readNone 7) = (.consumer, { word := 0x000000000009, buf := none }) ∧
    assemble 32 (.writeNone 10) = (.producer, { word := 0x000000000004, buf := none }) := by decide

/-! ### The comparator (95_test_vectors.md 2.1) -/

/-- Rows at `PTR_W = 32`, across the wrap and at the largest capacity. -/
theorem test_comparator_32 :
    occupancy 0x00000002#32 0xFFFFFFFE#32 = 4 ∧ roomLeft 3#32 (4#32) = 0 ∧ fullFlag true 3#32 4#32 = true ∧
    occupancy 0x00000000#32 0x80000000#32 = 0x80000000 ∧ roomLeft 0x7FFFFFFF#32 0x80000000#32 = 0 ∧
    fullFlag true 0x7FFFFFFF#32 0x80000000#32 = true ∧ emptyFlag false 0#32 = false ∧ roomLeft 0#32 0#32 = 1 := by
  decide
/-- Rows at `PTR_W = 4`. -/
theorem test_comparator_4 :
    occupancy 0b1011#4 0b0011#4 = 8 ∧ fullFlag true 0b0111#4 8#4 = true ∧ occupancy 0b0110#4 0b1110#4 = 8 ∧
    occupancy 0b1110#4 0b1110#4 = 0 ∧ roomLeft 0b0111#4 0#4 = 8 ∧
    occupancy 0b0010#4 0b1111#4 = 3 ∧ roomLeft 0b0111#4 3#4 = 5 := by decide

/-! ### One step each -/

/-- I4: the largest capacity; every slot unwritten. -/
theorem test_init_largest : goesTo (exec (.init true 0x80000000) reset32.state)
    (fun t => regs t 0 0 0x7FFFFFFF true 0 ∧ t.storage = [] ∧ said .host t = [(.success, none, 0)]) = true := by decide

/-- I6: `MAX_ADDR_W = 8`, capacity 512. -/
theorem test_init_above_max : goesTo (exec (.init true 512) (Block.state { reset32 with maxAddrW := 8 }))
    (fun t => regs t 0 0 0 false 0 ∧ said .host t = [(.invalidLength, none, 0)]) = true := by decide

/-- PU3: the counter wraps. -/
theorem test_put_wraps : goesTo (exec (.put 0x77) (block 0xFFFFFFFD 0xFFFFFFFF 3 []).state)
    (fun t => t.wrPos = 0 ∧ t.occ = 3 ∧ t.storage = [(3, 0x77)] ∧ said .producer t = [(.success, none, 0)]) = true := by decide

/-- PU5: capacity 1, full. -/
theorem test_put_full : goesTo (exec (.put 0x02) (block 7 8 0 [(0, 0x01)]).state)
    (fun t => regs t 7 8 0 true 0 ∧ t.storage = [(0, 0x01)] ∧ said .producer t = [(.full, none, 0)]) = true := by decide

/-- G3: slot 3, and the counter wraps. -/
theorem test_get_wraps : goesTo (exec .get (block 0xFFFFFFFF 0x00000001 3 [(0, 0x22), (3, 0x11)]).state)
    (fun t => t.rdPos = 0 ∧ said .consumer t = [(.success, some 0x11, 0)]) = true := by decide

/-- G2. -/
theorem test_get_empty : goesTo (exec .get (block 5 5 3 []).state)
    (fun t => t.rdPos = 5 ∧ said .consumer t = [(.empty, none, 0)]) = true := by decide

/-- K7: the position wraps to 0. -/
theorem test_peek_wraps : goesTo (exec (.peek 2) (block 0xFFFFFFFE 0x00000001 3 [(0, 0xA2), (2, 0xA0), (3, 0xA1)]).state)
    (fun t => regs t 0xFFFFFFFE 1 3 true 0 ∧ said .consumer t = [(.success, some 0xA2, 0)]) = true := by decide

/-- K5. -/
theorem test_peek_not_found : goesTo (exec (.peek 0xFFFFFFFF) (block 2 5 3 [(0, 0x32), (2, 0x30), (3, 0x31)]).state)
    (fun t => said .consumer t = [(.notFound, none, 0)]) = true := by decide

/-- F3. -/
theorem test_flush_full : goesTo (exec .flush (block 0xFFFFFFFE 2 3 []).state)
    (fun t => t.rdPos = 2 ∧ t.wrPos = 2 ∧ t.emptyOut = true) = true := by decide

/-- F4: from reset. -/
theorem test_flush_unconfigured : goesTo (exec .flush reset32.state)
    (fun t => regs t 0 0 0 false 0b010 ∧ said .consumer t = [(.unconfigured, none, 0)]) = true := by decide

/-- RD8: `T = OCC`, no response yet. -/
theorem test_read_start : goesTo (exec (.read 0xFFFFFFFF) (block 0 3 7 [(0, 0x10), (1, 0x11), (2, 0x12)]).state)
    (fun t => t.cSeq = .moving 3 0 ∧ said .consumer t = []) = true := by decide

/-- RD6, micro 1: slot 0 to `DST[1]`, and the response. -/
theorem test_read_last_micro : goesTo (mapNext Block.state <| portStep .consumer
      { block 0 1 3 [(0, 0x62), (3, 0x61)] with cSeq := .moving 2 1, dst := [(0, 0x61)] })
    (fun t => t.rdPos = 1 ∧ t.cSeq = .idle ∧ t.dst = [(0, 0x61), (1, 0x62)] ∧
      said .consumer t = [(.success, none, 2)]) = true := by decide

/-- RA3. -/
theorem test_rdavail_full : goesTo (exec .rdavail (block 0xFFFFFFFE 2 3 []).state)
    (fun t => said .consumer t = [(.success, none, 4)]) = true := by decide

/-- RA2. -/
theorem test_rdavail_empty : goesTo (exec .rdavail (block 3 3 7 []).state)
    (fun t => said .consumer t = [(.empty, none, 0)]) = true := by decide

/-- W3: on a full storage even a WRITE of 0 is FULL. -/
theorem test_write_zero_full : goesTo (exec (.write 0) (block 0 8 7 []).state)
    (fun t => t.pSeq = .idle ∧ said .producer t = [(.full, none, 0)]) = true := by decide

/-- W6, micro 1 (the last): `SRC[1]` to slot 3. -/
theorem test_write_last_micro : goesTo (mapNext Block.state <| portStep .producer
      { block 1 3 3 [(0, 0x41), (1, 0x42), (2, 0x43)] with
        pSeq := .moving 2 1, src := [0x43, 0x44, 0x45, 0x46] })
    (fun t => t.wrPos = 4 ∧ t.pSeq = .idle ∧ t.occ = 3 ∧ Memory.read t.storage 3 = some 0x44 ∧
      said .producer t = [(.success, none, 2)]) = true := by decide

/-- WR4: the room of the largest capacity. -/
theorem test_wrroom_largest : goesTo (exec .wrroom (block 0 0 0x7FFFFFFF []).state)
    (fun t => said .producer t = [(.success, none, 0x80000000)]) = true := by decide

/-- WR3. -/
theorem test_wrroom_full : goesTo (exec .wrroom (block 0 8 7 []).state)
    (fun t => said .producer t = [(.full, none, 0)]) = true := by decide

/-! ### A build with `PTR_W` = 4 (00_scope.md R5 to R8; 41_single_byte.md R65) -/

/-- The largest capacity is 8. -/
theorem test_narrow_init : goesToAt 4 (step (Block.state <| withCommand .host 0x81001 none (Block.reset (3 : Fin 4))))
    (fun t => regs t 0 0 7 true 0 ∧ said .host t = [(.success, none, 0)]) = true := by decide

/-- R65 (b): at `WR_POS` = 15 a PUT writes slot `MASK` and the counter wraps. -/
theorem test_narrow_put_wraps : goesToAt 4 (exec (.put 0x77) (block4 13 15 3 []).state)
    (fun t => t.wrPos = 0 ∧ t.occ = 3 ∧ t.storage = [(3, 0x77)]) = true := by decide

/-! ### Steps, cycles, reset, observation -/

/-- G6: GET on the producer port. -/
theorem test_step_illegal : goesTo (step (Block.state <| withCommand .producer 0x000000000005 none (block 0 2 3 [])))
    (fun t => regs t 0 2 3 true 0b001 ∧ said .producer t = [(.illegal, none, 0)]) = true := by decide

/-- A WRITE of 3 with its buffer, accepted and started (W4's word; capacity 8, `WR = 5`). -/
theorem test_step_write : goesTo (step (Block.state <| withCommand .producer 0x000000030003 (some [1, 2, 3]) (block 0 5 7 [])))
    (fun t => t.pSeq = .moving 3 0 ∧ t.src = [1, 2, 3] ∧ said .producer t = []) = true := by decide

/-- I1's word runs as the next step. -/
theorem test_fetch_word : goesTo (step (State.reset.withFetchWord 48 0x000000041001))
    (fun t => regs t 0 0 3 true 0) = true := by decide

/-- A clock edge at which the given words are presented. -/
def edge (h p c : Option (CmdWord 32)) (s : Block 32) : Host.Outcome State Fault Refusal :=
  let one (o : Option (CmdWord 32)) : List (Command 32) := o.toList.map fun c => { word := c, buf := none }
  step <| Block.state { s with
    host := { PortIO.quiet with pending := one h }, producer := { PortIO.quiet with pending := one p },
    consumer := { PortIO.quiet with pending := one c },
    schedule := [.cycle h.isSome p.isSome c.isSome none] }

/-- S1: PUT and GET on an empty block. -/
theorem test_cycle_put_get_empty : goesTo (edge none (some 0x000000000412) (some 0x000000000005) (block 0 0 3 []))
    (fun t => t.rdPos = 0 ∧ t.wrPos = 1 ∧ said .producer t = [(.success, none, 0)] ∧ said .consumer t = [(.empty, none, 0)]) = true := by decide

/-- S2: PUT and GET on a full block. -/
theorem test_cycle_put_get_full : goesTo (edge none (some 0x000000000452) (some 0x000000000005)
      (block 0 4 3 [(0, 0x0A), (1, 0x0B), (2, 0x0C), (3, 0x0D)]))
    (fun t => t.rdPos = 1 ∧ t.wrPos = 4 ∧ said .producer t = [(.full, none, 0)] ∧
      said .consumer t = [(.success, some 0x0A, 0)]) = true := by decide

/-- S4: FLUSH and PUT: the byte is kept. -/
theorem test_cycle_flush_put : goesTo (edge none (some 0x000000000432) (some 0x000000000007) (block 0 2 3 []))
    (fun t => t.rdPos = 2 ∧ t.wrPos = 3 ∧ t.occ = 1) = true := by decide

/-- S5: INIT last. -/
theorem test_cycle_init_put : goesTo (edge (some 0x000000081001) (some 0x000000000412) none (block 0 1 3 []))
    (fun t => regs t 0 0 7 true 0 ∧ t.storage = []) = true := by decide

/-- S6: a READ start in INIT's cycle is an INIT_CONFLICT. -/
theorem test_cycle_init_read : goesTo (edge (some 0x000000081001) none (some 0x000000020008) (block 0 3 3 []))
    (fun t => t.err = 0b100) = true := by decide

/-- S7: a READ's last micro-step in INIT's cycle is not. -/
theorem test_cycle_init_last_micro : goesTo (edge (some 0x000000081001) none none
      { block 1 3 3 [(1, 0x11), (2, 0x12)] with cSeq := .moving 2 1 })
    (fun t => regs t 0 0 7 true 0 ∧ t.cSeq = .idle ∧ said .host t = [(.success, none, 0)] ∧
      said .consumer t = [(.success, none, 2)]) = true := by decide

/-- O5: reset during a READ: `DST` stays, no response. -/
theorem test_reset_abandons : goesTo (step <| Block.state { block 1 4 3 [] with
      cSeq := .moving 4 1, dst := [(0, 0x10)], schedule := [.reset] })
    (fun t => regs t 0 0 0 false 0 ∧ t.cSeq = .idle ∧ t.dst = [(0, 0x10)] ∧ said .consumer t = []) = true := by decide

/-- A register read with a clock edge shows the value before it (R32). -/
theorem test_observe_before_edge : goesTo (step <| Block.state { withCommand .consumer 0x000000000007 none (block 0 2 3 []) with
      schedule := [.cycle false false true (some 0)] })
    (fun t => t.rdPos = 2 ∧ t.obs = [0]) = true := by decide

/-- O4: the observation registers. -/
theorem test_observe : [0, 1, 2, 3, 4, 5, 6, 7].map
      (Block.view { block 1 4 3 [] with cSeq := .moving 4 1, err := 0b011 }) =
    [1, 4, 3, 3, 0b10001, 3, 0, 0] := by decide

/-! ### States that meet the statements' hypotheses -/

/-- Capacity 4, empty, both counters at their last value. -/
def wrapEmpty : Block 32 := block 0xFFFFFFFF 0xFFFFFFFF 3 []
/-- Capacity 4, two bytes across the counters' wrap. -/
def wrapTwo : Block 32 := block 0xFFFFFFFF 1 3 [(0, 0x22), (3, 0x11)]
/-- Capacity 4, full, across the counters' wrap. -/
def wrapFull : Block 32 := block 0xFFFFFFFE 2 3 [(0, 0x03), (1, 0x04), (2, 0x01), (3, 0x02)]
/-- Capacity 1, full. -/
def oneFull : Block 32 := block 7 8 0 [(0, 0x01)]
/-- O4's block: a READ of 4 with one byte moved. -/
def reading : Block 32 :=
  { block 1 4 3 [(0, 0x10), (1, 0x11), (2, 0x12), (3, 0x13)] with cSeq := .moving 4 1, dst := [(0, 0x10)] }
/-- A READ before its last micro-step. -/
def readingLast : Block 32 := { block 1 3 3 [(0, 0x10), (1, 0x11), (2, 0x12)] with cSeq := .moving 2 1 }
/-- A WRITE of 3 into capacity 4 with nothing moved, its last source byte not presented. -/
def writing : Block 32 := { block 0 1 3 [(0, 0x41)] with pSeq := .moving 3 0, src := [0xB0, 0xB1] }
/-- A WRITE before its last micro-step. -/
def writingLast : Block 32 :=
  { block 0 3 3 [(0, 0x41), (1, 0xB0), (2, 0xB1)] with pSeq := .moving 3 2, src := [0xB0, 0xB1, 0xB2] }
/-- The fault mark is set. -/
def marked : Block 32 := { reset32 with err := 0b100 }

theorem inv_wrapEmpty : wrapEmpty.Inv :=
  ⟨by decide, by decide, fun _ => ⟨⟨2, by decide, by decide⟩, by decide, by decide, by decide, by decide, by decide, by decide⟩⟩
theorem inv_wrapTwo : wrapTwo.Inv :=
  ⟨by decide, by decide, fun _ => ⟨⟨2, by decide, by decide⟩, by decide, by decide, by decide, by decide, by decide, by decide⟩⟩
theorem inv_wrapFull : wrapFull.Inv :=
  ⟨by decide, by decide, fun _ => ⟨⟨2, by decide, by decide⟩, by decide, by decide, by decide, by decide, by decide, by decide⟩⟩
theorem inv_oneFull : oneFull.Inv :=
  ⟨by decide, by decide, fun _ => ⟨⟨0, by decide, by decide⟩, by decide, by decide, by decide, by decide, by decide, by decide⟩⟩
theorem inv_reading : reading.Inv :=
  ⟨by decide, by decide, fun _ => ⟨⟨2, by decide, by decide⟩, by decide, by decide, by decide, by decide, by decide, by decide⟩⟩
theorem inv_writing : writing.Inv :=
  ⟨by decide, by decide, fun _ => ⟨⟨2, by decide, by decide⟩, by decide, by decide, by decide, by decide, by decide, by decide⟩⟩

/-- EncodedCommandDecodesToItself, its two branches, and operands at the ends of a width. -/
theorem witness_encode_ports : wfWidth 32 (.put 0xFF) = true ∧ wfWidth 4 (.write 15) = true ∧ (Instr.put 0xFF).port = .producer ∧ (Instr.put 0xFF).port ≠ .consumer := by decide
/-- DecodedWordIsEncodingUpToIgnoredFields: a PUT with every ignored bit 1. -/
theorem witness_decode : (decode (0xFFFFFFFF1FF2 : CmdWord 32)).toOption = some (.put 0xFF) ∧
    encode 32 (.put 0xFF) = 0xFFFFFFFF1FF2 &&& usedMask 32 (.put 0xFF) := by decide
/-- OperandFieldsAreUsedUnchanged: a word and another that agrees with it on the used fields; each operand at its
largest value; `bp` both ways. -/
theorem witness_operands :
    (0xFFFFFFFF1FF2 : CmdWord 32) &&& usedMask 32 (.put 0xFF) = 0x000000000FF2 &&& usedMask 32 (.put 0xFF) ∧
    (decode (0x000000000FF2 : CmdWord 32)).toOption = some (.put 0xFF) ∧
    (decode (0xFFFFFFFF1001 : CmdWord 32)).toOption = some (.init true 0xFFFFFFFF) ∧
    (decode (0xFFFFFFFF0001 : CmdWord 32)).toOption = some (.init false 0xFFFFFFFF) ∧
    (decode (0xFFFFFFFF0003 : CmdWord 32)).toOption = some (.write 0xFFFFFFFF) ∧
    (decode (0xFFFFFFFF0006 : CmdWord 32)).toOption = some (.peek 0xFFFFFFFF) ∧
    (decode (0xFFFFFFFF0008 : CmdWord 32)).toOption = some (.read 0xFFFFFFFF) := by decide
/-- IllegalWordSetsErrIllAndNothingElse: opcodes 0, 10 and 15, each reserved bit, and assigned opcodes at the ends
of the ports' ranges on other ports; then a port with such a word. -/
theorem witness_illegal : (decodeAt .host (0x0 : CmdWord 32)).toOption = none ∧ (decodeAt .host (0xA : CmdWord 32)).toOption = none ∧
    (decodeAt .producer (0xF : CmdWord 32)).toOption = none ∧ (decodeAt .producer (0x2002 : CmdWord 32)).toOption = none ∧
    (decodeAt .producer (0x8002 : CmdWord 32)).toOption = none ∧ (decodeAt .producer (0x1 : CmdWord 32)).toOption = none ∧
    (decodeAt .consumer (0x2 : CmdWord 32)).toOption = none ∧ (decodeAt .host (0x4 : CmdWord 32)).toOption = none ∧
    (decodeAt .producer (0x5 : CmdWord 32)).toOption = none ∧ (decodeAt .host (0x9 : CmdWord 32)).toOption = none := by decide
theorem witness_illegal_state : ∃ (s : Block 32) (cs : List (Command 32)), s.Clean ∧
    (decodeAt .producer (0x5 : CmdWord 32)).toOption = none ∧ s.seq .producer = .idle ∧
    (s.port .producer).pending = { word := 0x5, buf := none } :: cs :=
  ⟨withCommand .producer 0x5 none reset32, [], by decide, by decide, by decide, by decide⟩
/-- StepRunsTheDecodedCommand. -/
theorem witness_step_runs : (withCommand .producer 0x000000030003 (some [1, 2, 3]) wrapEmpty).Clean ∧
    (withCommand .producer 0x000000030003 (some [1, 2, 3]) wrapEmpty).schedule = [.agent .producer] ∧
    (withCommand .producer 0x000000030003 (some [1, 2, 3]) wrapEmpty).seq .producer = .idle ∧
    ((withCommand .producer 0x000000030003 (some [1, 2, 3]) wrapEmpty).port .producer).pending =
      [{ word := 0x000000030003, buf := some [1, 2, 3] }] ∧
    (decodeAt .producer (0x000000030003 : CmdWord 32)).toOption = some (.write 3) := by decide
/-- BusyPortTakesNoCommand: both sequencers. -/
theorem witness_busy_port : reading.seq .consumer = .moving 4 1 ∧ writing.seq .producer = .moving 3 0 ∧
    wrapEmpty.seq .producer = .idle := by decide
/-- PortOutputsAreTheNextMicroSteps: each sequencer busy, each idle. -/
theorem witness_outputs : reading.Clean ∧ reading.cSeq = .moving 4 1 ∧ reading.dstOut = some (1, 0x11) ∧
    writing.Clean ∧ writing.pSeq = .moving 3 0 ∧ writing.srcIdx = some 0 ∧ writing.src[0]? = some 0xB0 ∧
    reading.pSeq = .idle ∧ writing.cSeq = .idle := by decide
/-- PresentedBufferIsTheCommands: a command with no buffer of its own. -/
theorem witness_present : ∀ x, Instr.flush ≠ .write x ∧ Instr.flush ≠ .read x := by intros; simp
/-- StepRunsTheFetchWord: a word of 16 bits, one of 48, and one at another width. -/
theorem witness_fetch : State.reset.block.Clean ∧ decodeTableWordAt State.reset.ptrW 16 0x0FF2 = some (.put 0xFF) ∧
    decodeTableWordAt 32 48 0xFFFFFFFF0008 = some (.read 0xFFFFFFFF) ∧
    decodeTableWordAt 4 20 0xF0008 = some (.read 15) := by decide
/-- IdleBlockStaysAsItIs: reset is such a state. -/
theorem witness_idle : reset32.Clean ∧ reset32.schedule = [] ∧ reset32.pSeq = .idle ∧
    reset32.cSeq = .idle := by decide
/-- DataCommandNeedsConfiguration, and the first clause of every data command's statement: reset. -/
theorem witness_unconfigured : reset32.Clean ∧ reset32.cfg = false ∧
    ∀ bp cap, Instr.rdavail ≠ .init bp cap := ⟨by decide, by decide, by intros; simp⟩

/-- CommandForm: for each opcode a word with every bit that is neither opcode nor reserved set. -/
theorem witness_command_form :
    [0x1, 0x2, 0x3, 0x4, 0x5, 0x6, 0x7, 0x8, 0x9].all (fun op => decide
      ((0xFFFFFFFF1FF0 + op) % 16 = op ∧ (0xFFFFFFFF1FF0 + op) / 2 ^ 13 % 8 = 0)) = true := by decide
/-- InitSetsCapacityOrChangesNothing and InitConflictSetsTheFaultMark: each sequencer busy. -/
theorem witness_init_conflict : reading.Clean ∧ reading.cSeq ≠ .idle ∧ writing.Clean ∧ writing.pSeq ≠ .idle := by
  decide
/-- InitSetsCapacityOrChangesNothing: the smallest and the largest legal capacity on idle ports. -/
theorem witness_init_legal : reset32.Clean ∧ reset32.pSeq = .idle ∧ reset32.cSeq = .idle ∧
    LegalCapacity reset32 1 ∧ LegalCapacity reset32 0x80000000 :=
  ⟨by decide, by decide, by decide, ⟨0, by decide, by decide⟩, ⟨31, by decide, by decide⟩⟩
/-- InitSetsCapacityOrChangesNothing: 0, 3, the largest value, and the first power above the build's limit. -/
theorem witness_init_illegal : ¬ LegalCapacity reset32 0 ∧ ¬ LegalCapacity reset32 3 ∧
    ¬ LegalCapacity reset32 0xFFFFFFFF ∧ ¬ LegalCapacity { reset32 with maxAddrW := 8 } 512 := by
  simp only [LegalCapacity, ← Block.badCapacity_eq_false]
  decide
/-- InitConflictSetsTheFaultMark: a step of a marked state that is no reset. -/
theorem witness_marked : ∃ t, marked.initc = true ∧ nextEvent marked ≠ .reset ∧ step marked.state = .next t :=
  ⟨_, by decide, by decide, rfl⟩
/-- PutAppendsOneByte: FULL at the boundary, and room for the last byte. -/
theorem witness_put : wrapFull.Clean ∧ wrapFull.cfg = true ∧ wrapFull.mask < wrapFull.occ ∧
    (block 0 3 3 []).Clean ∧ (block 0 3 3 []).cfg = true ∧ (block 0 3 3 []).occ ≤ (block 0 3 3 []).mask ∧
    wrapEmpty.occ ≤ wrapEmpty.mask ∧ oneFull.mask < oneFull.occ := by decide
/-- PutAppendsOneByte, GetRemovesTheOldestByte: their clause about a legal state. -/
theorem witness_put_get_legal : wrapTwo.Legal ∧ wrapTwo.cfg = true ∧ wrapTwo.occ ≤ wrapTwo.mask ∧ wrapTwo.occ ≠ 0#32 :=
  ⟨inv_wrapTwo.legal (by decide), by decide, by decide, by decide⟩
/-- GetRemovesTheOldestByte, RdavailReportsStoredBytes: empty, and one byte. -/
theorem witness_get : wrapEmpty.Clean ∧ wrapEmpty.cfg = true ∧ wrapEmpty.occ = 0#32 ∧
    oneFull.Clean ∧ oneFull.cfg = true ∧ oneFull.occ = 1#32 := by decide
/-- PeekReadsWithoutRemoving: the last index that is found and the first that is not. -/
theorem witness_peek : wrapTwo.Clean ∧ wrapTwo.cfg = true ∧ (1 : Word 32) < wrapTwo.occ ∧ wrapTwo.occ ≤ (2 : Word 32) := by
  decide
/-- FlushDiscardsEveryByte. -/
theorem witness_flush : wrapFull.Clean ∧ wrapFull.cfg = true := by decide
/-- ReadStartFixesTheTransfer: empty; a READ of 0; a READ of 1 and of more than there is. -/
theorem witness_read : wrapEmpty.Clean ∧ wrapEmpty.cfg = true ∧ wrapEmpty.occ = 0#32 ∧
    wrapTwo.Clean ∧ wrapTwo.cfg = true ∧ wrapTwo.occ ≠ 0#32 ∧ (1 : Word 32) ≠ 0#32 ∧ wrapTwo.occ < (0xFFFFFFFF : Word 32) := by
  decide
/-- ReadMicroStepMovesOneByte: a micro-step that is not the last, and one that is. -/
theorem witness_read_micro : reading.Clean ∧ reading.cSeq = .moving 4 1 ∧ (1 : Word 32) + 1#32 ≠ 4 ∧
    readingLast.Clean ∧ readingLast.cSeq = .moving 2 1 ∧ (1 : Word 32) + 1#32 = 2 := by decide
/-- WriteStartFixesTheTransfer, WrroomReportsFreeSlots: full; one free slot; an empty block. -/
theorem witness_write : wrapFull.Clean ∧ wrapFull.cfg = true ∧ wrapFull.room = 0#32 ∧
    (block 0 3 3 []).Clean ∧ (block 0 3 3 []).cfg = true ∧ (block 0 3 3 []).room = 1#32 ∧ wrapEmpty.room = 4#32 := by
  decide
/-- WriteMicroStepMovesOneByte: a micro-step that is not the last, one that is, and a presented source byte. -/
theorem witness_write_micro : writing.Clean ∧ writing.pSeq = .moving 3 0 ∧ (0 : Word 32) + 1#32 ≠ 3 ∧
    writingLast.Clean ∧ writingLast.pSeq = .moving 3 2 ∧ (2 : Word 32) + 1#32 = 3 ∧ writingLast.src[2]? = some 0xB2 := by
  decide
/-- ResponseCarriesByteOrCount: a command, and a micro-step, that respond. -/
theorem witness_response_command : ∃ (s t : Block 32) (r : Response 32), s.Clean ∧ t.Clean ∧ exec .rdavail s.state = .next t.state ∧
    (t.port .consumer).responses = (s.port .consumer).responses ++ [r] ∧ r.size ≠ 0#32 :=
  ⟨wrapTwo, _, _, by decide, by decide, rfl, rfl, by decide⟩
theorem witness_response_micro : ∃ (s t : Block 32) (r : Response 32), s.Clean ∧ s.seq .consumer = .moving 2 1 ∧
    portStep .consumer s = .next t ∧ (t.port .consumer).responses = (s.port .consumer).responses ++ [r] :=
  ⟨readingLast, _, _, by decide, by decide, rfl, rfl⟩
/-- EachCommandHasOneResponse, StickyBitsStayUntilReset, CfgIsSetByInitAndClearedByReset: a step of a configured
block. -/
theorem witness_clean_step : ∃ s t : Block 32, s.Clean ∧ t.Clean ∧ nextEvent s ≠ .reset ∧ step s.state = .next t.state ∧
    s.cfg = true ∧ (t.port .producer).responses ≠ [] :=
  ⟨withCommand .producer 0x000000000FF2 none wrapTwo, _, by decide, by decide, by decide, rfl, by decide, by decide⟩
/-- ObservationReadsWithoutSideEffect: a request alone, and one with a clock edge. -/
theorem witness_observe : ∃ s t : Block 32, s.Clean ∧ s.schedule = [.cycle true true true (some 7)] ∧ step s.state = .next t.state ∧
    ({ s with schedule := [.observe 4] } : Block 32).schedule = [.observe 4] :=
  ⟨{ wrapTwo with schedule := [.cycle true true true (some 7)] }, _, by decide, by decide, rfl, by decide⟩
/-- ObservationReadsWithoutSideEffect: at the default width every bit of `FLAGS` and `ERR` is there. -/
theorem witness_observe_width : 4 < 32 ∧ 3 ≤ 32 := by decide
/-- NarrowRegistersGiveTheLowBits: the reset blocks of two widths. -/
theorem witness_narrow : 2 ≤ 32 ∧ (Block.reset (1 : Fin 2)).cfg = reset32.cfg ∧
    (Block.reset (1 : Fin 2)).emptyOut = reset32.emptyOut ∧ (Block.reset (1 : Fin 2)).fullOut = reset32.fullOut ∧
    ∀ p, (Block.reset (1 : Fin 2)).busy p = reset32.busy p :=
  ⟨by decide, by decide, by decide, by decide, by intro p; cases p <;> decide⟩
/-- ResetReplacesTheBlockState, AfterResetOnlyInitSucceeds. -/
theorem witness_reset : ({ reading with schedule := [.reset] } : Block 32).schedule = [.reset] ∧
    ∀ bp cap, Instr.flush ≠ .init bp cap := ⟨by decide, by intros; simp⟩
/-- LargestCapacityFullIsMsbCompare: at the boundary and just below it. -/
theorem witness_largest : (occupancy 0b1011#4 0b0011#4).toNat ≤ 2 ^ 3 ∧ (occupancy 0b1010#4 0b0011#4).toNat ≤ 2 ^ 3 ∧
    0b1011#4 ≠ 0b0011#4 := by decide
/-- NextPositionIsNextSlot: the smallest and the largest mask. -/
theorem witness_mask : (∃ k : Fin 32, oneFull.mask.toNat + 1 = 2 ^ k.val) ∧
    ∃ k : Fin 32, (block 0 0 0x7FFFFFFF []).mask.toNat + 1 = 2 ^ k.val := ⟨⟨0, by decide⟩, ⟨31, by decide⟩⟩
/-- ProducerAndConsumerSlotsDiffer: the oldest and the newest byte. -/
theorem witness_slots : wrapTwo.Legal ∧ wrapTwo.occ ≤ wrapTwo.mask ∧ 0 < wrapTwo.occ.toNat ∧ 1 < wrapTwo.occ.toNat :=
  ⟨inv_wrapTwo.legal (by decide), by decide, by decide, by decide⟩
/-- EveryStepKeepsTheInvariant: invariant machines of two widths. -/
theorem witness_state_inv : reading.state.Inv ∧ ∃ t, step reading.state = .next t :=
  ⟨⟨by decide, inv_reading⟩, _, rfl⟩
theorem witness_narrow_inv : (block4 13 15 3 [(1, 0x51), (2, 0x52)]).state.Inv :=
  ⟨by decide, by decide, by decide, fun _ => ⟨⟨2, by decide, by decide⟩, by decide, by decide, by decide, by decide, by decide, by decide⟩⟩
/-- OccupancyIsWithinCapacity, NeitherSideTakesFromTheOther, EveryStepKeepsTheInvariant, CycleIsAnInterleaving: an
invariant state of each kind, and its step. -/
theorem witness_inv : wrapFull.Inv ∧ wrapFull.Clean ∧ oneFull.Inv ∧ reading.Inv ∧ writing.Inv ∧
    ∃ t, step reading.state = .next t := ⟨inv_wrapFull, by decide, inv_oneFull, inv_reading, inv_writing, _, rfl⟩
/-- CfgIsSetByInitAndClearedByReset: an INIT that changes `CFG` and `MASK`. -/
theorem witness_init_changes : ∃ s t : Block 32, s.Clean ∧ t.Clean ∧ exec (.init true 4) s.state = .next t.state ∧
    t.cfg ≠ s.cfg ∧ t.mask ≠ s.mask := ⟨reset32, _, by decide, by decide, rfl, by decide, by decide⟩
/-- EachCounterHasOneWriter, NeitherSideTakesFromTheOther: a step of each port. -/
theorem witness_port_steps : ∃ s t u v : Block 32, s.Clean ∧ portStep .producer s = .next t ∧
    portStep .consumer s = .next u ∧ portStep .host s = .next v ∧ v.Clean ∧ s.Inv :=
  ⟨wrapTwo, _, _, _, by decide, rfl, rfl, rfl, by decide, inv_wrapTwo⟩
/-- BlockIsAFirstInFirstOutQueue: a block with two bytes and room; a PEEK's index; both sequencers. -/
theorem witness_queue : wrapTwo.Inv ∧ wrapTwo.Clean ∧ wrapTwo.cfg = true ∧
    wrapTwo.contents.length ≤ wrapTwo.mask.toNat ∧ wrapTwo.contents = [0x11, 0x22] ∧
    wrapTwo.contents[(1 : Word 32).toNat]? = some 0x22 ∧ reading.cfg = true ∧ reading.cSeq = .moving 4 1 ∧
    writing.cfg = true ∧ writing.pSeq = .moving 3 0 :=
  ⟨inv_wrapTwo, by decide, by decide, by decide, by decide, by decide, by decide, by decide, by decide, by decide⟩
/-- ReadCompletesAfterItsMicroSteps: three micro-steps to go, so that `m` is 0, 1 or 2. -/
theorem witness_read_completes : reading.Inv ∧ reading.Clean ∧ reading.cSeq = .moving 4 1 ∧
    2 < ((4 : Word 32) - 1).toNat := ⟨inv_reading, by decide, by decide, by decide⟩
/-- WriteCompletesAfterItsMicroSteps. -/
theorem witness_write_completes : writing.Inv ∧ writing.Clean ∧ writing.pSeq = .moving 3 0 ∧
    2 < ((3 : Word 32) - 0).toNat := ⟨inv_writing, by decide, by decide, by decide⟩
/-- A clock edge next, at which the words given are presented on the two data ports. -/
def atEdge (p c : CmdWord 32) (s : Block 32) : Block 32 :=
  { (s.setPending .producer [{ word := p, buf := none }]).setPending .consumer [{ word := c, buf := none }] with
    schedule := [.cycle false true true none] }
/-- ClockEdgeCommitsBothSidesThenInit: S3. -/
theorem witness_edge : (atEdge 0x000000000432 0x000000000005 wrapTwo).Clean ∧
    (atEdge 0x000000000432 0x000000000005 wrapTwo).schedule = [.cycle false true true none] := by decide
/-- ClockEdgeCommitsBothSidesThenInit, INIT's clauses: S5's INIT with a PUT, and S6's with a READ's start step. -/
def initAtEdge (p c : CmdWord 32) (s : Block 32) : Block 32 :=
  { ((atEdge p c s).setPending .host [{ word := 0x000000081001, buf := none }]) with
    schedule := [.cycle true true true none] }
theorem witness_edge_init : Presents .host (.init true (8 : Word 32).toNat)
      (initAtEdge 0x000000000412 0x000000000005 wrapTwo) ∧
    LegalCapacity (initAtEdge 0x000000000412 0x000000000005 wrapTwo) 8 ∧
    ∃ sp sc, portStep .producer (initAtEdge 0x000000000412 0x000000000005 wrapTwo) = .next sp ∧
      portStep .consumer (initAtEdge 0x000000000412 0x000000000005 wrapTwo) = .next sc ∧
      sp.pSeq = .idle ∧ sc.cSeq = .idle :=
  ⟨⟨by decide, _, _, rfl, rfl⟩, ⟨3, by decide, by decide⟩, _, _, rfl, rfl, by decide, by decide⟩
theorem witness_edge_init_conflict : Presents .host (.init true (8 : Word 32).toNat)
      (initAtEdge 0x000000000412 0x000000020008 wrapTwo) ∧
    ∃ sc, portStep .consumer (initAtEdge 0x000000000412 0x000000020008 wrapTwo) = .next sc ∧ sc.cSeq ≠ .idle :=
  ⟨⟨by decide, _, _, rfl, rfl⟩, _, rfl, by decide⟩
/-- SameEdgeCommandsSeeTheStateBefore: S2's PUT on a full block, S1's GET and a PEEK of 0 on an empty one. -/
theorem witness_same_edge_put : (atEdge 0x000000000452 0x000000000005 wrapFull).Clean ∧
    (atEdge 0x000000000452 0x000000000005 wrapFull).cfg = true ∧
    Presents .producer (.put 0x45) (atEdge 0x000000000452 0x000000000005 wrapFull) ∧
    (atEdge 0x000000000452 0x000000000005 wrapFull).mask < (atEdge 0x000000000452 0x000000000005 wrapFull).occ :=
  ⟨by decide, by decide, ⟨by decide, _, _, rfl, rfl⟩, by decide⟩
theorem witness_same_edge_get : Presents .consumer .get (atEdge 0x000000000412 0x000000000005 wrapEmpty) ∧
    (atEdge 0x000000000412 0x000000000005 wrapEmpty).occ = 0#32 := ⟨⟨by decide, _, _, rfl, rfl⟩, by decide⟩
theorem witness_same_edge_peek : Presents .consumer (.peek (0 : Word 32).toNat)
      (atEdge 0x000000000412 0x000000000006 wrapEmpty) ∧
    (atEdge 0x000000000412 0x000000000006 wrapEmpty).occ ≤ (0 : Word 32) := ⟨⟨by decide, _, _, rfl, rfl⟩, by decide⟩
/-- FlushAndPutRaceHasTwoOutcomes: S4's kind of block, and one with a WRITE in progress; each alone and at an edge. -/
theorem witness_race : wrapTwo.Inv ∧ wrapTwo.Clean ∧ wrapTwo.cfg = true ∧ wrapTwo.occ ≤ wrapTwo.mask ∧
    writing.Inv ∧ writing.Clean ∧ writing.cfg = true ∧ writing.pSeq = .moving 3 0 :=
  ⟨inv_wrapTwo, by decide, by decide, by decide, inv_writing, by decide, by decide, by decide⟩
theorem witness_race_edge : (atEdge 0x000000000432 0x000000000007 wrapTwo).Inv ∧
    (atEdge 0x000000000432 0x000000000007 wrapTwo).cfg = true ∧
    Presents .consumer .flush (atEdge 0x000000000432 0x000000000007 wrapTwo) ∧
    Presents .producer (.put 0x43) (atEdge 0x000000000432 0x000000000007 wrapTwo) ∧
    Presents .consumer .flush (atEdge 0x000000000432 0x000000000007 writing) ∧
    (atEdge 0x000000000432 0x000000000007 writing).pSeq = .moving 3 0 :=
  ⟨⟨by decide, by decide, fun _ => ⟨⟨2, by decide, by decide⟩, by decide, by decide, by decide, by decide, by decide, by decide⟩⟩,
    by decide, ⟨by decide, _, _, rfl, rfl⟩, ⟨by decide, _, _, rfl, rfl⟩, ⟨by decide, _, _, rfl, rfl⟩, by decide⟩
/-- PutThenGetAtEveryPosition: at the wrap. -/
theorem witness_put_get : wrapEmpty.Inv ∧ wrapEmpty.Clean ∧ wrapEmpty.cfg = true ∧ wrapEmpty.rdPos = wrapEmpty.wrPos :=
  ⟨inv_wrapEmpty, by decide, by decide, by decide⟩

end Sys2Proof.Machine.Tests
end

namespace Sys2Proof.Machine

variable {w : Nat}

/-! ### What the observation port reads (10_state.md R32) -/

/-- The bits of `FLAGS`, from bit 0 on, in a register that may be narrower than they are. -/
theorem Block.flags_getLsbD (s : Block w) (j : Nat) :
    s.flags.getLsbD j = (decide (j < w) &&
      [s.cfg, s.emptyOut, s.fullOut, s.busy .producer, s.busy .consumer].getD j false) := by
  rw [Block.flags, BitVec.getLsbD_setWidth]
  congr 1
  simp only [BitVec.getLsbD_append, BitVec.getLsbD_ofBool]
  rcases j with _ | _ | _ | _ | _ | j <;> simp

theorem Block.emptyOut_eq (s : Block w) : s.emptyOut = (s.cfg && decide (s.wrPos = s.rdPos)) := by
  simp only [Block.emptyOut, emptyFlag, Block.occ_eq, show (0#w : BitVec w) = 0 from rfl, sub_eq_zero]

/-- `FLAGS` bit by bit, where the register has the bit. -/
theorem Block.view_flags_bits (s : Block w) :
    (s.view 4).getLsbD 0 = s.cfg ∧ (1 < w → (s.view 4).getLsbD 1 = (s.cfg && decide (s.wrPos = s.rdPos))) ∧
      (2 < w → (s.view 4).getLsbD 2 = (s.cfg && decide (s.mask < s.wrPos - s.rdPos))) ∧
      (3 < w → (s.view 4).getLsbD 3 = decide (s.pSeq ≠ .idle)) ∧
      (4 < w → (s.view 4).getLsbD 4 = decide (s.cSeq ≠ .idle)) ∧
      ∀ j, 5 ≤ j → (s.view 4).getLsbD j = false := by
  have bit (j : Nat) (h : j < w) : (s.view 4).getLsbD j =
      [s.cfg, s.emptyOut, s.fullOut, s.busy .producer, s.busy .consumer].getD j false :=
    (s.flags_getLsbD j).trans (by rw [decide_eq_true h, Bool.true_and])
  refine ⟨bit 0 s.width_pos, fun h => (bit 1 h).trans s.emptyOut_eq, bit 2, bit 3, bit 4, fun j hj => ?_⟩
  exact (s.flags_getLsbD j).trans (by simp [hj])

/-- The `ERR` register of a build wide enough for its three bits. -/
theorem Block.view_err_toNat (s : Block w) (h : 3 ≤ w) : (s.view 5).toNat = s.err.toNat := by
  have hlt : s.err.toNat < 2 ^ w := lt_of_lt_of_le s.err.isLt (Nat.pow_le_pow_right (by omega) h)
  have hview : s.view 5 = s.err.setWidth w := rfl
  rw [hview, BitVec.toNat_setWidth, Nat.mod_eq_of_lt hlt]

/-! ### Which steps read the observation port -/

/-- A step runs the first event of the schedule on the block with the others left (R40). -/
theorem step_of_schedule {s t : Block w} {e : Event} {rest : List Event} (hs : s.schedule = e :: rest) :
    step s.state = .next t.state ↔ runEvent e { s with schedule := rest } = .next t := by
  rw [step_eq_next, nextEvent, popEvent, hs, List.tail_cons]

/-- An unspecified state keeps the values read: they are outside what R62 lists. -/
@[simp] theorem settle_obs (s t : Block w) : (settle s t).obs = t.obs := by
  unfold settle
  split <;> rfl

/-- No host command, and no INIT conflict, reads the observation port. -/
theorem HostEffect.obs {s t : Block w} (h : HostEffect s t) : t.obs = s.obs := by
  cases h with
  | none io err _ state => rw [state]
  | init io cap _ _ _ state => rw [state]; rfl
  | conflict io _ state => rw [state]; rfl

/-- The ports' steps at a clock edge read nothing on the observation port, with the fault mark set or not. -/
theorem clockCycle_obs {h p c : Bool} {s t : Block w} (hx : clockCycle h p c s = .next t) : t.obs = s.obs := by
  obtain ⟨sp, -, hx⟩ := andThen_eq_next hx
  obtain ⟨sc, -, hx⟩ := andThen_eq_next hx
  exact (edgePort_host hx).obs

/-- A request alone adds the value read and takes its event off the schedule (R32). -/
theorem step_observe {s : Block w} {r : BitVec 3} {rest : List Event} (hc : s.Clean)
    (hs : s.schedule = .observe r :: rest) :
    step s.state = .next (Block.state { s with schedule := rest, obs := s.obs ++ [s.view r] }) := by
  rw [step_of_schedule hs, runEvent, settle_clean _ (by exact hc)]
  rfl

/-- A request that comes with a clock edge reads the registers before the edge (R32, R42). -/
theorem step_cycle_obs {s t : Block w} {r : BitVec 3} {h p c : Bool} {rest : List Event}
    (hs : s.schedule = .cycle h p c (some r) :: rest) (hx : step s.state = .next t.state) :
    t.obs = s.obs ++ [s.view r] := by
  rw [step_of_schedule hs] at hx
  obtain ⟨u, hu, rfl⟩ := mapNext_eq_next hx
  rw [settle_obs, clockCycle_obs hu]
  rfl

/-- Settles O28: the registers one by one, and the two steps that answer a request. -/
theorem observationReadsWithoutSideEffect : Obligations.ObservationReadsWithoutSideEffect := fun s =>
  ⟨⟨rfl, rfl, rfl, rfl, rfl, rfl⟩, s.view_flags_bits, s.view_err_toNat, fun _ _ => step_observe,
    fun _ _ _ _ _ _ => step_cycle_obs⟩

/-! ### Who writes the counters (10_state.md R16) -/

/-- The producer's frame in the statements' terms. -/
theorem ProducerFrame.keeps {s t : Block w} (h : ProducerFrame s t) :
    KeepsConsumerSide s t ∧ KeepsSetup s t ∧ KeepsOutside s t :=
  ⟨⟨h.rdPos, h.cSeq, fun a => by rw [h.dst]⟩, ⟨h.mask, h.cfg, h.maxAddrW⟩, h.obs, h.schedule⟩

/-- The consumer's frame in the statements' terms. -/
theorem ConsumerFrame.keeps {s t : Block w} (h : ConsumerFrame s t) :
    KeepsProducerSide s t ∧ KeepsSetup s t ∧ KeepsOutside s t :=
  ⟨⟨h.wrPos, h.pSeq, h.src, fun a => ⟨by rw [h.storage], memRead_congr h.storage h.storageEpoch a⟩⟩,
    ⟨h.mask, h.cfg, h.maxAddrW⟩, h.obs, h.schedule⟩

/-- A producer-side step leaves `WR_POS` or increments it. -/
theorem ProducerEffect.wrPos_cases {s t : Block w} (h : ProducerEffect s t) :
    t.wrPos = s.wrPos ∨ t.wrPos = s.wrPos + 1#w := by
  cases h with
  | none wrPos => exact .inl wrPos
  | put _ _ _ _ wrPos => exact .inr wrPos
  | start _ _ _ _ wrPos => exact .inl wrPos
  | micro _ _ _ wrPos => exact .inr wrPos

/-- A consumer command other than FLUSH leaves `RD_POS` or increments it. -/
theorem exec_consumer_rdPos {i : Instr} {s t : Block w} (hp : i.port = .consumer) (hf : i ≠ .flush)
    (hx : exec i s.state = .next t.state) : t.rdPos = s.rdPos ∨ t.rdPos = s.rdPos + 1#w := by
  cases i <;> simp only [Instr.port, reduceCtorEq] at hp <;>
    simp only [exec, execGet, execPeek, execRead, execRdavail, whenConfigured,
      goOn_state, Host.Outcome.next.injEq, state_inj] at hx
  case flush => exact absurd rfl hf
  all_goals
    subst hx
    (repeat' split) <;> simp

/-- A consumer-side step leaves `RD_POS`, increments it, or runs a FLUSH that its agent presents. -/
theorem consumer_step_rdPos {s t : Block w} (hc : s.Clean) (h : portStep .consumer s = .next t) :
    t.rdPos = s.rdPos ∨ t.rdPos = s.rdPos + 1#w ∨
      (t.rdPos = s.wrPos ∧ ∃ c cs, s.consumer.pending = c :: cs ∧ decodeAt .consumer c.word = .ok .flush) := by
  obtain ⟨-, effect, -⟩ := consumer_step hc h
  cases effect with
  | none rdPos => exact .inl rdPos
  | get _ _ _ rdPos => exact .inr (.inl rdPos)
  | start _ _ _ _ rdPos => exact .inl rdPos
  | micro _ _ _ rdPos => exact .inr (.inl rdPos)
  | flush idle _ rdPos =>
    rcases portStep_cases h with ⟨T, k, hq, -⟩ | ⟨-, -, rfl⟩ | ⟨-, c, cs, hcs, ⟨_, -, rfl⟩ | ⟨i, hd, hp, hx⟩⟩
    · exact absurd (hq.symm.trans idle) (by simp)
    · exact .inl rfl
    · exact .inl (by simp)
    · by_cases hf : i = .flush
      · exact .inr (.inr ⟨rdPos, c, cs, hcs, hf ▸ hd⟩)
      · obtain ⟨io, dst, hu, -⟩ := present_consumer hp c.buf cs s
        rw [hu] at hx
        exact (exec_consumer_rdPos hp hf hx).imp_right .inl

/-- An INIT conflict sets the fault mark (R62). -/
theorem scramble_errInitc_initc (s : Block w) (io : PortIO w) :
    (scramble { s with host := io, err := s.err ||| errInitc }).initc = true := by
  simp [Block.initc, errInitc]

/-- A host-side step that sets no fault mark: both counters stay or INIT sets both, and the data ports, their
sequencers and their buffers stay. -/
theorem HostEffect.keeps {s t : Block w} (h : HostEffect s t) (ht : t.Clean) :
    (t.rdPos = s.rdPos ∧ t.wrPos = s.wrPos ∨ t.rdPos = 0#w ∧ t.wrPos = 0#w ∧ t.cfg = true) ∧
      t.pSeq = s.pSeq ∧ t.cSeq = s.cSeq ∧ t.src = s.src ∧ SameDst s t ∧ KeepsOutside s t ∧
      t.producer = s.producer ∧ t.consumer = s.consumer := by
  cases h with
  | none io err _ state =>
    subst state
    exact ⟨.inl ⟨rfl, rfl⟩, rfl, rfl, rfl, fun _ => rfl, ⟨rfl, rfl⟩, rfl, rfl⟩
  | init io cap _ _ _ state =>
    subst state
    exact ⟨.inr ⟨rfl, rfl, rfl⟩, rfl, rfl, rfl, fun _ => rfl, ⟨rfl, rfl⟩, rfl, rfl⟩
  | conflict io _ state =>
    subst state
    exact absurd (ht.symm.trans (scramble_errInitc_initc s io)) Bool.false_ne_true

/-- Settles O39: each side's step lemma, its frame and its effect on the counter it owns. -/
theorem eachCounterHasOneWriter : Obligations.EachCounterHasOneWriter := by
  intro w s t hc
  refine ⟨fun h => ?_, fun h => ?_, fun h ht => (host_step h).keeps ht⟩
  · obtain ⟨frame, effect⟩ := producer_step hc h
    obtain ⟨hconsumer, hsetup, houtside⟩ := frame.keeps
    exact ⟨effect.wrPos_cases, hconsumer, hsetup, houtside, frame.host, frame.consumer⟩
  · obtain ⟨frame, -, -⟩ := consumer_step hc h
    obtain ⟨hproducer, hsetup, houtside⟩ := frame.keeps
    exact ⟨consumer_step_rdPos hc h, hproducer, hsetup, houtside, frame.host, frame.producer⟩

end Sys2Proof.Machine

namespace Sys2Proof.Machine

variable {w : Nat}

/-! ### Which slot a position names (20_memory.md R34) -/

/-- The next position names the next slot, cyclically: the counter wraps at a multiple of the capacity. -/
theorem Block.slot_succ (s : Block w) (p : Word w) {k : Nat} (hw : 0 < w) (h : s.mask.toNat + 1 = 2 ^ k) :
    s.slot (p + 1#w) = (s.slot p + 1) % 2 ^ k := by
  rw [s.slot_add p _ h, s.slot_eq_mod p h, toNat_one hw, Nat.mod_add_mod]

/-- Settles O32: a legal mask reduces the position modulo the capacity, and so its successor too. -/
theorem nextPositionIsNextSlot : Obligations.NextPositionIsNextSlot := by
  rintro w s p ⟨k, hk⟩
  rw [hk]
  exact ⟨rfl, s.slot_eq_mod p hk, s.slot_le_mask p, s.slot_succ p k.pos hk⟩

end Sys2Proof.Machine

namespace Sys2Proof.Machine

variable {w : Nat}

/-! ### Which bits a command's decoding looks at (30_encoding.md R52) -/

/-- A field that a mask covers is the same in words that agree under the mask. -/
theorem extractLsb'_eq_of_and_eq {c v m : CmdWord w} {start len : Nat} (h : v &&& m = c &&& m)
    (hm : m.extractLsb' start len = BitVec.allOnes len) : v.extractLsb' start len = c.extractLsb' start len := by
  have hfield := congrArg (BitVec.extractLsb' start len) h
  simpa only [BitVec.extractLsb'_and, hm, BitVec.and_allOnes] using hfield

/-- A field below `arg` sees the low bits of a mask. -/
theorem extractLsb'_fieldMask (a : Bool) (low : BitVec 16) {start len : Nat} (h : start + len ≤ 16) :
    (fieldMask a low : CmdWord w).extractLsb' start len = low.extractLsb' start len :=
  BitVec.extractLsb'_append_eq_of_add_le h

/-- Every command's mask covers `op` and `rsv`. -/
theorem usedMask_op_rsv (w : Nat) (i : Instr) :
    (usedMask w i).extractLsb' 0 4 = BitVec.allOnes 4 ∧ (usedMask w i).extractLsb' 13 3 = BitVec.allOnes 3 := by
  cases i <;>
    exact ⟨(extractLsb'_fieldMask _ _ (by decide)).trans (by decide),
      (extractLsb'_fieldMask _ _ (by decide)).trans (by decide)⟩

/-- `arg` is covered by a mask that has it. -/
theorem argField_eq_of_and_eq {c v : CmdWord w} {low : BitVec 16}
    (h : v &&& fieldMask true low = c &&& fieldMask true low) : argField v = argField c :=
  extractLsb'_eq_of_and_eq h BitVec.extractLsb'_append_eq_left

/-- `data` is covered by a PUT's mask. -/
theorem dataField_eq_of_and_eq {c v : CmdWord w} {b : Byte}
    (h : v &&& usedMask w (.put b) = c &&& usedMask w (.put b)) : dataField v = dataField c :=
  extractLsb'_eq_of_and_eq h ((extractLsb'_fieldMask false _ (by decide)).trans (by decide))

/-- `bp` is covered by an INIT's mask. -/
theorem bpField_eq_of_and_eq {c v : CmdWord w} {bp : Bool} {cap : Nat}
    (h : v &&& usedMask w (.init bp cap) = c &&& usedMask w (.init bp cap)) : bpField v = bpField c := by
  have hbit := congrArg (·.getLsbD 12) h
  simp only [usedMask, fieldMask, BitVec.getLsbD_and, BitVec.getLsbD_append] at hbit
  simpa [bpField] using hbit

/-- A word that agrees with a command's word on the fields the command uses is that command too. -/
theorem decode_of_and_usedMask_eq {c v : CmdWord w} {i : Instr} (hc : decode c = .ok i)
    (h : v &&& usedMask w i = c &&& usedMask w i) : decode v = .ok i := by
  obtain ⟨hopMask, hrsvMask⟩ := usedMask_op_rsv w i
  have hop : opField v = opField c := extractLsb'_eq_of_and_eq h hopMask
  have hrsv : rsvField v = rsvField c := extractLsb'_eq_of_and_eq h hrsvMask
  rw [decode_ok_iff] at hc ⊢
  rw [hop, hrsv]
  cases i with
  | init bp cap => simpa [bpField_eq_of_and_eq h, argField_eq_of_and_eq h] using hc
  | put b => simpa [dataField_eq_of_and_eq h] using hc
  | write n | peek n | read n => simpa [argField_eq_of_and_eq h] using hc
  | wrroom | get | flush | rdavail => simpa using hc

/-- Settles O3: the decoder's rows, with each field read as a number. -/
theorem operandFieldsAreUsedUnchanged : Obligations.OperandFieldsAreUsedUnchanged := by
  intro w c i hc
  obtain ⟨hrsv, hrow⟩ := (decode_ok_iff c i).1 hc
  refine ⟨(rsvField_eq_zero c).1 hrsv, fun v => decode_of_and_usedMask_eq hc, ?_, ?_, ?_⟩
  · rintro bp cap rfl
    obtain ⟨-, rfl, rfl⟩ : _ ∧ bp = bpField c ∧ cap = (argField c).toNat := by simpa using hrow
    exact ⟨by rw [bpField_eq, decide_eq_true_iff], argField_toNat c⟩
  · rintro b rfl
    obtain ⟨-, rfl⟩ : _ ∧ b = dataField c := by simpa using hrow
    exact dataField_toNat c
  · intro x hx
    rw [← argField_toNat]
    rcases hx with rfl | rfl | rfl <;> exact (show _ ∧ x = (argField c).toNat by simpa using hrow).2

/-! ### ILLEGAL words (30_encoding.md R54, 60_exceptions.md R86) -/

/-- A port refuses the words that are no command and the commands of the other ports (R54). -/
theorem decodeAt_error_iff (p : Port) (c : CmdWord w) :
    (∃ r, decodeAt p c = .error r) ↔ (∃ r, decode c = .error r) ∨ ∃ i, decode c = .ok i ∧ i.port ≠ p := by
  unfold decodeAt
  cases decode c with
  | error r => simp
  | ok i => by_cases hp : i.port = p <;> simp [hp]

/-- A decoded command is another port's exactly when its opcode is assigned to a port other than `p` (R53). -/
theorem port_ne_iff (p : Port) {c : CmdWord w} {i : Instr} (h : decode c = .ok i) :
    i.port ≠ p ↔
      (c.toNat % 16 = 1 ∧ p ≠ .host) ∨
      (2 ≤ c.toNat % 16 ∧ c.toNat % 16 ≤ 4 ∧ p ≠ .producer) ∨
      (5 ≤ c.toNat % 16 ∧ c.toNat % 16 ≤ 9 ∧ p ≠ .consumer) := by
  obtain ⟨-, hrow⟩ := (decode_ok_iff c i).1 h
  rw [opField_toNat] at hrow
  rcases hrow with ⟨hop, rfl⟩ | ⟨hop, rfl⟩ | ⟨hop, rfl⟩ | ⟨hop, rfl⟩ | ⟨hop, rfl⟩ | ⟨hop, rfl⟩ | ⟨hop, rfl⟩ |
    ⟨hop, rfl⟩ | ⟨hop, rfl⟩ <;> simp [hop, Instr.port, eq_comm]

/-- The words a port refuses, by opcode and reserved bits: R54 (a), (b) and (c). -/
theorem decodeAt_error_iff_fields (p : Port) (c : CmdWord w) :
    (∃ r, decodeAt p c = .error r) ↔
      c.toNat % 16 = 0 ∨ 10 ≤ c.toNat % 16 ∨ c.toNat / 2 ^ 13 % 8 ≠ 0 ∨
      (c.toNat % 16 = 1 ∧ p ≠ .host) ∨
      (2 ≤ c.toNat % 16 ∧ c.toNat % 16 ≤ 4 ∧ p ≠ .producer) ∨
      (5 ≤ c.toNat % 16 ∧ c.toNat % 16 ≤ 9 ∧ p ≠ .consumer) := by
  have hnone := decode_error_iff c
  rw [decodeAt_error_iff]
  cases hd : decode c with
  | error r =>
    have hfields := hnone.1 ⟨r, hd⟩
    simp only [Except.error.injEq, exists_eq', true_or, true_iff]
    tauto
  | ok i =>
    have hfields := mt hnone.2 (by simp [hd])
    simp only [reduceCtorEq, exists_false, Except.ok.injEq, exists_eq_left', port_ne_iff p hd, false_or]
    tauto

/-- An idle port that accepts a word it refuses raises ILLEGAL, whatever the block's configuration (R86). -/
theorem portStep_illegal {p : Port} {s : Block w} {c : Command w} {cs : List (Command w)} {r : DecodeError}
    (hq : s.seq p = .idle) (hcs : (s.port p).pending = c :: cs) (hd : decodeAt p c.word = .error r) :
    portStep p s = .next (raise .illegal p (s.setPending p cs)) := by
  simp only [portStep, hq, hcs, accept, hd]

/-- Settles O4: the refused words by their fields, and `raise` as the whole effect of accepting one. -/
theorem illegalWordSetsErrIllAndNothingElse : Obligations.IllegalWordSetsErrIllAndNothingElse := by
  intro w p c
  refine ⟨decodeAt_error_iff_fields p c, ?_⟩
  rintro s buf cs - ⟨r, hd⟩ hq hcs
  exact ⟨_, portStep_illegal hq hcs hd, raise_raisesOn .illegal p _⟩

end Sys2Proof.Machine

namespace Sys2Proof.Machine

variable {w : Nat}

/-! ### INIT (40_init.md R59 to R62) -/

/-- A command's form, from its row of the decoder and its port (R53). -/
theorem commandForm_of_decode {p : Port} {op : Nat} {form : CmdWord w → Instr} (hport : ∀ c, (form c).port = p)
    (hrow : ∀ c : CmdWord w, (opField c).toNat = op → rsvField c = 0#3 → decode c = .ok (form c)) :
    CommandForm p op form := by
  intro c hop hrsv
  rw [← opField_toNat] at hop
  rw [← rsvField_eq_zero] at hrsv
  simp only [decodeAt, hrow c hop hrsv, hport c, if_true]

/-- INIT's form: `bp` is bit 12 and the capacity is `arg`. -/
theorem init_commandForm : CommandForm .host 0x1
    (fun c : CmdWord w => .init (decide (c.toNat / 2 ^ 12 % 2 = 1)) (c.toNat / 2 ^ 16)) := by
  refine commandForm_of_decode (fun _ => rfl) fun c hop hrsv => ?_
  rw [← bpField_eq, ← argField_toNat]
  exact (decode_ok_iff c _).2 ⟨hrsv, .inl ⟨hop, rfl⟩⟩

/-- With a sequencer busy INIT is a conflict, whatever its operands (R62). -/
theorem exec_init_busy {s : Block w} (h : s.pSeq ≠ .idle ∨ s.cSeq ≠ .idle) (bp : Bool) (cap : Nat) :
    exec (.init bp cap) s.state = .next (initConflict s).state := by
  have hbusy : (s.busy .producer || s.busy .consumer) = true := by
    rwa [Bool.or_eq_true, Block.busy_eq_true, Block.busy_eq_true]
  rw [exec, execInit, goOn_state, if_pos hbusy]

theorem initConflict_initc (s : Block w) : (initConflict s).initc = true := scramble_errInitc_initc s _

/-- With both sequencers idle INIT checks that the storage is present, then the capacity (R59, R60). -/
theorem exec_init_idle {s : Block w} (hp : s.pSeq = .idle) (hc : s.cSeq = .idle) (bp : Bool) (cap : Word w) :
    exec (.init bp cap.toNat) s.state = .next (Block.state <|
      if bp = false then fail .host .invalidArgument s
      else if s.badCapacity cap then fail .host .invalidLength s
      else respond .host .success none 0#w (attach cap s)) := by
  have hidle : ¬ (s.busy .producer || s.busy .consumer) = true := by
    rw [Bool.not_eq_true, Bool.or_eq_false_iff, Block.busy_eq_false, Block.busy_eq_false]
    exact ⟨hp, hc⟩
  rw [exec, execInit, goOn_state, if_neg hidle, BitVec.ofNat_toNat, BitVec.setWidth_eq]

/-- INIT's length check passes exactly the legal capacities (R6, R7). -/
theorem legalCapacity_iff_badCapacity_eq_false {s : Block w} {cap : Word w} :
    LegalCapacity s cap ↔ s.badCapacity cap = false := (s.badCapacity_eq_false cap).symm

/-- `MASK + 1` is the capacity: a legal capacity is not 0, so the mask does not wrap (R18). -/
theorem LegalCapacity.mask_toNat {s : Block w} {cap : Word w} (h : LegalCapacity s cap) :
    (cap - 1#w).toNat + 1 = cap.toNat := by
  obtain ⟨k, -, hk⟩ := h
  have hpos : 0 < cap.toNat := hk ▸ Nat.two_pow_pos k
  have hone : (1#w).toNat = 1 := toNat_one s.width_pos
  rw [toNat_sub_of_le (by omega)]
  omega

/-! A block that INIT has just attached is empty. -/

@[simp] theorem attach_occ (s : Block w) (cap : Word w) : (attach cap s).occ = 0#w := BitVec.sub_self 0#w

@[simp] theorem attach_emptyOut (s : Block w) (cap : Word w) : (attach cap s).emptyOut = true := by
  simp [Block.emptyOut, emptyFlag]

@[simp] theorem attach_fullOut (s : Block w) (cap : Word w) : (attach cap s).fullOut = false := by
  simp [Block.fullOut, fullFlag]

/-- Attaching a storage gives no response: every port's queues stay. -/
theorem attach_port (s : Block w) (cap : Word w) (q : Port) : (attach cap s).port q = s.port q := by
  cases q <;> rfl

/-- Settles O14: a busy sequencer is a conflict; else the two checks in their order, each failing as `fail` does, and
past both the attached block with its response. -/
theorem initSetsCapacityOrChangesNothing : Obligations.InitSetsCapacityOrChangesNothing := by
  intro w
  refine ⟨init_commandForm, fun s cap _ => ⟨fun hbusy bp => ?_, fun hp hc => ⟨?_, fun hbad => ?_, fun hcap => ?_⟩⟩⟩
  · exact ⟨_, exec_init_busy hbusy bp _, initConflict_initc s⟩
  · exact ⟨_, exec_init_idle hp hc false cap, fail_failsWith .host .invalidArgument s⟩
  · rw [legalCapacity_iff_badCapacity_eq_false, Bool.not_eq_false] at hbad
    refine ⟨_, exec_init_idle hp hc true cap, ?_⟩
    simpa [hbad] using fail_failsWith .host .invalidLength s
  · refine ⟨respond .host .success none 0#w (attach cap s), ?_, rfl, rfl, rfl, hcap.mask_toNat, rfl, fun _ => rfl,
      attach_occ s cap, attach_emptyOut s cap, attach_fullOut s cap,
      respond_responded .host .success none 0#w (attach_port s cap), rfl, hp, hc, rfl, fun _ => rfl, rfl, rfl, rfl⟩
    simp [exec_init_idle hp hc true cap, legalCapacity_iff_badCapacity_eq_false.1 hcap]

end Sys2Proof.Machine

namespace Sys2Proof.Machine

variable {w : Nat}

/-! ### Data commands: their forms, and what they share (30_encoding.md R50 to R53, 60_exceptions.md R87) -/

/-- A busy port's step is its sequencer's micro-step. -/
theorem portStep_moving {p : Port} {s : Block w} {T k : Word w} (h : s.seq p = .moving T k) :
    portStep p s = .next (microStep p T k s) := by
  simp only [portStep, h]

/-- A port's unspecified response takes no command. -/
theorem respondUnspecified_pending (p : Port) (s : Block w) :
    ((respondUnspecified p s).port p).pending = (s.port p).pending := by
  rw [respondUnspecified, Block.pushResponse, port_setPort_same]

/-- A micro-step takes no command, with the fault mark set or not (R50). -/
theorem microStep_pending (p : Port) (T k : Word w) (s : Block w) :
    ((microStep p T k s).port p).pending = (s.port p).pending := by
  unfold microStep
  split
  · unfold unspecifiedMicro
    split
    · exact respondUnspecified_pending p s
    · rfl
  · cases p with
    | host => rfl
    | producer => dsimp only [writeMicro]; split <;> rfl
    | consumer => dsimp only [readMicro]; split <;> rfl

/-- A data command's form, from its row of the decoder and its port; a busy port is the same for all of them. -/
theorem dataCommandForm_of_decode {p : Port} {op : Nat} {form : CmdWord w → Instr} (hport : ∀ c, (form c).port = p)
    (hrow : ∀ c : CmdWord w, (opField c).toNat = op → rsvField c = 0#3 → decode c = .ok (form c)) :
    DataCommandForm p op form :=
  ⟨commandForm_of_decode hport hrow, fun s T k h => ⟨_, portStep_moving h, microStep_pending p T k s⟩⟩

/-- Before the first successful INIT every data command only raises UNCONFIGURED (R87). -/
theorem exec_unconfigured {i : Instr} {s : Block w} (hp : i.port ≠ .host) (h : s.cfg = false) :
    exec i s.state = .next (raise .unconfigured i.port s).state := by
  cases i with
  | init bp cap => exact absurd rfl hp
  | put | write | wrroom | get | peek | flush | read | rdavail =>
    exact congrArg (fun t : Block w => Host.Outcome.next t.state) (whenConfigured_false _ _ h)

theorem exec_unconfigured_raisesOn {i : Instr} {s : Block w} (hp : i.port ≠ .host) (h : s.cfg = false) :
    ∃ t : Block w, exec i s.state = .next t.state ∧ RaisesOn i.port .unconfigured 0b010 s t :=
  ⟨_, exec_unconfigured hp h, raise_raisesOn .unconfigured i.port s⟩

/-! ### The occupancy and its flags as one byte comes or goes (10_state.md R25, R27) -/

theorem Block.emptyOut_eq_true_iff {s : Block w} (h : s.cfg = true) : s.emptyOut = true ↔ s.occ = 0#w := by
  simp [Block.emptyOut, emptyFlag, h]

theorem Block.fullOut_eq_true_iff {s : Block w} (h : s.cfg = true) : s.fullOut = true ↔ s.mask < s.occ := by
  simp [Block.fullOut, fullFlag, h]

/-- A configured block that holds nothing is empty and not full, whatever its mask. -/
theorem Block.flags_of_occ_eq_zero {s : Block w} (h : s.cfg = true) (hocc : s.occ = 0#w) :
    s.emptyOut = true ∧ s.fullOut = false := by
  refine ⟨(Block.emptyOut_eq_true_iff h).2 hocc, ?_⟩
  rw [← Bool.not_eq_true, Block.fullOut_eq_true_iff h, hocc]
  exact BitVec.not_lt_zero

@[simp] theorem pushByte_occ (s : Block w) (b : Byte) : (pushByte b s).occ = s.occ + 1#w := by
  simp only [Block.occ_eq, pushByte_wrPos, pushByte_rdPos]
  ring

@[simp] theorem dropByte_occ (s : Block w) : (dropByte s).occ = s.occ - 1#w := by
  simp only [Block.occ_eq, dropByte_wrPos, dropByte_rdPos]
  ring

/-- One byte more, in a legal block with room: the occupancy does not wrap, so the block is not empty, and it is full
exactly at its capacity. -/
theorem Block.Legal.flags_after_append {s t : Block w} (h : s.Legal) (hroom : s.occ ≤ s.mask) (hcfg : t.cfg = true)
    (hmask : t.mask = s.mask) (hocc : t.occ = s.occ + 1#w) :
    t.occ.toNat = s.occ.toNat + 1 ∧ t.emptyOut = false ∧ (t.fullOut = true ↔ t.occ.toNat = t.mask.toNat + 1) := by
  have hcap := h.two_mul_capacity_le
  rw [BitVec.le_def] at hroom
  have hnat : t.occ.toNat = s.occ.toNat + 1 := by
    rw [hocc]
    exact toNat_add_one (n := s.mask.toNat + 1) (by omega) (by omega)
  refine ⟨hnat, ?_, ?_⟩
  · rw [← Bool.not_eq_true, Block.emptyOut_eq_true_iff hcfg]
    intro hzero
    simp [hzero] at hnat
  · rw [Block.fullOut_eq_true_iff hcfg, BitVec.lt_def, hmask]
    omega

/-- One byte less, in a legal block that holds one: the block is not full. -/
theorem Block.Legal.flags_after_remove {s t : Block w} (h : s.Legal) (hne : s.occ ≠ 0#w) (hcfg : t.cfg = true)
    (hmask : t.mask = s.mask) (hocc : t.occ = s.occ - 1#w) :
    t.occ.toNat + 1 = s.occ.toNat ∧ t.fullOut = false ∧ (t.emptyOut = true ↔ t.occ = 0#w) := by
  have hcap := h.occ_le_cap
  have hpos : s.occ.toNat ≠ 0 := fun e => hne (BitVec.eq_of_toNat_eq (by simpa using e))
  have hone : (1#w).toNat = 1 := toNat_one s.width_pos
  have hnat : t.occ.toNat + 1 = s.occ.toNat := by
    rw [hocc, toNat_sub_of_le (by omega)]
    omega
  refine ⟨hnat, ?_, Block.emptyOut_eq_true_iff hcfg⟩
  rw [← Bool.not_eq_true, Block.fullOut_eq_true_iff hcfg, BitVec.lt_def, hmask]
  omega

/-! ### PUT (41_single_byte.md R64) -/

/-- PUT's form: the byte is bits 11 to 4. -/
theorem put_dataCommandForm :
    DataCommandForm .producer 0x2 (fun c : CmdWord w => .put (BitVec.ofNat 8 (c.toNat / 2 ^ 4))) := by
  refine dataCommandForm_of_decode (fun _ => rfl) fun c hop hrsv => ?_
  have hdata : dataField c = BitVec.ofNat 8 (c.toNat / 2 ^ 4) := BitVec.eq_of_toNat_eq (by
    rw [dataField_toNat, BitVec.toNat_ofNat])
  rw [← hdata]
  exact (decode_ok_iff c _).2 ⟨hrsv, .inr (.inl ⟨hop, rfl⟩)⟩

/-- PUT on a configured block: its own check, then the byte and the response. -/
theorem exec_put {s : Block w} (h : s.cfg = true) (b : Byte) :
    exec (.put b) s.state = .next (Block.state <|
      if s.mask < s.occ then fail .producer .full s else respond .producer .success none 0#w (pushByte b s)) := by
  rw [exec, execPut, goOn_state, whenConfigured_true _ _ h]

/-- Settles O16: the three cases of `exec_put`; the byte written is read back, the other slots are not written. -/
theorem putAppendsOneByte : Obligations.PutAppendsOneByte := by
  intro w
  refine ⟨put_dataCommandForm, fun s b _ => ⟨fun hcfg => ?_, fun hcfg hfull => ?_, fun hcfg hroom => ?_⟩⟩
  · exact exec_unconfigured_raisesOn (i := .put b) (by simp [Instr.port]) hcfg
  · exact ⟨_, by rw [exec_put hcfg, if_pos hfull], fail_failsWith .producer .full s⟩
  · have hexec : exec (.put b) s.state = .next (respond .producer .success none 0#w (pushByte b s)).state := by
      rw [exec_put hcfg, if_neg (BitVec.not_lt.2 hroom)]
    have hother (a : Nat) (ha : a ≠ s.slot s.wrPos) : Memory.read (pushByte b s).storage a = Memory.read s.storage a ∧
        (pushByte b s).memRead a = s.memRead a :=
      ⟨Memory.read_write_other s.storage _ a b ha, by rw [memRead_pushByte, if_neg ha]⟩
    have hframe : ProducerFrame s (respond .producer .success none 0#w (pushByte b s)) := by constructor <;> rfl
    obtain ⟨hconsumer, hsetup, houtside⟩ := hframe.keeps
    refine ⟨_, hexec, rfl, Memory.read_write_same _ _ b, hother,
      respond_responded .producer .success none 0#w fun q => by cases q <;> rfl, rfl, rfl, rfl,
      hconsumer, hsetup, houtside, fun hlegal => ?_⟩
    exact hlegal.flags_after_append hroom hcfg rfl (pushByte_occ s b)

/-! ### GET, PEEK and FLUSH (41_single_byte.md R66, R68, R70) -/

theorem get_dataCommandForm : DataCommandForm .consumer 0x5 (fun _ : CmdWord w => .get) :=
  dataCommandForm_of_decode (fun _ => rfl) fun c hop hrsv => (decode_ok_iff c _).2 ⟨hrsv, by simp [hop]⟩

/-- PEEK's form: the index is `arg`. -/
theorem peek_dataCommandForm : DataCommandForm .consumer 0x6 (fun c : CmdWord w => .peek (c.toNat / 2 ^ 16)) :=
  dataCommandForm_of_decode (fun _ => rfl) fun c hop hrsv =>
    (decode_ok_iff c _).2 ⟨hrsv, by simp [hop, argField_toNat]⟩

theorem flush_dataCommandForm : DataCommandForm .consumer 0x7 (fun _ : CmdWord w => .flush) :=
  dataCommandForm_of_decode (fun _ => rfl) fun c hop hrsv => (decode_ok_iff c _).2 ⟨hrsv, by simp [hop]⟩

/-- GET on a configured block: its own check, then the oldest byte is answered and dropped. -/
theorem exec_get {s : Block w} (h : s.cfg = true) :
    exec .get s.state = .next (Block.state <|
      if s.occ = 0#w then fail .consumer .empty s
      else respond .consumer .success (some s.headByte) 0#w (dropByte s)) := by
  rw [exec, execGet, goOn_state, whenConfigured_true _ _ h]

/-- PEEK on a configured block: its own check, then the byte at the index is answered. -/
theorem exec_peek {s : Block w} (h : s.cfg = true) (idx : Word w) :
    exec (.peek idx.toNat) s.state = .next (Block.state <|
      if s.occ ≤ idx then fail .consumer .notFound s
      else respond .consumer .success (some (s.memRead (s.slot (s.rdPos + idx)))) 0#w s) := by
  rw [exec, execPeek, goOn_state, whenConfigured_true _ _ h, BitVec.ofNat_toNat, BitVec.setWidth_eq]

/-- FLUSH on a configured block. -/
theorem exec_flush {s : Block w} (h : s.cfg = true) :
    exec .flush s.state = .next (respond .consumer .success none 0#w { s with rdPos := s.wrPos }).state := by
  rw [exec, execFlush, goOn_state, whenConfigured_true _ _ h]

/-- Settles O17: the three cases of `exec_get`, with the frame of the consumer's side. -/
theorem getRemovesTheOldestByte : Obligations.GetRemovesTheOldestByte := by
  intro w
  refine ⟨get_dataCommandForm, fun s _ => ⟨fun hcfg => ?_, fun hcfg hempty => ?_, fun hcfg hne => ?_⟩⟩
  · exact exec_unconfigured_raisesOn (i := .get) (by decide) hcfg
  · exact ⟨_, by rw [exec_get hcfg, if_pos hempty], fail_failsWith .consumer .empty s⟩
  · have hexec : exec .get s.state =
        .next (respond .consumer .success (some s.headByte) 0#w (dropByte s)).state := by
      rw [exec_get hcfg, if_neg hne]
    have hframe : ConsumerFrame s (respond .consumer .success (some s.headByte) 0#w (dropByte s)) := by
      constructor <;> rfl
    obtain ⟨hproducer, hsetup, houtside⟩ := hframe.keeps
    refine ⟨_, hexec, rfl,
      respond_responded .consumer .success (some s.headByte) 0#w fun q => by cases q <;> rfl, rfl, rfl, fun _ => rfl,
      hproducer, hsetup, houtside, fun hlegal => ?_⟩
    exact hlegal.flags_after_remove hne hcfg rfl (dropByte_occ s)

/-- Settles O18: the three cases of `exec_peek`; a response alone leaves the block as it is. -/
theorem peekReadsWithoutRemoving : Obligations.PeekReadsWithoutRemoving := by
  intro w
  refine ⟨peek_dataCommandForm, fun s idx _ => ⟨fun hcfg => ?_, fun hcfg hbeyond => ?_, fun hcfg hstored => ?_⟩⟩
  · exact exec_unconfigured_raisesOn (i := .peek idx.toNat) (by simp [Instr.port]) hcfg
  · exact ⟨_, by rw [exec_peek hcfg, if_pos hbeyond], fail_failsWith .consumer .notFound s⟩
  · exact ⟨_, by rw [exec_peek hcfg, if_neg (BitVec.not_le.2 hstored)],
      respond_responded .consumer .success _ 0#w fun _ => rfl, rfl, respond_keepsBlock .consumer .success _ 0#w s⟩

/-- Settles O19: with `RD_POS` at `WR_POS` the occupancy is 0, which no mask is below. -/
theorem flushDiscardsEveryByte : Obligations.FlushDiscardsEveryByte := by
  intro w
  refine ⟨flush_dataCommandForm, fun s _ => ⟨fun hcfg => ?_, fun hcfg => ?_⟩⟩
  · exact exec_unconfigured_raisesOn (i := .flush) (by decide) hcfg
  · have hframe : ConsumerFrame s (respond .consumer .success none 0#w { s with rdPos := s.wrPos }) := by
      constructor <;> rfl
    obtain ⟨hproducer, hsetup, houtside⟩ := hframe.keeps
    have hocc : (respond .consumer .success none 0#w { s with rdPos := s.wrPos }).occ = 0#w :=
      BitVec.sub_self s.wrPos
    exact ⟨_, exec_flush hcfg, rfl,
      respond_responded .consumer .success none 0#w fun q => by cases q <;> rfl, rfl, rfl, fun _ => rfl,
      hproducer, hsetup, houtside, hocc, Block.flags_of_occ_eq_zero hcfg hocc⟩

end Sys2Proof.Machine

namespace Sys2Proof.Machine

variable {w : Nat}

/-! ### RDAVAIL and WRROOM (42_bulk.md R76, R82) -/

theorem rdavail_dataCommandForm : DataCommandForm .consumer 0x9 (fun _ : CmdWord w => .rdavail) :=
  dataCommandForm_of_decode (fun _ => rfl) fun c hop hrsv => (decode_ok_iff c _).2 ⟨hrsv, by simp [hop]⟩

theorem wrroom_dataCommandForm : DataCommandForm .producer 0x4 (fun _ : CmdWord w => .wrroom) :=
  dataCommandForm_of_decode (fun _ => rfl) fun c hop hrsv => (decode_ok_iff c _).2 ⟨hrsv, by simp [hop]⟩

/-- RDAVAIL on a configured block: its own check, then the occupancy is answered. -/
theorem exec_rdavail {s : Block w} (h : s.cfg = true) :
    exec .rdavail s.state = .next (Block.state <|
      if s.occ = 0#w then fail .consumer .empty s else respond .consumer .success none s.occ s) := by
  rw [exec, execRdavail, goOn_state, whenConfigured_true _ _ h]

/-- WRROOM on a configured block: its own check, then the room is answered. -/
theorem exec_wrroom {s : Block w} (h : s.cfg = true) :
    exec .wrroom s.state = .next (Block.state <|
      if s.room = 0#w then fail .producer .full s else respond .producer .success none s.room s) := by
  rw [exec, execWrroom, goOn_state, whenConfigured_true _ _ h]

/-- Settles O22: the three cases of `exec_rdavail`; a response alone leaves the block as it is. -/
theorem rdavailReportsStoredBytes : Obligations.RdavailReportsStoredBytes := by
  intro w
  refine ⟨rdavail_dataCommandForm, fun s _ => ⟨fun hcfg => ?_, fun hcfg hempty => ?_, fun hcfg hne => ?_⟩⟩
  · exact exec_unconfigured_raisesOn (i := .rdavail) (by decide) hcfg
  · exact ⟨_, by rw [exec_rdavail hcfg, if_pos hempty], fail_failsWith .consumer .empty s⟩
  · exact ⟨_, by rw [exec_rdavail hcfg, if_neg hne],
      respond_responded .consumer .success none s.occ fun _ => rfl, rfl,
      respond_keepsBlock .consumer .success none s.occ s⟩

/-- Settles O25: the three cases of `exec_wrroom`; a response alone leaves the block as it is. -/
theorem wrroomReportsFreeSlots : Obligations.WrroomReportsFreeSlots := by
  intro w
  refine ⟨wrroom_dataCommandForm, fun s _ => ⟨fun hcfg => ?_, fun hcfg hfull => ?_, fun hcfg hne => ?_⟩⟩
  · exact exec_unconfigured_raisesOn (i := .wrroom) (by decide) hcfg
  · exact ⟨_, by rw [exec_wrroom hcfg, if_pos hfull], fail_failsWith .producer .full s⟩
  · exact ⟨_, by rw [exec_wrroom hcfg, if_neg hne],
      respond_responded .producer .success none s.room fun _ => rfl, rfl,
      respond_keepsBlock .producer .success none s.room s⟩

/-! ### The start steps of READ and WRITE (42_bulk.md R72, R78) -/

/-- READ's form: the requested size is `arg`. -/
theorem read_dataCommandForm : DataCommandForm .consumer 0x8 (fun c : CmdWord w => .read (c.toNat / 2 ^ 16)) :=
  dataCommandForm_of_decode (fun _ => rfl) fun c hop hrsv =>
    (decode_ok_iff c _).2 ⟨hrsv, by simp [hop, argField_toNat]⟩

/-- WRITE's form: the requested size is `arg`. -/
theorem write_dataCommandForm : DataCommandForm .producer 0x3 (fun c : CmdWord w => .write (c.toNat / 2 ^ 16)) :=
  dataCommandForm_of_decode (fun _ => rfl) fun c hop hrsv =>
    (decode_ok_iff c _).2 ⟨hrsv, by simp [hop, argField_toNat]⟩

/-- Past the check that something is there, a transfer is empty exactly when nothing is asked for. -/
theorem transferCount_eq_zero_iff {n a : Word w} (ha : a ≠ 0#w) : transferCount n a = 0#w ↔ n = 0#w := by
  rw [ne_eq, ← BitVec.toNat_inj, BitVec.toNat_zero] at ha
  rw [← BitVec.toNat_inj, ← BitVec.toNat_inj, BitVec.toNat_zero, transferCount_toNat]
  omega

/-- READ's start step on a configured block: its own check, then the transfer it fixes, answered at once if empty. -/
theorem exec_read {s : Block w} (h : s.cfg = true) (n : Word w) :
    exec (.read n.toNat) s.state = .next (Block.state <|
      if s.occ = 0#w then fail .consumer .empty s
      else if transferCount n s.occ = 0#w then respond .consumer .success none 0#w s
      else { s with cSeq := .moving (transferCount n s.occ) 0#w }) := by
  rw [exec, execRead, goOn_state, whenConfigured_true _ _ h, BitVec.ofNat_toNat, BitVec.setWidth_eq]

/-- WRITE's start step on a configured block, as READ's. -/
theorem exec_write {s : Block w} (h : s.cfg = true) (n : Word w) :
    exec (.write n.toNat) s.state = .next (Block.state <|
      if s.room = 0#w then fail .producer .full s
      else if transferCount n s.room = 0#w then respond .producer .success none 0#w s
      else { s with pSeq := .moving (transferCount n s.room) 0#w }) := by
  rw [exec, execWrite, goOn_state, whenConfigured_true _ _ h, BitVec.ofNat_toNat, BitVec.setWidth_eq]

/-- Settles O20: the three cases of `exec_read`; a start step with a transfer writes `C_SEQ` alone. -/
theorem readStartFixesTheTransfer : Obligations.ReadStartFixesTheTransfer := by
  intro w
  refine ⟨read_dataCommandForm, fun s n _ => ⟨fun hcfg => ?_, fun hcfg hempty => ?_, fun hcfg hne hn => ?_,
    fun hcfg hne hn => ?_⟩⟩
  · exact exec_unconfigured_raisesOn (i := .read n.toNat) (by simp [Instr.port]) hcfg
  · exact ⟨_, by rw [exec_read hcfg, if_pos hempty], fail_failsWith .consumer .empty s⟩
  · exact ⟨_, by rw [exec_read hcfg, if_neg hne, if_pos ((transferCount_eq_zero_iff hne).2 hn)],
      respond_responded .consumer .success none 0#w fun _ => rfl, rfl,
      respond_keepsBlock .consumer .success none 0#w s⟩
  · have hexec : exec (.read n.toNat) s.state =
        .next (Block.state { s with cSeq := .moving (transferCount n s.occ) 0#w }) := by
      rw [exec_read hcfg, if_neg hne, if_neg (mt (transferCount_eq_zero_iff hne).1 hn)]
    have hframe : ConsumerFrame s { s with cSeq := .moving (transferCount n s.occ) 0#w } := by constructor <;> rfl
    obtain ⟨hproducer, hsetup, houtside⟩ := hframe.keeps
    exact ⟨_, _, hexec, rfl, transferCount_toNat n s.occ, fun q => by cases q <;> rfl, rfl, rfl, fun _ => rfl,
      hproducer, hsetup, houtside⟩

/-- Settles O23: the three cases of `exec_write`; a start step with a transfer writes `P_SEQ` alone. -/
theorem writeStartFixesTheTransfer : Obligations.WriteStartFixesTheTransfer := by
  intro w
  refine ⟨write_dataCommandForm, fun s n _ => ⟨fun hcfg => ?_, fun hcfg hfull => ?_, fun hcfg hne hn => ?_,
    fun hcfg hne hn => ?_⟩⟩
  · exact exec_unconfigured_raisesOn (i := .write n.toNat) (by simp [Instr.port]) hcfg
  · exact ⟨_, by rw [exec_write hcfg, if_pos hfull], fail_failsWith .producer .full s⟩
  · exact ⟨_, by rw [exec_write hcfg, if_neg hne, if_pos ((transferCount_eq_zero_iff hne).2 hn)],
      respond_responded .producer .success none 0#w fun _ => rfl, rfl,
      respond_keepsBlock .producer .success none 0#w s⟩
  · have hexec : exec (.write n.toNat) s.state =
        .next (Block.state { s with pSeq := .moving (transferCount n s.room) 0#w }) := by
      rw [exec_write hcfg, if_neg hne, if_neg (mt (transferCount_eq_zero_iff hne).1 hn)]
    have hframe : ProducerFrame s { s with pSeq := .moving (transferCount n s.room) 0#w } := by constructor <;> rfl
    obtain ⟨hconsumer, hsetup, houtside⟩ := hframe.keeps
    exact ⟨_, _, hexec, rfl, transferCount_toNat n s.room, fun q => by cases q <;> rfl, rfl, rfl, rfl,
      fun _ => ⟨rfl, rfl⟩, hconsumer, hsetup, houtside⟩

/-! ### The micro-steps of READ and WRITE (42_bulk.md R73, R79) -/

section ReadMicro

variable {T k : Word w} (s : Block w)

@[simp] theorem readMicro_rdPos : (readMicro T k s).rdPos = s.rdPos + 1#w := by
  unfold readMicro
  split <;> rfl

@[simp] theorem readMicro_dst : (readMicro T k s).dst = Memory.write s.dst k.toNat s.headByte := by
  unfold readMicro
  split <;> rfl

@[simp] theorem readMicro_err : (readMicro T k s).err = s.err := by
  unfold readMicro
  split <;> rfl

/-- The last micro-step of a READ or not: the producer's side and the setup are not touched (R16). -/
theorem readMicro_frame : ConsumerFrame s (readMicro T k s) := by
  unfold readMicro
  split <;> constructor <;> rfl

/-- The one response of a READ is given by its last micro-step (R73). -/
theorem readMicro_last_responded (h : k + 1#w = T) :
    (readMicro T k s).cSeq = .idle ∧ Responded .consumer .success none T s (readMicro T k s) := by
  rw [readMicro, if_pos h]
  exact ⟨rfl, respond_responded .consumer .success none T fun q => by cases q <;> rfl⟩

/-- Before its last micro-step a READ counts up and gives no response. -/
theorem readMicro_notLast_noResponse (h : k + 1#w ≠ T) :
    (readMicro T k s).cSeq = .moving T (k + 1#w) ∧ NoResponse s (readMicro T k s) := by
  rw [readMicro, if_neg h]
  exact ⟨rfl, fun q => by cases q <;> rfl⟩

end ReadMicro

section WriteMicro

variable {T k : Word w} (s : Block w)

@[simp] theorem writeMicro_wrPos : (writeMicro T k s).wrPos = s.wrPos + 1#w := by
  unfold writeMicro
  split <;> rfl

@[simp] theorem writeMicro_storage :
    (writeMicro T k s).storage = Memory.write s.storage (s.slot s.wrPos) (s.srcRead k) := by
  unfold writeMicro
  split <;> rfl

@[simp] theorem writeMicro_err : (writeMicro T k s).err = s.err := by
  unfold writeMicro
  split <;> rfl

@[simp] theorem writeMicro_src : (writeMicro T k s).src = s.src := by
  unfold writeMicro
  split <;> rfl

/-- The last micro-step of a WRITE or not: the consumer's side and the setup are not touched (R16). -/
theorem writeMicro_frame : ProducerFrame s (writeMicro T k s) := by
  unfold writeMicro
  split <;> constructor <;> rfl

/-- A WRITE's micro-step does to the slots what a PUT of the byte does (R79). -/
theorem writeMicro_memRead (a : Nat) :
    (writeMicro T k s).memRead a = if a = s.slot s.wrPos then s.srcRead k else s.memRead a := by
  rw [← memRead_pushByte]
  exact memRead_congr (s := pushByte (s.srcRead k) s) (writeMicro_storage s) (writeMicro_frame s).storageEpoch a

/-- The one response of a WRITE is given by its last micro-step (R79). -/
theorem writeMicro_last_responded (h : k + 1#w = T) :
    (writeMicro T k s).pSeq = .idle ∧ Responded .producer .success none T s (writeMicro T k s) := by
  rw [writeMicro, if_pos h]
  exact ⟨rfl, respond_responded .producer .success none T fun q => by cases q <;> rfl⟩

/-- Before its last micro-step a WRITE counts up and gives no response. -/
theorem writeMicro_notLast_noResponse (h : k + 1#w ≠ T) :
    (writeMicro T k s).pSeq = .moving T (k + 1#w) ∧ NoResponse s (writeMicro T k s) := by
  rw [writeMicro, if_neg h]
  exact ⟨rfl, fun q => by cases q <;> rfl⟩

end WriteMicro

/-- The consumer's step during a READ (R73). -/
theorem portStep_consumer_moving {s : Block w} {T k : Word w} (hc : s.Clean) (h : s.cSeq = .moving T k) :
    portStep .consumer s = .next (readMicro T k s) := by
  rw [portStep_moving (p := .consumer) h, microStep, if_neg (Bool.eq_false_iff.1 hc)]

/-- The producer's step during a WRITE (R79). -/
theorem portStep_producer_moving {s : Block w} {T k : Word w} (hc : s.Clean) (h : s.pSeq = .moving T k) :
    portStep .producer s = .next (writeMicro T k s) := by
  rw [portStep_moving (p := .producer) h, microStep, if_neg (Bool.eq_false_iff.1 hc)]

/-- A presented source byte is the one read (R48). -/
theorem Block.srcRead_of_presented {s : Block w} {k : Word w} {b : Byte} (h : s.src[k.toNat]? = some b) :
    s.srcRead k = b := by
  rw [Block.srcRead, h, Option.getD_some]

/-- Settles O21: the step is `readMicro`, which writes `DST[k]` and its own registers, and responds if it is the
last. -/
theorem readMicroStepMovesOneByte : Obligations.ReadMicroStepMovesOneByte := by
  intro w s T k hc hq
  have hsame : Memory.read (readMicro T k s).dst k.toNat = some (s.memRead (s.slot s.rdPos)) := by
    rw [readMicro_dst, Memory.read_write_same, Block.headByte]
  have hother (a : Nat) (ha : a ≠ k.toNat) : Memory.read (readMicro T k s).dst a = Memory.read s.dst a := by
    rw [readMicro_dst, Memory.read_write_other _ _ _ _ ha]
  exact ⟨_, portStep_consumer_moving hc hq, hsame, hother, readMicro_rdPos s, readMicro_last_responded s,
    readMicro_notLast_noResponse s, readMicro_err s, (readMicro_frame s).keeps⟩

/-- Settles O24: the step is `writeMicro`, which writes `slot(WR_POS)` and its own registers, and responds if it is
the last. -/
theorem writeMicroStepMovesOneByte : Obligations.WriteMicroStepMovesOneByte := by
  intro w s T k hc hq
  have hsame : Memory.read (writeMicro T k s).storage (s.slot s.wrPos) = some (s.srcRead k) := by
    rw [writeMicro_storage, Memory.read_write_same]
  have hother (a : Nat) (ha : a ≠ s.slot s.wrPos) :
      Memory.read (writeMicro T k s).storage a = Memory.read s.storage a ∧
        (writeMicro T k s).memRead a = s.memRead a := by
    rw [writeMicro_storage, Memory.read_write_other _ _ _ _ ha, writeMicro_memRead, if_neg ha]
    exact ⟨rfl, rfl⟩
  exact ⟨_, portStep_producer_moving hc hq, hsame,
    fun b hb => hsame.trans (congrArg some (Block.srcRead_of_presented hb)), hother, writeMicro_wrPos s,
    writeMicro_last_responded s, writeMicro_notLast_noResponse s, writeMicro_err s, writeMicro_src s,
    (writeMicro_frame s).keeps⟩

end Sys2Proof.Machine

namespace Sys2Proof.Machine

/-! ### Data commands on an unconfigured block (60_exceptions.md R87) -/

/-- INIT is the host's only command, and no other port takes it (30_encoding.md R54 (c)). -/
theorem instr_port_eq_host_iff {i : Instr} : i.port = .host ↔ ∃ bp cap, i = .init bp cap := by
  cases i with
  | init bp cap => exact ⟨fun _ => ⟨bp, cap, rfl⟩, fun _ => rfl⟩
  | put | write | wrroom | get | peek | flush | read | rdavail => simp [Instr.port]

/-- Settles O13: a command that is no INIT is not the host's, so its UNCONFIGURED check comes before its own rule. -/
theorem dataCommandNeedsConfiguration : Obligations.DataCommandNeedsConfiguration := by
  intro w i s hinit _ hcfg
  have hport : i.port ≠ .host := fun h =>
    let ⟨bp, cap, hi⟩ := instr_port_eq_host_iff.1 h
    hinit bp cap hi
  exact exec_unconfigured_raisesOn hport hcfg

end Sys2Proof.Machine

namespace Sys2Proof.Machine

variable {w : Nat}

/-! ### Reset (70_reset_and_hazards.md R97) -/

/-- A reset step is `applyReset`, whatever the state, the fault mark included. -/
theorem step_reset {s : Block w} {rest : List Event} (hs : s.schedule = .reset :: rest) :
    step s.state = .next (applyReset { s with schedule := rest }).state :=
  (step_of_schedule hs).2 rfl

/-- Settles O29: the fields of `applyReset`, which keeps `DST` and the ports. -/
theorem resetReplacesTheBlockState : Obligations.ResetReplacesTheBlockState := by
  intro w s rest hs
  have hports : NoResponse s (applyReset { s with schedule := rest }) := fun q => by cases q <;> rfl
  exact ⟨⟨_, step_reset hs, rfl, rfl, rfl, rfl, rfl, rfl, rfl, Memory.read_nil, fun _ => rfl, hports, rfl⟩,
    fun _ => rfl⟩

/-! ### FLUSH and one byte, in either order (70_reset_and_hazards.md R106) -/

/-- With the counters equal nothing is stored. -/
theorem Block.contents_occ_of_pos_eq {t : Block w} (h : t.rdPos = t.wrPos) : t.contents = [] ∧ t.occ = 0#w := by
  have hocc : t.occ = 0#w := by rw [Block.occ_eq, h]; exact BitVec.sub_self _
  exact ⟨List.eq_nil_of_length_eq_zero (by simp [Block.length_contents, hocc]), hocc⟩

/-- A byte appended at `s`'s `WR_POS`, with `RD_POS` where a FLUSH of `s` puts it, is the only one stored: what `s` held
plays no part. -/
theorem Block.contents_occ_of_flushed_append {s t : Block w} {b : Byte}
    (hstorage : t.storage = Memory.write s.storage (s.slot s.wrPos) b) (hmask : t.mask = s.mask)
    (hwr : t.wrPos = s.wrPos + 1#w) (hrd : t.rdPos = s.wrPos) : t.contents = [b] ∧ t.occ = 1#w := by
  have hocc : t.occ = 1#w := by rw [Block.occ_eq, hwr, hrd]; ring
  have hslot : t.slot (t.rdPos + 0#w) = s.slot s.wrPos := by simp [Block.slot, hmask, hrd]
  have hread : t.memRead (s.slot s.wrPos) = b := by
    rw [Block.memRead, hstorage, Memory.read_write_same, Option.getD_some]
  refine ⟨?_, hocc⟩
  rw [Block.contents, hocc, toNat_one s.width_pos, List.range_one, List.map_singleton, hslot, hread]

/-- PUT on a configured block with room. -/
theorem exec_put_of_room {s : Block w} (h : s.cfg = true) (hroom : s.occ ≤ s.mask) (b : Byte) :
    exec (.put b) s.state = .next (respond .producer .success none 0#w (pushByte b s)).state := by
  rw [exec_put h, if_neg (BitVec.not_lt.2 hroom)]

/-- FLUSH on a configured block takes `RD_POS` to `WR_POS`, on the consumer's side alone. -/
theorem exec_flush_frame {s : Block w} (h : s.cfg = true) :
    ∃ t : Block w, exec .flush s.state = .next t.state ∧ ConsumerFrame s t ∧ t.rdPos = s.wrPos :=
  ⟨_, exec_flush h, by constructor <;> rfl, rfl⟩

/-- FLUSH on a configured block leaves nothing. -/
theorem exec_flush_empties {s : Block w} (h : s.cfg = true) :
    ∃ t : Block w, exec .flush s.state = .next t.state ∧ t.contents = [] ∧ t.occ = 0#w := by
  obtain ⟨t, hflush, frame, hrd⟩ := exec_flush_frame h
  exact ⟨t, hflush, Block.contents_occ_of_pos_eq (hrd.trans frame.wrPos.symm)⟩

/-- A PUT after a FLUSH finds room, and its byte is the only one. -/
theorem exec_flush_then_put {s : Block w} (h : s.cfg = true) (b : Byte) :
    ∃ t u : Block w, exec .flush s.state = .next t.state ∧ exec (.put b) t.state = .next u.state ∧
      u.contents = [b] ∧ u.occ = 1#w := by
  obtain ⟨t, hflush, frame, hrd⟩ := exec_flush_frame h
  have hempty : t.rdPos = t.wrPos := hrd.trans frame.wrPos.symm
  have hroom : t.occ ≤ t.mask := by simp [(Block.contents_occ_of_pos_eq hempty).2, BitVec.le_def]
  exact ⟨t, _, hflush, exec_put_of_room (frame.cfg.trans h) hroom b,
    Block.contents_occ_of_flushed_append (s := t) rfl rfl rfl hempty⟩

/-- After a FLUSH a WRITE's micro-step leaves its byte as the only one. -/
theorem exec_flush_then_writeMicro {s : Block w} {T k : Word w} (hc : s.Clean) (h : s.cfg = true)
    (hq : s.pSeq = .moving T k) :
    ∃ t u : Block w, exec .flush s.state = .next t.state ∧ portStep .producer t = .next u ∧
      u.contents = [s.srcRead k] ∧ u.occ = 1#w := by
  obtain ⟨t, hflush, frame, hrd⟩ := exec_flush_frame h
  have hsrc : s.srcRead k = t.srcRead k := by rw [Block.srcRead, Block.srcRead, frame.src, frame.producer]
  have hwrite := writeMicro_frame (T := T) (k := k) t
  refine ⟨t, _, hflush, portStep_producer_moving (frame.initc.trans hc) (frame.pSeq.trans hq), ?_⟩
  rw [hsrc]
  exact Block.contents_occ_of_flushed_append (writeMicro_storage t) hwrite.mask (writeMicro_wrPos t)
    (hwrite.rdPos.trans (hrd.trans frame.wrPos.symm))

/-! ### FLUSH and one byte at the same clock edge (20_memory.md R42) -/

/-- A step of the port runs the command presented, on the block with that command taken off the port's queue and its
buffer in place (R50). -/
theorem Presents.portStep_eq {p : Port} {i : Instr} {s : Block w} (h : Presents p i s) :
    ∃ buf cs, portStep p s = runCommand i (present i buf (s.setPending p cs)) := by
  obtain ⟨hidle, c, cs, hpending, hdecode⟩ := h
  exact ⟨c.buf, cs, by simp only [portStep, hidle, hpending, accept, hdecode]⟩

/-- The consumer's step with a FLUSH presented. -/
theorem portStep_flush {s : Block w} (h : s.cfg = true) (hf : Presents .consumer .flush s) :
    ∃ t, portStep .consumer s = .next t ∧ t.rdPos = s.wrPos := by
  obtain ⟨buf, cs, hstep⟩ := hf.portStep_eq
  exact ⟨_, hstep.trans (runCommand_eq.2 (exec_flush (s := s.setPending .consumer cs) h)), rfl⟩

/-- The producer's step with a PUT presented, in a block with room. -/
theorem portStep_put {s : Block w} {b : Byte} (h : s.cfg = true) (hroom : s.occ ≤ s.mask)
    (hp : Presents .producer (.put b) s) :
    ∃ t, portStep .producer s = .next t ∧ t.wrPos = s.wrPos + 1#w ∧
      t.storage = Memory.write s.storage (s.slot s.wrPos) b := by
  obtain ⟨buf, cs, hstep⟩ := hp.portStep_eq
  exact ⟨_, hstep.trans (runCommand_eq.2 (exec_put_of_room (s := s.setPending .producer cs) h hroom b)), rfl, rfl⟩

/-- A busy port acts at a clock edge whatever its agent presents (R74). -/
theorem edgePort_moving {p : Port} {s : Block w} {T k : Word w} (v : Bool) (h : s.seq p = .moving T k) :
    edgePort v p s = portStep p s := by
  simp [edgePort, Block.busy, h]

/-- A clock edge with no host command leaves the merged sides: the host has no sequencer that could act by itself. -/
theorem clockCycle_noHost {s sp sc : Block w} {p c : Bool} (hsp : edgePort p .producer s = .next sp)
    (hsc : edgePort c .consumer s = .next sc) : clockCycle false p c s = .next (mergeSides s sp sc) := by
  rw [clockCycle, hsp, andThen_next, hsc, andThen_next]
  rfl

/-- At a clock edge with a FLUSH and no host command, a producer's step that appends a byte leaves it as the only one:
the FLUSH takes the `WR_POS` from before the edge. -/
theorem clockCycle_flush_append {s sp : Block w} {b : Byte} {p : Bool} (hcfg : s.cfg = true)
    (hf : Presents .consumer .flush s) (hsp : edgePort p .producer s = .next sp) (hwr : sp.wrPos = s.wrPos + 1#w)
    (hstorage : sp.storage = Memory.write s.storage (s.slot s.wrPos) b) :
    ∃ t : Block w, clockCycle false p true s = .next t ∧ t.contents = [b] ∧ t.occ = 1#w := by
  obtain ⟨sc, hsc, hrd⟩ := portStep_flush hcfg hf
  exact ⟨_, clockCycle_noHost hsp hsc, Block.contents_occ_of_flushed_append hstorage rfl hwr hrd⟩

/-- R106's clock edge with a PUT. -/
theorem clockCycle_flush_put {s : Block w} {b : Byte} (hcfg : s.cfg = true) (hf : Presents .consumer .flush s)
    (hroom : s.occ ≤ s.mask) (hput : Presents .producer (.put b) s) :
    ∃ t : Block w, clockCycle false true true s = .next t ∧ t.contents = [b] ∧ t.occ = 1#w := by
  obtain ⟨sp, hsp, hwr, hstorage⟩ := portStep_put hcfg hroom hput
  exact clockCycle_flush_append hcfg hf hsp hwr hstorage

/-- R106's clock edge with a WRITE in progress, whether its agent presents a command or not. -/
theorem clockCycle_flush_writeMicro {s : Block w} {T k : Word w} (p : Bool) (hc : s.Clean) (hcfg : s.cfg = true)
    (hf : Presents .consumer .flush s) (hq : s.pSeq = .moving T k) :
    ∃ t : Block w, clockCycle false p true s = .next t ∧ t.contents = [s.srcRead k] ∧ t.occ = 1#w :=
  clockCycle_flush_append hcfg hf ((edgePort_moving (p := .producer) p hq).trans (portStep_producer_moving hc hq))
    (writeMicro_wrPos s) (writeMicro_storage s)

/-- While `ERR.INITC = 0` a step whose event is a clock edge with no observation request is that edge. -/
theorem step_cycle {s t : Block w} {h p c : Bool} {rest : List Event} (hc : s.Clean)
    (hs : s.schedule = .cycle h p c none :: rest) (hx : clockCycle h p c { s with schedule := rest } = .next t) :
    step s.state = .next t.state := by
  rw [step_of_schedule hs, runEvent, mapNext_settle_clean _ (by exact hc)]
  exact hx

/-- Settles O45: FLUSH puts `RD_POS` at the `WR_POS` it sees, so a byte appended after it, or at its own clock edge, is
the only one left, and one appended before it is not. -/
theorem flushAndPutRaceHasTwoOutcomes : Obligations.FlushAndPutRaceHasTwoOutcomes := by
  intro w s b _ hc hcfg
  refine ⟨exec_flush_then_put hcfg b, fun hroom => ?_, fun T k hq => ⟨exec_flush_then_writeMicro hc hcfg hq, ?_⟩,
    fun p rest hs hf => ⟨fun hp hput hroom => ?_, fun T k hq => ?_⟩⟩
  · obtain ⟨u, hflush, hempty⟩ := exec_flush_empties (s := respond .producer .success none 0#w (pushByte b s)) hcfg
    exact ⟨_, u, exec_put_of_room hcfg hroom b, hflush, hempty⟩
  · obtain ⟨u, hflush, hempty⟩ := exec_flush_empties ((writeMicro_frame (T := T) (k := k) s).cfg.trans hcfg)
    exact ⟨_, u, portStep_producer_moving hc hq, hflush, hempty⟩
  · subst hp
    obtain ⟨t, hx, hbyte⟩ := clockCycle_flush_put (s := { s with schedule := rest }) hcfg hf hroom hput
    exact ⟨t, step_cycle hc hs hx, hbyte⟩
  · obtain ⟨t, hx, hbyte⟩ := clockCycle_flush_writeMicro (s := { s with schedule := rest }) p hc hcfg hf hq
    exact ⟨t, step_cycle hc hs hx, hbyte⟩

end Sys2Proof.Machine

namespace Sys2Proof

variable {w : Nat}

/-! ### The decoder and the encoder (30_encoding.md R51 to R54) -/

/-- The decoder reads a command's own word back, with every operand the width holds. -/
theorem decode_encode {i : Instr} (h : wfWidth w i = true) : decode (encode w i) = .ok i := by
  rw [decode_ok_iff]
  cases i with
  | init _ n | write n | peek n | read n =>
    have hn : (BitVec.ofNat w n).toNat = n := Laws.OwnPort.toNat_ofNat_of_lt h
    simp [encode, -BitVec.toNat_ofNat, hn]
  | put | wrroom | get | flush | rdavail => simp [encode]

/-- A port takes its own commands and refuses the others' as a wrong port (R54 (c)). -/
theorem decodeAt_of_decode {c : CmdWord w} {i : Instr} (h : decode c = .ok i) (p : Port) :
    decodeAt p c = if i.port = p then .ok i else .error .wrongPort := by
  simp only [decodeAt, h]

/-- Settles O1: the round trip of each row, and the port check on what it gives. -/
theorem encodedCommandDecodesToItself : Obligations.EncodedCommandDecodesToItself :=
  fun _ _ h => ⟨decode_encode h, decodeAt_of_decode (decode_encode h)⟩

/-- A decoded operand is one that `arg` holds (R52). -/
theorem wfWidth_of_decode {c : CmdWord w} {i : Instr} (h : decode c = .ok i) : wfWidth w i = true := by
  obtain ⟨-, hrow⟩ := (decode_ok_iff c i).1 h
  have harg : (argField c).toNat < 2 ^ w := (argField c).isLt
  cases i with
  | init | write | peek | read => simp_all [wfWidth]
  | put | wrroom | get | flush | rdavail => rfl

/-- A word with the reserved bits 0 is made of its other fields (R51). -/
theorem eq_commandWord_fields {c : CmdWord w} (h : rsvField c = 0#3) :
    c = commandWord (opField c) (dataField c) (bpField c) (argField c) := by
  apply BitVec.eq_of_toNat_eq
  rw [rsvField_eq_zero] at h
  rw [commandWord_toNat, argField_toNat, dataField_toNat, opField_toNat, bpField_eq]
  rcases Nat.mod_two_eq_zero_or_one (c.toNat / 2 ^ 12) with hbp | hbp <;> simp only [hbp] <;> simp <;> omega

/-- A mask of whole fields, with all of `op` and `rsv`, keeps those fields and clears the others. -/
theorem commandWord_and_fieldMask (op : BitVec 4) (d : Byte) (bp : Bool) (a : Word w) (useArg useBp useData : Bool) :
    commandWord op d bp a &&& fieldMask useArg
        (0x7#3 ++ BitVec.ofBool useBp ++ (if useData then BitVec.allOnes 8 else 0#8) ++ 0xF#4) =
      commandWord op (if useData then d else 0#8) (bp && useBp) (if useArg then a else 0#w) := by
  have hop : op &&& 0xF#4 = op := BitVec.and_allOnes
  have hrsv : 0#3 &&& 0x7#3 = 0#3 := BitVec.zero_and
  have hbp : BitVec.ofBool bp &&& BitVec.ofBool useBp = BitVec.ofBool (bp && useBp) := by
    cases bp <;> cases useBp <;> rfl
  simp only [commandWord, fieldMask, BitVec.and_append, hop, hrsv, hbp, apply_ite (a &&& ·), apply_ite (d &&& ·),
    BitVec.and_allOnes, BitVec.and_zero]

/-- The used bits of a decoded word are its command's word. -/
theorem encode_eq_and_usedMask {c : CmdWord w} {i : Instr} (h : decode c = .ok i) :
    encode w i = c &&& usedMask w i := by
  obtain ⟨hrsv, hrow⟩ := (decode_ok_iff c i).1 h
  have hand (useArg useBp useData : Bool) :=
    commandWord_and_fieldMask (opField c) (dataField c) (bpField c) (argField c) useArg useBp useData
  rw [← eq_commandWord_fields hrsv] at hand
  have hopcode {n : Nat} (hn : (opField c).toNat = n) : opField c = BitVec.ofNat 4 n := by
    rw [← hn, BitVec.ofNat_toNat, BitVec.setWidth_eq]
  cases i with
  | init bp cap =>
    obtain ⟨hop, rfl, rfl⟩ : _ ∧ bp = bpField c ∧ cap = (argField c).toNat := by simpa using hrow
    simpa [encode, usedMask, hopcode hop] using (hand true true false).symm
  | put b =>
    obtain ⟨hop, rfl⟩ : _ ∧ b = dataField c := by simpa using hrow
    simpa [encode, usedMask, hopcode hop] using (hand false false true).symm
  | write n | peek n | read n =>
    obtain ⟨hop, rfl⟩ : _ ∧ n = (argField c).toNat := by simpa using hrow
    simpa [encode, usedMask, hopcode hop] using (hand true false false).symm
  | wrroom | get | flush | rdavail =>
    simp only [reduceCtorEq, and_false, and_true, or_false, false_or] at hrow
    simpa [encode, usedMask, hopcode hrow] using (hand false false false).symm

/-- Settles O2: the operands come from `arg`, and the command's word is the word under its mask. -/
theorem decodedWordIsEncodingUpToIgnoredFields : Obligations.DecodedWordIsEncodingUpToIgnoredFields :=
  fun _ _ h => ⟨wfWidth_of_decode h, encode_eq_and_usedMask h⟩
/-! ### Values on a byte-wide bus (20_memory.md R36) -/

@[simp] theorem length_busBytes {n : Nat} (v : BitVec n) : (busBytes v).length = busLength n := by simp [busBytes]

/-- One more byte at the end counts for the bits above those before it. -/
theorem busNumber_append_singleton (bs : List Byte) (b : Byte) :
    busNumber (bs ++ [b]) = busNumber bs + 2 ^ (8 * bs.length) * b.toNat := by
  induction bs with
  | nil => simp [busNumber]
  | cons c bs ih =>
    rw [List.cons_append, busNumber, busNumber, ih, List.length_cons, Nat.mul_succ, Nat.pow_add]
    ring

/-- The first `m` bytes of a value make its low `8 m` bits. -/
theorem busNumber_map_extractLsb' {n : Nat} (v : BitVec n) (m : Nat) :
    busNumber ((List.range m).map fun j => v.extractLsb' (8 * j) 8) = v.toNat % 2 ^ (8 * m) := by
  induction m with
  | zero => simp [busNumber, Nat.mod_one]
  | succ m ih =>
    have hbyte : (v.extractLsb' (8 * m) 8).toNat = v.toNat / 2 ^ (8 * m) % 2 ^ 8 := by
      rw [BitVec.extractLsb'_toNat, Nat.shiftRight_eq_div_pow]
    rw [List.range_succ, List.map_append, List.map_singleton, busNumber_append_singleton, ih, hbyte, List.length_map,
      List.length_range, Nat.mul_succ, Nat.pow_add, Nat.mod_mul]

/-- All the bytes of a value make it. -/
theorem busNumber_busBytes {n : Nat} (v : BitVec n) : busNumber (busBytes v) = v.toNat := by
  have hfits : n ≤ 8 * busLength n := by unfold busLength; omega
  rw [busBytes, busNumber_map_extractLsb', Nat.mod_eq_of_lt (v.isLt.trans_le (Nat.pow_le_pow_right (by omega) hfits))]

theorem ofBusBytes_busBytes {n : Nat} (v : BitVec n) : ofBusBytes n (busBytes v) = some v := by
  rw [ofBusBytes, if_pos (length_busBytes v), busNumber_busBytes, BitVec.ofNat_toNat, BitVec.setWidth_eq]

/-- Byte `j` on the bus is bits `8j+7` to `8j` of the value. -/
theorem getElem?_busBytes {n j : Nat} (v : BitVec n) (h : j < busLength n) :
    (busBytes v)[j]? = some (v.extractLsb' (8 * j) 8) := by
  simp [busBytes, h]

/-- Settles O6: each byte is a field of the value, and the bytes' number is the value. -/
theorem busBytesCarryTheValue : Obligations.BusBytesCarryTheValue := fun v =>
  ⟨ofBusBytes_busBytes v, length_busBytes v, fun _ hj =>
    ⟨_, getElem?_busBytes v hj, by rw [BitVec.extractLsb'_toNat, Nat.shiftRight_eq_div_pow]⟩⟩

/-! ### Words and codes the spec writes out -/

/-- Settles O5: the decoder runs on each word. -/
theorem specExampleWordsDecode : Obligations.SpecExampleWordsDecode := ⟨rfl, rfl, rfl, rfl, rfl⟩

/-- A code below 8 is the code of the status that its low three bits name. -/
theorem code_ofCode : ∀ c : BitVec 4, c.toNat < 8 → (Status.ofCode (c.setWidth 3)).code = c := by decide

/-- Settles O47: the table row by row, and `Status.ofCode` for the codes below 8. -/
theorem statusCodesAreTheTable : Obligations.StatusCodesAreTheTable := by
  refine ⟨rfl, rfl, rfl, rfl, rfl, rfl, rfl, rfl, fun c => ⟨?_, fun h => ⟨_, code_ofCode c h⟩⟩⟩
  rintro ⟨st, rfl⟩
  cases st <;> decide

end Sys2Proof

namespace Sys2Proof.Machine

variable {w : Nat}

/-! ### Every step goes on (60_exceptions.md R85, R93) -/

theorem runCommand_goesOn (i : Instr) (s : Block w) : ∃ t, runCommand i s = .next t :=
  let ⟨t, h⟩ := exec_goesOn i s
  ⟨t, runCommand_eq.2 h⟩

theorem accept_goesOn (p : Port) (c : Command w) (s : Block w) : ∃ t, accept p c s = .next t := by
  unfold accept
  split
  · exact runCommand_goesOn _ _
  · exact ⟨_, rfl⟩

theorem portStep_goesOn (p : Port) (s : Block w) : ∃ t, portStep p s = .next t := by
  unfold portStep
  split
  · exact ⟨_, rfl⟩
  · split
    · exact ⟨_, rfl⟩
    · exact accept_goesOn _ _ _

theorem edgePort_goesOn (v : Bool) (p : Port) (s : Block w) : ∃ t, edgePort v p s = .next t := by
  unfold edgePort
  split
  · exact portStep_goesOn p s
  · exact ⟨_, rfl⟩

/-- At a clock edge the two sides step from the state before it, and the host from what they leave (R42). -/
theorem clockCycle_sides (h p c : Bool) (s : Block w) :
    ∃ sp sc t, edgePort p .producer s = .next sp ∧ edgePort c .consumer s = .next sc ∧
      edgePort h .host (mergeSides s sp sc) = .next t ∧ clockCycle h p c s = .next t := by
  obtain ⟨sp, hsp⟩ := edgePort_goesOn p .producer s
  obtain ⟨sc, hsc⟩ := edgePort_goesOn c .consumer s
  obtain ⟨t, ht⟩ := edgePort_goesOn h .host (mergeSides s sp sc)
  exact ⟨sp, sc, t, hsp, hsc, ht, by rw [clockCycle, hsp, andThen_next, hsc, andThen_next, ht]⟩

theorem runEvent_goesOn (e : Event) (s : Block w) : ∃ t, runEvent e s = .next t := by
  cases e with
  | agent p =>
    obtain ⟨t, ht⟩ := portStep_goesOn p s
    exact ⟨_, by rw [runEvent, ht, mapNext_next]⟩
  | cycle h p c o =>
    obtain ⟨-, -, t, -, -, -, ht⟩ := clockCycle_sides h p c (observeWith o s)
    exact ⟨_, by rw [runEvent, ht, mapNext_next]⟩
  | observe r => exact ⟨_, rfl⟩
  | reset => exact ⟨_, rfl⟩

/-- Settles O11: the parts of a step go on, one after another. -/
theorem everyStepGoesOn : Obligations.EveryStepGoesOn := by
  intro w s
  obtain ⟨t, ht⟩ := runEvent_goesOn (nextEvent s) (popEvent s)
  exact ⟨fun i => exec_goesOn i s, t, step_eq_next.2 ht⟩

/-! ### The sticky bits (10_state.md R20) -/

/-- Every bit of `ERR` that is set in `s` is set in `t`. -/
def KeepsSticky (s t : Block w) : Prop := s.err &&& t.err = s.err

theorem keepsSticky_of_eq {s t : Block w} (h : t.err = s.err) : KeepsSticky s t := by
  rw [KeepsSticky, h, BitVec.and_self]

/-- Setting bits keeps those that are set. -/
theorem keepsSticky_of_or {s t : Block w} {e : BitVec 3} (h : t.err = s.err ||| e) : KeepsSticky s t := by
  rw [KeepsSticky, h]
  ext j
  simp +contextual

theorem KeepsSticky.trans {s t u : Block w} (hst : KeepsSticky s t) (htu : KeepsSticky t u) : KeepsSticky s u := by
  calc s.err &&& u.err = s.err &&& t.err &&& u.err := by rw [hst]
    _ = s.err &&& t.err := by rw [BitVec.and_assoc, htu]
    _ = s.err := hst

/-- A kept bit is not lost by setting it again. -/
theorem KeepsSticky.or_eq {s t : Block w} (h : KeepsSticky s t) : s.err ||| t.err = t.err := by
  rw [← h]
  ext j
  simp +contextual

/-- A set fault mark stays set (R88). -/
theorem KeepsSticky.initc {s t : Block w} (h : KeepsSticky s t) (hs : s.initc = true) : t.initc = true := by
  have hbit := congrArg (·.getLsbD 2) h
  simp only [BitVec.getLsbD_and] at hbit
  rw [Block.initc] at hs ⊢
  simpa [hs] using hbit

/-- A data command sets no sticky bit but `ERR.UNCFG`, and leaves `MASK` and `CFG` (R18, R19, R87). -/
theorem exec_data_setup_err {i : Instr} {s t : Block w} (hp : i.port ≠ .host) (hx : exec i s.state = .next t.state) :
    t.mask = s.mask ∧ t.cfg = s.cfg ∧ (t.err = s.err ∨ t.err = s.err ||| errUncfg) := by
  by_cases hcfg : s.cfg = true
  · cases i <;> simp only [exec, execInit, execPut, execGet, execPeek, execFlush, execRead, execRdavail, execWrite,
      execWrroom, whenConfigured_true _ _ hcfg, goOn_state, Host.Outcome.next.injEq, state_inj] at hx
    case init => exact absurd rfl hp
    all_goals
      subst hx
      (repeat' split) <;> exact ⟨by simp, by simp, .inl (by simp)⟩
  · rw [exec_unconfigured hp (by simpa using hcfg), Host.Outcome.next.injEq, state_inj] at hx
    subst hx
    exact ⟨by simp, by simp, .inr (by simp [StickyError.bit])⟩

/-- INIT sets no sticky bit but, in a conflict, `ERR.INITC` (R61, R62). -/
theorem exec_init_keepsSticky {bp : Bool} {cap : Nat} {s t : Block w}
    (hx : exec (.init bp cap) s.state = .next t.state) : KeepsSticky s t := by
  simp only [exec, execInit, goOn_state, Host.Outcome.next.injEq, state_inj] at hx
  subst hx
  split
  · exact keepsSticky_of_or (e := errInitc) rfl
  · (repeat' split) <;> exact keepsSticky_of_eq (by simp)

theorem exec_keepsSticky {i : Instr} {s t : Block w} (hx : exec i s.state = .next t.state) : KeepsSticky s t := by
  by_cases hp : i.port = .host
  · obtain ⟨bp, cap, rfl⟩ := instr_port_eq_host_iff.1 hp
    exact exec_init_keepsSticky hx
  · obtain ⟨-, -, herr | herr⟩ := exec_data_setup_err hp hx
    · exact keepsSticky_of_eq herr
    · exact keepsSticky_of_or herr

/-- A micro-step records no error, with the fault mark set or not. -/
@[simp] theorem microStep_err (p : Port) (T k : Word w) (s : Block w) : (microStep p T k s).err = s.err := by
  unfold microStep
  split
  · unfold unspecifiedMicro
    split
    · cases p <;> rfl
    · rfl
  · cases p with
    | host => rfl
    | producer => exact writeMicro_err s
    | consumer => exact readMicro_err s

@[simp] theorem present_err (i : Instr) (buf : Option (List Byte)) (s : Block w) : (present i buf s).err = s.err := by
  cases i <;> rfl

theorem portStep_keepsSticky {p : Port} {s t : Block w} (h : portStep p s = .next t) : KeepsSticky s t := by
  rcases portStep_cases h with ⟨T, k, -, rfl⟩ | ⟨-, -, rfl⟩ | ⟨-, c, cs, -, ⟨-, -, rfl⟩ | ⟨i, -, -, hx⟩⟩
  · exact keepsSticky_of_eq (microStep_err p T k s)
  · exact keepsSticky_of_eq rfl
  · exact keepsSticky_of_or (e := errIll) (by simp [StickyError.bit])
  · exact (keepsSticky_of_eq (by simp)).trans (exec_keepsSticky hx)

theorem edgePort_keepsSticky {v : Bool} {p : Port} {s t : Block w} (h : edgePort v p s = .next t) :
    KeepsSticky s t := by
  unfold edgePort at h
  split at h
  · exact portStep_keepsSticky h
  · cases h
    exact keepsSticky_of_eq rfl

/-- A clock edge keeps what either side has set, and the host's step keeps that. -/
theorem clockCycle_keepsSticky {h p c : Bool} {s t : Block w} (hx : clockCycle h p c s = .next t) :
    KeepsSticky s t := by
  obtain ⟨sp, hsp, hx⟩ := andThen_eq_next hx
  obtain ⟨sc, -, hx⟩ := andThen_eq_next hx
  have hmerge : KeepsSticky sp (mergeSides s sp sc) := keepsSticky_of_or (e := sc.err) rfl
  exact ((edgePort_keepsSticky hsp).trans hmerge).trans (edgePort_keepsSticky hx)

@[simp] theorem settle_err (s t : Block w) : (settle s t).err = t.err := by
  unfold settle
  split <;> rfl

@[simp] theorem observeWith_err (o : Option (BitVec 3)) (s : Block w) : (observeWith o s).err = s.err := by
  cases o <;> rfl

theorem runEvent_keepsSticky {e : Event} {s t : Block w} (he : e ≠ .reset) (h : runEvent e s = .next t) :
    KeepsSticky s t := by
  cases e with
  | agent p =>
    obtain ⟨u, hu, rfl⟩ := mapNext_eq_next h
    exact (portStep_keepsSticky hu).trans (keepsSticky_of_eq (settle_err s u))
  | cycle a b c o =>
    obtain ⟨u, hu, rfl⟩ := mapNext_eq_next h
    have hobs : KeepsSticky s (observeWith o s) := keepsSticky_of_eq (observeWith_err o s)
    exact (hobs.trans (clockCycle_keepsSticky hu)).trans (keepsSticky_of_eq (settle_err s u))
  | observe r =>
    cases h
    exact keepsSticky_of_eq (by simp)
  | reset => exact absurd rfl he

/-- Settles O37: no event but reset clears a bit, whichever operation it runs. -/
theorem stickyBitsStayUntilReset : Obligations.StickyBitsStayUntilReset :=
  fun s _ he h => runEvent_keepsSticky (s := popEvent s) he (step_eq_next.1 h)

/-- Settles O15: the conflict's own bit, and the fault mark as one of the sticky bits. -/
theorem initConflictSetsTheFaultMark : Obligations.InitConflictSetsTheFaultMark :=
  ⟨fun _ bp cap h => ⟨_, exec_init_busy h bp cap, rfl⟩, fun s t hs he h =>
    KeepsSticky.initc (stickyBitsStayUntilReset s t he h) hs⟩

/-! ### What a port's step takes and presents (20_memory.md R48, 30_encoding.md R50) -/

/-- Settles O8: `cmd_ready` is the sequencer's state, and a busy port's step is a micro-step. -/
theorem busyPortTakesNoCommand : Obligations.BusyPortTakesNoCommand := fun s p =>
  ⟨by simp [Block.cmdReady, Block.busy_eq_false], rfl, fun T k h => ⟨_, portStep_moving h, microStep_pending p T k s⟩⟩

@[simp] theorem present_none (i : Instr) (s : Block w) : present i none s = s := by cases i <;> rfl

/-- A buffer that comes with a command that uses none is not looked at. -/
theorem present_of_not_bulk {i : Instr} (h : ∀ x, i ≠ .write x ∧ i ≠ .read x) (buf : Option (List Byte)) (s : Block w) :
    present i buf s = s := by
  cases i with
  | write n => exact absurd rfl (h n).1
  | read n => exact absurd rfl (h n).2
  | init | put | wrroom | get | peek | flush | rdavail => rfl

/-- Presenting a buffer writes nothing but `SRC` and `DST`. -/
theorem present_eq_with (i : Instr) (buf : Option (List Byte)) (s : Block w) :
    ∃ src dst, present i buf s = { s with src := src, dst := dst } := by
  cases i <;> exact ⟨_, _, rfl⟩

/-- Settles O9: the two buffers, and no field but them. -/
theorem presentedBufferIsTheCommands : Obligations.PresentedBufferIsTheCommands := by
  intro w s n bs
  refine ⟨fun _ => rfl, fun _ => rfl, Memory.read_ofBytes bs, rfl, fun i => present_none i s,
    fun _ buf h => present_of_not_bulk h buf s, fun i buf => ?_⟩
  obtain ⟨src, dst, h⟩ := present_eq_with i buf s
  rw [h]
  exact ⟨fun _ => ⟨rfl, rfl⟩, rfl, rfl, rfl, rfl, rfl, ⟨rfl, rfl, rfl⟩, ⟨rfl, rfl⟩, fun q => by cases q <;> rfl⟩

/-! ### One step of the machine, by its event (20_memory.md R40) -/

/-- An idle port whose next command is one of its own runs it, with the buffer presented (R50). -/
theorem portStep_of_decodeAt {p : Port} {s : Block w} {c : Command w} {cs : List (Command w)} {i : Instr}
    (hq : s.seq p = .idle) (hcs : (s.port p).pending = c :: cs) (hd : decodeAt p c.word = .ok i) :
    portStep p s = runCommand i (present i c.buf (s.setPending p cs)) := by
  simp only [portStep, hq, hcs, accept, hd]

/-- Settles O7: the agent's event is the port's step, which runs the command. -/
theorem stepRunsTheDecodedCommand : Obligations.StepRunsTheDecodedCommand := by
  intro w s p c cs i rest hs hq hcs hd
  obtain ⟨t, ht⟩ := exec_goesOn i (present i c.buf (Block.setPending { s with schedule := rest } p cs))
  have hport : portStep p { s with schedule := rest } = .next t :=
    (portStep_of_decodeAt (by cases p <;> exact hq) (by cases p <;> exact hcs) hd).trans (runCommand_eq.2 ht)
  have hstep : step s.state = .next (settle s t).state := by
    rw [step_of_schedule hs, runEvent, hport, mapNext_next]
    rfl
  exact ⟨⟨t, ht, hstep⟩, fun hc => by rw [hstep, ht, settle_clean t hc]⟩

/-- A table word that decodes is the word itself on the bus and back (R36). -/
theorem decode_of_decodeTableWordAt {nbits c : Nat} {i : Instr} (h : decodeTableWordAt w nbits c = some i) :
    decode (tableWord w nbits c) = .ok i := by
  rw [decodeTableWordAt, decodeBytes, ofBusBytes_busBytes] at h
  cases hd : decode (tableWord w nbits c) with
  | ok j => simpa [hd, Except.toOption] using h
  | error r => simp [hd, Except.toOption] at h

/-- A decoded word's opcode is assigned to its command's port (R53). -/
theorem fetchPort_of_decode {c : CmdWord w} {i : Instr} (h : decode c = .ok i) : fetchPort c = i.port := by
  obtain ⟨-, hrow⟩ := (decode_ok_iff c i).1 h
  rcases hrow with ⟨hop, rfl⟩ | ⟨hop, rfl⟩ | ⟨hop, rfl⟩ | ⟨hop, rfl⟩ | ⟨hop, rfl⟩ | ⟨hop, rfl⟩ | ⟨hop, rfl⟩ |
    ⟨hop, rfl⟩ | ⟨hop, rfl⟩ <;> simp [fetchPort, portOfOp, hop, Instr.port]

/-- A placed command is the next one run, on the block with its port idle (log 4). -/
theorem step_placeCommand {s : Block w} {c : Command w} {i : Instr} (hc : s.Clean) (hd : decode c.word = .ok i)
    (hbuf : c.buf = none) : step (placeCommand i.port c s).state = exec i (s.setIdle i.port).state := by
  have hport : decodeAt i.port c.word = .ok i := by rw [decodeAt_of_decode hd, if_pos rfl]
  obtain ⟨-, hrun⟩ := stepRunsTheDecodedCommand (placeCommand i.port c s) i.port c (s.port i.port).pending i s.schedule
    rfl (by cases i.port <;> rfl) (by cases i.port <;> rfl) hport
  rw [hrun (by cases i.port <;> exact hc), hbuf, present_none]
  cases i.port <;> rfl

/-- Settles O10: the table word decodes on its opcode's port, where it is placed. -/
theorem stepRunsTheFetchWord : Obligations.StepRunsTheFetchWord := by
  refine ⟨fun s nbits c i hc h => ?_, fun _ _ => rfl⟩
  have hd := decode_of_decodeTableWordAt h
  rw [State.withFetchWord, fetchPort_of_decode hd]
  exact step_placeCommand hc hd rfl

/-- An idle port with no command presented does nothing at a clock edge. -/
theorem edgePort_idle {p : Port} {s : Block w} (h : s.seq p = .idle) : edgePort false p s = .next s := by
  rw [edgePort, Block.busy_eq_false.2 h]
  rfl

/-- Two sides that do nothing leave the state. -/
theorem mergeSides_self (s : Block w) : mergeSides s s s = s := by
  rw [mergeSides, BitVec.or_self]

/-- Settles O12: past the end of the schedule a step is a clock edge with nothing to do. -/
theorem idleBlockStaysAsItIs : Obligations.IdleBlockStaysAsItIs := by
  intro w s hc hs hp hq
  have hpop : popEvent s = s := by rw [popEvent, hs, List.tail_nil, ← hs]
  have hcycle : clockCycle false false false s = .next s := by
    rw [clockCycle_noHost (edgePort_idle hp) (edgePort_idle hq), mergeSides_self]
  rw [step_eq_next, hpop, nextEvent, hs, runEvent, mapNext_settle_clean _ hc]
  exact hcycle

end Sys2Proof.Machine

namespace Sys2Proof.Machine

variable {w : Nat}

/-! ### The comparator and the slots (10_state.md R28, R29; 20_memory.md R44) -/

/-- The top bit of a counter of `w + 1` bits, and its low `w` bits, as numbers. -/
theorem toNat_eq_msb_add_low (x : BitVec (w + 1)) :
    x.toNat = x.msb.toNat * 2 ^ w + (x.setWidth w).toNat ∧ (x.setWidth w).toNat < 2 ^ w := by
  have hlt := x.isLt
  rw [Nat.pow_succ] at hlt
  rw [BitVec.toNat_setWidth, BitVec.msb_eq_decide]
  refine ⟨?_, Nat.mod_lt _ (Nat.two_pow_pos w)⟩
  simp only [Nat.add_sub_cancel]
  by_cases h : 2 ^ w ≤ x.toNat
  · simp only [h, decide_true, Bool.toNat_true]
    rw [Nat.mod_eq_sub_mod h, Nat.mod_eq_of_lt (by omega)]
    omega
  · simp only [h, decide_false, Bool.toNat_false]
    rw [Nat.mod_eq_of_lt (by omega)]
    omega

/-- Counters half their range apart: the top bits differ and the low bits agree (R29). -/
theorem occupancy_eq_half_iff (rd wr : BitVec (w + 1)) :
    (occupancy wr rd).toNat = 2 ^ w ↔ wr.msb ≠ rd.msb ∧ wr.setWidth w = rd.setWidth w := by
  obtain ⟨hwr, hwrLow⟩ := toNat_eq_msb_add_low wr
  obtain ⟨hrd, hrdLow⟩ := toNat_eq_msb_add_low rd
  have hsub := toNat_sub_cases wr rd
  have hpow : 2 ^ (w + 1) = 2 * 2 ^ w := Nat.pow_succ'
  rw [← BitVec.toNat_inj, occupancy]
  cases hw : wr.msb <;> cases hr : rd.msb <;>
    simp only [hw, hr, Bool.toNat_true, Bool.toNat_false, ne_eq, reduceCtorEq, not_true_eq_false, not_false_eq_true,
      true_and, false_and, iff_false] at hwr hrd ⊢ <;>
    omega

/-- Settles O31: with the largest capacity, FULL compares the occupancy with half the counters' range. -/
theorem largestCapacityFullIsMsbCompare : Obligations.LargestCapacityFullIsMsbCompare := by
  intro w rd wr
  have hpow : 2 ^ (w + 1) = 2 * 2 ^ w := Nat.pow_succ'
  have hpos : 0 < 2 ^ w := Nat.two_pow_pos w
  have hhalf : occupancy wr rd = BitVec.ofNat (w + 1) (2 ^ w) ↔ (occupancy wr rd).toNat = 2 ^ w := by
    rw [← BitVec.toNat_inj, BitVec.toNat_ofNat, Nat.mod_eq_of_lt (by omega)]
  have hfull : fullFlag true (BitVec.ofNat (w + 1) (2 ^ w - 1)) (occupancy wr rd) = true ↔
      2 ^ w ≤ (occupancy wr rd).toNat := by
    rw [fullFlag, Bool.true_and, decide_eq_true_iff, BitVec.lt_def, BitVec.toNat_ofNat, Nat.mod_eq_of_lt (by omega)]
    omega
  refine ⟨hhalf.trans (occupancy_eq_half_iff rd wr), hfull, fun hle => ?_, ?_⟩
  · rw [hfull, ← occupancy_eq_half_iff]
    omega
  · rw [emptyFlag, Bool.true_and, decide_eq_true_iff]
    exact sub_eq_zero

/-- Settles O33: the two positions are less than a capacity apart, and not equal. -/
theorem producerAndConsumerSlotsDiffer : Obligations.ProducerAndConsumerSlotsDiffer := by
  intro w s i hlegal hroom hi
  obtain ⟨k, -, hk⟩ := hlegal.mask_legal
  rw [BitVec.le_def] at hroom
  have hi' : (BitVec.ofNat w i).toNat = i := by
    rw [BitVec.toNat_ofNat, Nat.mod_eq_of_lt (hi.trans s.occ.isLt)]
  have hdist : (s.wrPos - (s.rdPos + BitVec.ofNat w i)).toNat = s.occ.toNat - i := by
    have e : s.wrPos - (s.rdPos + BitVec.ofNat w i) = s.occ - BitVec.ofNat w i := by rw [Block.occ_eq]; ring
    rw [e, toNat_sub_of_le (by omega), hi']
  exact (s.slot_ne _ _ hk (by omega) (by omega)).symm

/-- Settles O34: the invariant's bound on the occupancy, from which the room and FULL follow. -/
theorem occupancyIsWithinCapacity : Obligations.OccupancyIsWithinCapacity := by
  intro w s hi hc
  have hlegal := hi.legal hc
  have hsum := hlegal.occ_add_room
  have hocc := hlegal.occ_le_cap
  refine ⟨hocc, by omega, hsum, ?_⟩
  rw [Block.fullOut, fullFlag, Bool.and_eq_true, decide_eq_true_iff, BitVec.lt_def]
  exact and_congr_right fun _ => by omega

/-- Settles O49: both registers are their bits cut to the build's width. -/
theorem narrowRegistersGiveTheLowBits : Obligations.NarrowRegistersGiveTheLowBits := by
  intro w s
  refine ⟨BitVec.toNat_setWidth w s.err, fun {v} u hv hcfg hempty hfull hbusy => ?_⟩
  have hu : u.view 4 = u.flags := rfl
  have hs : s.view 4 = s.flags := rfl
  rw [hu, hs, Block.flags, Block.flags, hcfg, hempty, hfull, hbusy, hbusy, BitVec.toNat_setWidth, BitVec.toNat_setWidth,
    Nat.mod_mod_of_dvd _ (Nat.pow_dvd_pow 2 hv)]

/-! ### What the invariant says of an empty block -/

/-- A block whose counters are equal, with nothing written and nothing in progress, is legal if its registers are. -/
theorem Block.Legal.of_empty {s : Block w} (hmask : ∃ k : Fin w, k ≤ s.maxAddrW ∧ s.mask.toNat + 1 = 2 ^ k.val)
    (hpos : s.rdPos = s.wrPos) (hstorage : s.storage = []) (hp : s.pSeq = .idle) (hq : s.cSeq = .idle)
    (hcfg : s.cfg = false → s.rdPos = 0#w ∧ s.mask = 0#w) : s.Legal := by
  have hocc : s.occ.toNat = 0 := by rw [(Block.contents_occ_of_pos_eq hpos).2, BitVec.toNat_zero]
  exact
    { mask_legal := hmask
      occ_le_cap := by omega
      unconfigured := fun h => ⟨(hcfg h).1, hpos ▸ (hcfg h).1, (hcfg h).2, hp, hq⟩
      write_fits := by rw [hp]; rfl
      read_fits := by rw [hq]; rfl
      slots_exist := by simp [hstorage]
      stored_written := fun i hi => by omega }

/-- A mask of 0 is that of capacity 1, which every build can hold. -/
theorem mask_zero_legal (m : Fin w) : ∃ k : Fin w, k ≤ m ∧ (0#w).toNat + 1 = 2 ^ k.val :=
  ⟨⟨0, m.pos⟩, Nat.zero_le _, rfl⟩

theorem reset_legal (m : Fin w) : (Block.reset m).Legal :=
  .of_empty (mask_zero_legal m) rfl rfl rfl rfl fun _ => ⟨rfl, rfl⟩

theorem reset_inv (m : Fin w) : (Block.reset m).Inv := ⟨.nil, .nil, fun _ => reset_legal m⟩

/-- Settles O35: the reset block is empty, at every width. -/
theorem resetMeetsTheInvariant : Obligations.ResetMeetsTheInvariant :=
  ⟨⟨by decide, reset_inv (31 : Fin 32)⟩, reset_inv⟩

/-- A reset step keeps the invariant: the buffer `DST` stays as it is (R97). -/
theorem applyReset_inv {s : Block w} (h : s.Inv) : (applyReset s).Inv :=
  ⟨.nil, h.dst_wf, fun _ => .of_empty (mask_zero_legal s.maxAddrW) rfl rfl rfl rfl fun _ => ⟨rfl, rfl⟩⟩

/-- An attached storage is empty, under the mask of its legal capacity (R59). -/
theorem attach_legal {s : Block w} {cap : Word w} (hp : s.pSeq = .idle) (hq : s.cSeq = .idle)
    (h : s.badCapacity cap = false) : (attach cap s).Legal := by
  have hcap : LegalCapacity s cap := legalCapacity_iff_badCapacity_eq_false.2 h
  have hmask := hcap.mask_toNat
  obtain ⟨k, hk, hpow⟩ := hcap
  refine .of_empty ⟨⟨k, by omega⟩, hk, ?_⟩ rfl rfl hp hq fun h => absurd h Bool.noConfusion
  rw [attach_mask, hmask, hpow]

/-- A state with the fault mark is bound to nothing but canonical memories, and an unspecified state has none. -/
theorem scramble_inv {s : Block w} (h : s.initc = true) : (scramble s).Inv :=
  ⟨.nil, .nil, fun hc => absurd ((Block.initc_congr (scramble_err s)).trans h) (Bool.eq_false_iff.1 hc)⟩

/-- What stands outside the block, and the sticky bits but for the fault mark, are not in the invariant. -/
theorem Block.Inv.outside {s : Block w} (h : s.Inv) (host producer consumer : PortIO w) (obs : List (Word w))
    (schedule : List Event) {err : BitVec 3} (herr : err.getLsbD 2 = s.initc) :
    Block.Inv { s with host := host, producer := producer, consumer := consumer, obs := obs, schedule := schedule,
                       err := err } := by
  refine ⟨h.storage_wf, h.dst_wf, fun hc => ?_⟩
  obtain ⟨mask, occ, unconfigured, write, read, slots, stored⟩ := h.legal (herr.symm.trans hc)
  exact ⟨mask, occ, unconfigured, write, read, slots, stored⟩

/-! ### A producer's step keeps the invariant -/

/-- Occupancy and room make the capacity in every state with a legal state's mask (R26, R28). -/
theorem Block.Legal.occ_add_room_of_mask {s t : Block w} (h : s.Legal) (hmask : t.mask = s.mask)
    (hocc : t.occ.toNat ≤ s.mask.toNat + 1) : t.occ.toNat + t.room.toNat = s.mask.toNat + 1 := by
  have hcap := h.capacity_toNat
  have hroom : t.room = s.mask + 1#w - t.occ := by rw [← hmask]; rfl
  rw [hroom, toNat_sub_of_le (by omega)]
  omega

/-- A producer-side step leaves the stored bytes, or appends one to a block with room. -/
inductive Appends (s t : Block w) : Prop where
  | none (wrPos : t.wrPos = s.wrPos) (storage : t.storage = s.storage)
  | one (b : Byte) (cfg : s.cfg = true) (room : s.occ ≤ s.mask) (wrPos : t.wrPos = s.wrPos + 1#w)
      (storage : t.storage = Memory.write s.storage (s.slot s.wrPos) b)

/-- A WRITE in progress finds room for its byte (R31). -/
theorem Block.Legal.room_of_writing {s : Block w} {T k : Word w} (h : s.Legal) (hq : s.pSeq = .moving T k) :
    s.occ ≤ s.mask := by
  have hfits := h.write_fits
  rw [hq] at hfits
  have hpos := Sequencer.fits_pos hfits
  have hsum := h.occ_add_room
  rw [BitVec.le_def]
  omega

/-- Only a configured block has a bulk command in progress (R23). -/
theorem Block.Legal.cfg_of_moving {s : Block w} {T k : Word w} (h : s.Legal)
    (hq : s.pSeq = .moving T k ∨ s.cSeq = .moving T k) : s.cfg = true := by
  by_contra hcfg
  obtain ⟨-, -, -, hp, hc⟩ := h.unconfigured (by simpa using hcfg)
  rw [hp, hc] at hq
  simp at hq

/-- A READ in progress finds its byte (R31). -/
theorem Block.Legal.occ_of_reading {s : Block w} {T k : Word w} (h : s.Legal) (hq : s.cSeq = .moving T k) :
    0 < s.occ.toNat := by
  have hfits := h.read_fits
  rw [hq] at hfits
  exact Sequencer.fits_pos hfits

theorem ProducerEffect.appends {s t : Block w} (h : ProducerEffect s t) (hl : s.Legal) : Appends s t := by
  cases h with
  | none wrPos storage => exact .none wrPos storage
  | put b _ cfg room wrPos storage => exact .one b cfg room wrPos storage
  | start _ _ _ _ wrPos storage => exact .none wrPos storage
  | micro T k busy wrPos storage => exact .one _ (hl.cfg_of_moving (.inl busy)) (hl.room_of_writing busy) wrPos storage

/-- How a producer-side step changes the occupancy: by nothing, or by one below the capacity. -/
theorem Appends.occ_toNat {s t : Block w} (h : Appends s t) (hl : s.Legal) (hrd : t.rdPos = s.rdPos) :
    t.occ.toNat = s.occ.toNat ∧ t.wrPos = s.wrPos ∨
      t.occ.toNat = s.occ.toNat + 1 ∧ s.occ.toNat ≤ s.mask.toNat ∧ t.wrPos = s.wrPos + 1#w := by
  have hcap := hl.two_mul_capacity_le
  cases h with
  | none wrPos => exact .inl ⟨by rw [Block.occ_eq, wrPos, hrd]; rfl, wrPos⟩
  | one b cfg room wrPos =>
    rw [BitVec.le_def] at room
    have hocc : t.occ = s.occ + 1#w := by simp only [Block.occ_eq, wrPos, hrd]; ring
    exact .inr ⟨by rw [hocc]; exact toNat_add_one (n := s.occ.toNat + 1) (by omega) (by omega), room, wrPos⟩

/-- The slots below the capacity stay the only ones, and the stored positions stay written, as a byte is appended. -/
theorem Appends.storage_legal {s t : Block w} (h : Appends s t) (hl : s.Legal) (hrd : t.rdPos = s.rdPos)
    (hmask : t.mask = s.mask) :
    (∀ c ∈ t.storage, c.1 ≤ t.mask.toNat) ∧
      ∀ i < t.occ.toNat, (Memory.read t.storage (t.slot (t.rdPos + BitVec.ofNat w i))).isSome = true := by
  have hslot (p : Word w) : t.slot p = s.slot p := by rw [Block.slot, Block.slot, hmask]
  cases h with
  | none wrPos storage =>
    have hocc : t.occ = s.occ := by rw [Block.occ_eq, wrPos, hrd]; rfl
    rw [storage, hmask, hocc, hrd]
    exact ⟨hl.slots_exist, fun i hi => by rw [hslot]; exact hl.stored_written i hi⟩
  | one b cfg room wrPos storage =>
    have hocc := Appends.occ_toNat (.one b cfg room wrPos storage) hl hrd
    rw [storage, hmask, hrd]
    refine ⟨fun c hc => ?_, fun i hi => ?_⟩
    · rcases Memory.mem_write hc with rfl | hc
      · exact s.slot_le_mask _
      · exact hl.slots_exist c hc
    · rw [hslot, Memory.read_write]
      split
      · rfl
      · rename_i hne
        refine hl.stored_written i (lt_of_le_of_ne (by omega) fun e => hne ?_)
        rw [e, s.rdPos_add_occ]

/-- A producer-side step leaves its sequencer what it needs, and idle on an unconfigured block (R31). -/
theorem ProducerEffect.pSeq_legal {s t : Block w} (h : ProducerEffect s t) (hl : s.Legal) (frame : ProducerFrame s t) :
    t.pSeq.fits t.room = true ∧ (s.cfg = false → t.pSeq = .idle) := by
  have hroom (hwr : t.wrPos = s.wrPos) : t.room = s.room := by
    rw [Block.room_eq, hwr, frame.mask, frame.rdPos]; rfl
  cases h with
  | none wrPos _ pSeq =>
    rw [pSeq, hroom wrPos]
    exact ⟨hl.write_fits, fun h => (hl.unconfigured h).2.2.2.1⟩
  | put _ _ cfg _ _ _ pSeq => exact ⟨by rw [pSeq]; rfl, fun h => absurd (cfg.symm.trans h) Bool.noConfusion⟩
  | start n _ cfg some wrPos _ pSeq =>
    rw [pSeq, hroom wrPos]
    exact ⟨Sequencer.fits_start some, fun h => absurd (cfg.symm.trans h) Bool.noConfusion⟩
  | micro T k busy wrPos storage pSeq =>
    refine ⟨?_, fun h => ?_⟩
    · have hocc := (ProducerEffect.appends (.micro T k busy wrPos storage pSeq) hl).occ_toNat hl frame.rdPos
      have hcap := hl.occ_le_cap
      have hsum := hl.occ_add_room
      have hsum' : t.occ.toNat + t.room.toNat = s.mask.toNat + 1 := hl.occ_add_room_of_mask frame.mask (by
        have := BitVec.le_def.1 (hl.room_of_writing busy)
        omega)
      have hfits := hl.write_fits
      rw [busy] at hfits
      rw [pSeq]
      exact Sequencer.fits_after hfits (by omega)
    · exact absurd ((hl.cfg_of_moving (.inl busy)).symm.trans h) Bool.noConfusion

theorem ProducerEffect.legal {s t : Block w} (h : ProducerEffect s t) (frame : ProducerFrame s t) (hl : s.Legal) :
    t.Legal := by
  have happ := h.appends hl
  have hocc := happ.occ_toNat hl frame.rdPos
  have hcap := hl.occ_le_cap
  obtain ⟨hslots, hstored⟩ := happ.storage_legal hl frame.rdPos frame.mask
  obtain ⟨hfits, hidle⟩ := h.pSeq_legal hl frame
  refine ⟨?_, ?_, fun hcfg => ?_, hfits, ?_, hslots, hstored⟩
  · rw [frame.mask, frame.maxAddrW]
    exact hl.mask_legal
  · rw [frame.mask]
    omega
  · rw [frame.cfg] at hcfg
    obtain ⟨hrd, hwr, hmask, -, hq⟩ := hl.unconfigured hcfg
    refine ⟨frame.rdPos.trans hrd, ?_, frame.mask.trans hmask, hidle hcfg, frame.cSeq.trans hq⟩
    cases happ with
    | none wrPos => exact wrPos.trans hwr
    | one _ cfg => exact absurd (cfg.symm.trans hcfg) Bool.noConfusion
  · rw [frame.cSeq]
    exact Sequencer.fits_mono hl.read_fits (by omega)

theorem producer_step_inv {s t : Block w} (hi : s.Inv) (hc : s.Clean) (h : portStep .producer s = .next t) :
    t.Inv := by
  obtain ⟨frame, effect⟩ := producer_step hc h
  refine ⟨?_, by rw [frame.dst]; exact hi.dst_wf, fun _ => effect.legal frame (hi.legal hc)⟩
  cases effect.appends (hi.legal hc) with
  | none _ storage => rw [storage]; exact hi.storage_wf
  | one b _ _ _ storage => rw [storage]; exact Memory.write_wf _ b hi.storage_wf

/-! ### A consumer's step keeps the invariant -/

/-- `RD_POS` moved on by `d` stored bytes leaves `d` fewer. -/
theorem Block.occ_toNat_of_take {s t : Block w} {d : Nat} (hd : d ≤ s.occ.toNat) (hwr : t.wrPos = s.wrPos)
    (hrd : t.rdPos = s.rdPos + BitVec.ofNat w d) : t.occ.toNat + d = s.occ.toNat := by
  have hocc : t.occ = s.occ - BitVec.ofNat w d := by simp only [Block.occ_eq, hwr, hrd]; ring
  have hd' : (BitVec.ofNat w d).toNat = d := by rw [BitVec.toNat_ofNat, Nat.mod_eq_of_lt (hd.trans_lt s.occ.isLt)]
  rw [hocc, toNat_sub_of_le (by omega), hd']
  omega

/-- A consumer-side step takes some of the stored bytes, from the oldest on, and leaves its sequencer what it needs. -/
structure Takes (s t : Block w) (d : Nat) : Prop where
  stored : d ≤ s.occ.toNat
  rdPos  : t.rdPos = s.rdPos + BitVec.ofNat w d
  fits   : t.cSeq.fits t.occ = true
  /-- On an unconfigured block there is nothing to take and no READ to start (R87). -/
  idle   : s.cfg = false → d = 0 ∧ t.cSeq = .idle

theorem ConsumerEffect.takes {s t : Block w} (h : ConsumerEffect s t) (frame : ConsumerFrame s t) (hl : s.Legal) :
    ∃ d, Takes s t d := by
  have hadd0 : s.rdPos + BitVec.ofNat w 0 = s.rdPos := by simp
  have hocc (hrd : t.rdPos = s.rdPos) : t.occ = s.occ := by rw [Block.occ_eq, frame.wrPos, hrd]; rfl
  cases h with
  | none rdPos cSeq =>
    refine ⟨0, Nat.zero_le _, rdPos.trans hadd0.symm, ?_, fun h => ⟨rfl, cSeq.trans (hl.unconfigured h).2.2.2.2⟩⟩
    rw [cSeq, hocc rdPos]
    exact hl.read_fits
  | get _ cfg has rdPos cSeq =>
    have hpos : s.occ.toNat ≠ 0 := fun e => has (BitVec.eq_of_toNat_eq (by simpa using e))
    exact ⟨1, Nat.pos_of_ne_zero hpos, rdPos, by rw [cSeq]; rfl, fun h => absurd (cfg.symm.trans h) Bool.noConfusion⟩
  | flush _ cfg rdPos cSeq =>
    exact ⟨s.occ.toNat, le_rfl, rdPos.trans s.rdPos_add_occ.symm, by rw [cSeq]; rfl,
      fun h => absurd (cfg.symm.trans h) Bool.noConfusion⟩
  | start n _ cfg some rdPos cSeq =>
    refine ⟨0, Nat.zero_le _, rdPos.trans hadd0.symm, ?_, fun h => absurd (cfg.symm.trans h) Bool.noConfusion⟩
    rw [cSeq, hocc rdPos]
    exact Sequencer.fits_start some
  | micro T k busy rdPos cSeq =>
    have htake := Block.occ_toNat_of_take (hl.occ_of_reading busy) frame.wrPos rdPos
    refine ⟨1, hl.occ_of_reading busy, rdPos, ?_,
      fun h => absurd ((hl.cfg_of_moving (.inr busy)).symm.trans h) Bool.noConfusion⟩
    have hfits := hl.read_fits
    rw [busy] at hfits
    rw [cSeq]
    exact Sequencer.fits_after hfits htake.ge

theorem Takes.legal {s t : Block w} {d : Nat} (h : Takes s t d) (frame : ConsumerFrame s t) (hl : s.Legal) :
    t.Legal := by
  have hocc := Block.occ_toNat_of_take h.stored frame.wrPos h.rdPos
  have hcap := hl.occ_le_cap
  have hsum := hl.occ_add_room
  have hsum' := hl.occ_add_room_of_mask frame.mask (t := t) (by omega)
  have hslot (p : Word w) : t.slot p = s.slot p := by rw [Block.slot, Block.slot, frame.mask]
  refine ⟨?_, ?_, fun hcfg => ?_, ?_, h.fits, ?_, fun i hi => ?_⟩
  · rw [frame.mask, frame.maxAddrW]
    exact hl.mask_legal
  · rw [frame.mask]
    omega
  · rw [frame.cfg] at hcfg
    obtain ⟨hrd, hwr, hmask, hp, -⟩ := hl.unconfigured hcfg
    obtain ⟨rfl, hq⟩ := h.idle hcfg
    exact ⟨by simpa [hrd] using h.rdPos, frame.wrPos.trans hwr, frame.mask.trans hmask, frame.pSeq.trans hp, hq⟩
  · rw [frame.pSeq]
    exact Sequencer.fits_mono hl.write_fits (by omega)
  · rw [frame.storage, frame.mask]
    exact hl.slots_exist
  · have hpos : t.rdPos + BitVec.ofNat w i = s.rdPos + BitVec.ofNat w (d + i) := by
      rw [h.rdPos, BitVec.ofNat_add]; ring
    rw [hslot, frame.storage, hpos]
    exact hl.stored_written _ (by omega)

theorem DstEffect.dst_wf {s t : Block w} (h : DstEffect s t) (hs : Memory.wf s.dst) : Memory.wf t.dst := by
  cases h with
  | none dst => rwa [dst]
  | presented bs _ dst => rw [dst]; exact Memory.ofBytes_wf bs
  | written T k _ dst => rw [dst]; exact Memory.write_wf _ _ hs

theorem consumer_step_inv {s t : Block w} (hi : s.Inv) (hc : s.Clean) (h : portStep .consumer s = .next t) :
    t.Inv := by
  obtain ⟨frame, effect, dst⟩ := consumer_step hc h
  obtain ⟨d, takes⟩ := effect.takes frame (hi.legal hc)
  exact ⟨by rw [frame.storage]; exact hi.storage_wf, dst.dst_wf hi.dst_wf, fun _ => takes.legal frame (hi.legal hc)⟩

/-- Settles O40: a producer appends, and a consumer takes, which leaves as much more room. -/
theorem neitherSideTakesFromTheOther : Obligations.NeitherSideTakesFromTheOther := by
  intro w s t hi hc
  have hl := hi.legal hc
  refine ⟨fun h => ?_, fun h => ?_⟩
  · obtain ⟨frame, effect⟩ := producer_step hc h
    have hocc := (effect.appends hl).occ_toNat hl frame.rdPos
    omega
  · obtain ⟨frame, effect, -⟩ := consumer_step hc h
    obtain ⟨d, takes⟩ := effect.takes frame hl
    have hocc := Block.occ_toNat_of_take takes.stored frame.wrPos takes.rdPos
    have hcap := hl.occ_le_cap
    have hsum := hl.occ_add_room
    have hsum' := hl.occ_add_room_of_mask frame.mask (t := t) (by omega)
    omega

/-! ### A host's step keeps the invariant -/

theorem HostEffect.inv {s t : Block w} (h : HostEffect s t) (hi : s.Inv) : t.Inv := by
  cases h with
  | none io err initc state =>
    rw [state]
    exact hi.outside io s.producer s.consumer s.obs s.schedule initc
  | init io cap idleP idleC good state =>
    have hattach : (attach cap s).Inv := ⟨.nil, hi.dst_wf, fun _ => attach_legal idleP idleC good⟩
    rw [state]
    exact hattach.outside io s.producer s.consumer s.obs s.schedule rfl
  | conflict io busy state =>
    rw [state]
    exact scramble_inv (by simp [Block.initc, errInitc])

theorem portStep_inv {p : Port} {s t : Block w} (hi : s.Inv) (hc : s.Clean) (h : portStep p s = .next t) : t.Inv := by
  cases p with
  | host => exact (host_step h).inv hi
  | producer => exact producer_step_inv hi hc h
  | consumer => exact consumer_step_inv hi hc h

theorem edgePort_inv {v : Bool} {p : Port} {s t : Block w} (hi : s.Inv) (hc : s.Clean) (h : edgePort v p s = .next t) :
    t.Inv := by
  unfold edgePort at h
  split at h
  · exact portStep_inv hi hc h
  · cases h
    exact hi

end Sys2Proof.Machine

namespace Sys2Proof.Machine

variable {w : Nat}

/-! ### What a step does not look at: the schedule (20_memory.md R40) -/

/-- The block with another schedule ahead of it. -/
def withSchedule (evs : List Event) (s : Block w) : Block w := { s with schedule := evs }

@[simp] theorem withSchedule_seq (evs : List Event) (s : Block w) (p : Port) :
    (withSchedule evs s).seq p = s.seq p := by
  cases p <;> rfl

@[simp] theorem withSchedule_port (evs : List Event) (s : Block w) (p : Port) :
    (withSchedule evs s).port p = s.port p := by
  cases p <;> rfl

theorem withSchedule_microStep (evs : List Event) (p : Port) (T k : Word w) (s : Block w) :
    microStep p T k (withSchedule evs s) = withSchedule evs (microStep p T k s) := by
  unfold microStep unspecifiedMicro
  rw [apply_ite (withSchedule evs), apply_ite (withSchedule evs)]
  cases p with
  | host => rfl
  | producer => simp only [writeMicro, apply_ite (withSchedule evs)]; rfl
  | consumer => simp only [readMicro, apply_ite (withSchedule evs)]; rfl

theorem exec_withSchedule (evs : List Event) {i : Instr} {s t : Block w} (h : exec i s.state = .next t.state) :
    exec i (withSchedule evs s).state = .next (withSchedule evs t).state := by
  cases i <;>
    simp only [exec, execInit, execPut, execGet, execPeek, execFlush, execRead, execRdavail, execWrite,
      execWrroom, whenConfigured, goOn_state, Host.Outcome.next.injEq, state_inj] at h ⊢ <;>
    subst h <;> simp only [apply_ite (withSchedule evs)] <;> rfl

/-- An idle port whose agent has no command does nothing (log 13). -/
theorem portStep_idle {p : Port} {s : Block w} (hq : s.seq p = .idle) (hcs : (s.port p).pending = []) :
    portStep p s = .next s := by
  simp only [portStep, hq, hcs]

/-- A port's step is the same under every schedule, which it leaves as it is. -/
theorem portStep_withSchedule (evs : List Event) {p : Port} {s t : Block w} (h : portStep p s = .next t) :
    portStep p (withSchedule evs s) = .next (withSchedule evs t) := by
  rcases portStep_cases h with ⟨T, k, hq, rfl⟩ | ⟨hq, hcs, rfl⟩ | ⟨hq, c, cs, hcs, ⟨r, hd, rfl⟩ | ⟨i, hd, -, hx⟩⟩
  · rw [portStep_moving (by rwa [withSchedule_seq]), withSchedule_microStep]
  · exact portStep_idle (by rwa [withSchedule_seq]) (by rwa [withSchedule_port])
  · rw [portStep_illegal (by rwa [withSchedule_seq]) (by rwa [withSchedule_port]) hd]
    cases p <;> rfl
  · rw [portStep_of_decodeAt (by rwa [withSchedule_seq]) (by rwa [withSchedule_port]) hd, runCommand_eq,
      ← exec_withSchedule evs hx]
    cases p <;> cases i <;> rfl

theorem edgePort_withSchedule (evs : List Event) {v : Bool} {p : Port} {s t : Block w}
    (h : edgePort v p s = .next t) : edgePort v p (withSchedule evs s) = .next (withSchedule evs t) := by
  unfold edgePort at h ⊢
  rw [Block.busy, withSchedule_seq]
  split at h
  · rw [if_pos (by assumption)]
    exact portStep_withSchedule evs h
  · rw [if_neg (by assumption)]
    cases h
    rfl

/-! ### The two sides of a clock edge, one after the other (20_memory.md R42, R43) -/

/-- `u` with what a producer-side step that moves no byte writes taken from `v`: `P_SEQ`, `SRC`, the port's queues and
the sticky bits. -/
def withProducerPort (v u : Block w) : Block w :=
  { u with pSeq := v.pSeq, src := v.src, producer := v.producer, err := u.err ||| v.err }

/-- `u` with what a consumer-side step writes taken from `v`: `RD_POS`, `C_SEQ`, `DST`, the port's queues and the sticky
bits. -/
def withConsumerSide (v u : Block w) : Block w :=
  { u with rdPos := v.rdPos, cSeq := v.cSeq, dst := v.dst, consumer := v.consumer, err := u.err ||| v.err }

theorem withProducerPort_clean {v u : Block w} (hv : v.Clean) (hu : u.Clean) : (withProducerPort v u).Clean := by
  simp_all [Block.Clean, Block.initc, withProducerPort]

theorem withConsumerSide_clean {v u : Block w} (hv : v.Clean) (hu : u.Clean) : (withConsumerSide v u).Clean := by
  simp_all [Block.Clean, Block.initc, withConsumerSide]

/-- A producer-side step that moves no byte leaves the rest of the state. -/
theorem withProducerPort_eq {s sp : Block w} (frame : ProducerFrame s sp) (hwr : sp.wrPos = s.wrPos)
    (hstorage : sp.storage = s.storage) (hsticky : KeepsSticky s sp) : withProducerPort sp s = sp := by
  obtain ⟨h1, h2, h3, h4, h5, h6, h7, h8, h9, h10, h11, h12, -⟩ := frame
  have herr := hsticky.or_eq
  cases sp
  simp only at *
  subst_vars
  simp only [withProducerPort, herr]

/-- A consumer-side step leaves the rest of the state. -/
theorem withConsumerSide_eq {s sc : Block w} (frame : ConsumerFrame s sc) (hsticky : KeepsSticky s sc) :
    withConsumerSide sc s = sc := by
  obtain ⟨h1, h2, h3, h4, h5, h6, h7, h8, h9, h10, h11, h12, h13, -⟩ := frame
  have herr := hsticky.or_eq
  cases sc
  simp only at *
  subst_vars
  simp only [withConsumerSide, herr]

/-- The merge of an edge, as the consumer's writes over the producer's state. -/
theorem mergeSides_eq_withConsumerSide {s sp : Block w} (frame : ProducerFrame s sp) (sc : Block w) :
    mergeSides s sp sc = withConsumerSide sc sp := by
  obtain ⟨h1, h2, h3, h4, h5, h6, h7, h8, h9, h10, h11, h12, -⟩ := frame
  cases sp
  simp only at *
  subst_vars
  rfl

/-- The merge of an edge at which the producer moves no byte, as the producer's writes over the consumer's state. -/
theorem mergeSides_eq_withProducerPort {s sp sc : Block w} (frame : ConsumerFrame s sc) (hwr : sp.wrPos = s.wrPos)
    (hstorage : sp.storage = s.storage) : mergeSides s sp sc = withProducerPort sp sc := by
  obtain ⟨h1, h2, h3, h4, h5, h6, h7, h8, h9, h10, h11, h12, h13, -⟩ := frame
  rw [mergeSides, hwr, hstorage, BitVec.or_comm]
  cases sc
  simp only at *
  subst_vars
  rfl

theorem withProducerPort_raise (v s : Block w) (e : StickyError) :
    withProducerPort v (raise e .consumer s) = raise e .consumer (withProducerPort v s) := by
  have herr : s.err ||| e.bit ||| v.err = s.err ||| v.err ||| e.bit := by
    rw [BitVec.or_assoc, BitVec.or_comm e.bit, BitVec.or_assoc]
  exact congrArg (fun b => { raise e .consumer (withProducerPort v s) with err := b }) herr

/-- No consumer command looks at what a producer-side step that moves no byte writes. -/
theorem exec_withProducerPort (v : Block w) {i : Instr} {s t : Block w} (hp : i.port = .consumer)
    (h : exec i s.state = .next t.state) :
    exec i (withProducerPort v s).state = .next (withProducerPort v t).state := by
  by_cases hcfg : s.cfg = true
  · have hcfg' : (withProducerPort v s).cfg = true := hcfg
    cases i <;> simp only [Instr.port, reduceCtorEq] at hp <;>
      simp only [exec, execGet, execPeek, execFlush, execRead, execRdavail, whenConfigured_true _ _ hcfg,
        whenConfigured_true _ _ hcfg', goOn_state, Host.Outcome.next.injEq, state_inj] at h ⊢ <;> subst h
    case flush => rfl
    all_goals
      simp only [apply_ite (withProducerPort v)]
      rfl
  · have hcfg : s.cfg = false := by simpa using hcfg
    have hport : i.port ≠ .host := by simp [hp]
    rw [exec_unconfigured hport hcfg, hp, Host.Outcome.next.injEq, state_inj] at h
    rw [exec_unconfigured (s := withProducerPort v s) hport hcfg, hp, ← h, withProducerPort_raise]

/-- A consumer's step does not look at what a producer-side step that moves no byte writes. -/
theorem portStep_withProducerPort {v s t : Block w} (hv : v.Clean) (hc : s.Clean) (h : portStep .consumer s = .next t) :
    portStep .consumer (withProducerPort v s) = .next (withProducerPort v t) := by
  rcases portStep_cases h with ⟨T, k, hq, -⟩ | ⟨hq, hcs, rfl⟩ | ⟨hq, c, cs, hcs, ⟨r, hd, rfl⟩ | ⟨i, hd, hp, hx⟩⟩
  · rw [portStep_consumer_moving hc hq, Host.Outcome.next.injEq] at h
    rw [portStep_consumer_moving (withProducerPort_clean hv hc) hq, ← h, readMicro, readMicro,
      apply_ite (withProducerPort v)]
    rfl
  · exact portStep_idle (p := .consumer) hq hcs
  · rw [portStep_illegal (p := .consumer) (s := withProducerPort v s) hq hcs hd, withProducerPort_raise]
    rfl
  · rw [portStep_of_decodeAt (p := .consumer) (s := withProducerPort v s) hq hcs hd, runCommand_eq,
      ← exec_withProducerPort v hp hx]
    cases i <;> simp only [Instr.port, reduceCtorEq] at hp <;> rfl

/-- A producer command other than PUT moves no byte by itself. -/
theorem exec_producer_still {i : Instr} {s t : Block w} (hp : i.port = .producer) (hput : ∀ b, i ≠ .put b)
    (hx : exec i s.state = .next t.state) : t.wrPos = s.wrPos ∧ t.storage = s.storage := by
  cases i <;> simp only [Instr.port, reduceCtorEq] at hp <;>
    simp only [exec, execWrite, execWrroom, whenConfigured, goOn_state, Host.Outcome.next.injEq, state_inj] at hx
  case put b => exact absurd rfl (hput b)
  all_goals
    subst hx
    (repeat' split) <;> simp

/-- A PUT that fails moves no byte. -/
theorem exec_put_still {b : Byte} {s t : Block w} (hfails : ¬ (s.cfg = true ∧ s.occ ≤ s.mask))
    (hx : exec (.put b) s.state = .next t.state) : t.wrPos = s.wrPos ∧ t.storage = s.storage := by
  by_cases hcfg : s.cfg = true
  · rw [exec_put hcfg, if_pos (BitVec.not_le.1 fun hroom => hfails ⟨hcfg, hroom⟩), Host.Outcome.next.injEq,
      state_inj] at hx
    subst hx
    exact ⟨rfl, rfl⟩
  · rw [exec_unconfigured (by simp [Instr.port]) (by simpa using hcfg), Host.Outcome.next.injEq, state_inj] at hx
    subst hx
    exact ⟨rfl, rfl⟩

/-- A producer-side step moves no byte, or it is a WRITE's micro-step or a PUT that finds room. -/
theorem producer_still_or_moves {s t : Block w} (h : portStep .producer s = .next t) :
    (t.wrPos = s.wrPos ∧ t.storage = s.storage) ∨ (∃ T k, s.pSeq = .moving T k) ∨
      ∃ b, Presents .producer (.put b) s ∧ s.cfg = true ∧ s.occ ≤ s.mask := by
  rcases portStep_cases h with ⟨T, k, hq, -⟩ | ⟨-, -, rfl⟩ | ⟨hq, c, cs, hcs, ⟨r, -, rfl⟩ | ⟨i, hd, hp, hx⟩⟩
  · exact .inr (.inl ⟨T, k, hq⟩)
  · exact .inl ⟨rfl, rfl⟩
  · exact .inl ⟨rfl, rfl⟩
  · by_cases hput : ∃ b, i = .put b
    · obtain ⟨b, rfl⟩ := hput
      by_cases hmove : s.cfg = true ∧ s.occ ≤ s.mask
      · exact .inr (.inr ⟨b, ⟨hq, c, cs, hcs, hd⟩, hmove⟩)
      · exact .inl (exec_put_still (s := s.setPending .producer cs) hmove hx)
    · left
      obtain ⟨io, src, hu⟩ := present_producer hp c.buf cs s
      rw [hu] at hx
      exact (exec_producer_still hp (fun b e => hput ⟨b, e⟩) hx :)

/-- A producer's step that moves a byte does not look at what a consumer-side step writes, if that leaves it as much
room. -/
theorem portStep_withConsumerSide {v s t : Block w} (hv : v.Clean) (hc : s.Clean) (h : portStep .producer s = .next t)
    (hmoves : (∃ T k, s.pSeq = .moving T k) ∨ ∃ b, Presents .producer (.put b) s ∧ s.cfg = true ∧ s.occ ≤ s.mask)
    (hocc : (withConsumerSide v s).occ ≤ s.occ) :
    portStep .producer (withConsumerSide v s) = .next (withConsumerSide v t) := by
  rcases hmoves with ⟨T, k, hq⟩ | ⟨b, ⟨hq, c, cs, hcs, hd⟩, hcfg, hroom⟩
  · rw [portStep_producer_moving hc hq, Host.Outcome.next.injEq] at h
    rw [portStep_producer_moving (withConsumerSide_clean hv hc) hq, ← h, writeMicro, writeMicro,
      apply_ite (withConsumerSide v)]
    rfl
  · have hput (u : Block w) (hcfg : u.cfg = true) (hroom : u.occ ≤ u.mask) (hq : u.pSeq = .idle)
        (hcs : u.producer.pending = c :: cs) : portStep .producer u = .next (respond .producer .success none 0#w
          (pushByte b (u.setPending .producer cs))) := by
      rw [portStep_of_decodeAt (p := .producer) hq hcs hd, runCommand_eq]
      exact exec_put_of_room (s := u.setPending .producer cs) hcfg hroom b
    rw [hput s hcfg hroom hq hcs, Host.Outcome.next.injEq] at h
    rw [hput (withConsumerSide v s) hcfg (BitVec.le_trans hocc hroom) hq hcs, ← h]
    rfl

/-- At a clock edge the two sides' steps from the state before it come to the same as one after the other, in the order
that shows the second the state it saw: a producer that moves no byte goes first, one that does goes last (R43). -/
theorem mergeSides_interleaves {s sp sc : Block w} (hi : s.Inv) (hc : s.Clean)
    (hsp : portStep .producer s = .next sp) (hsc : portStep .consumer s = .next sc) :
    portStep .consumer sp = .next (mergeSides s sp sc) ∨ portStep .producer sc = .next (mergeSides s sp sc) := by
  obtain ⟨pframe, -⟩ := producer_step hc hsp
  obtain ⟨cframe, ceffect, -⟩ := consumer_step hc hsc
  rcases producer_still_or_moves hsp with ⟨hwr, hstorage⟩ | hmoves
  · left
    rw [mergeSides_eq_withProducerPort cframe hwr hstorage]
    have hcommute := portStep_withProducerPort (pframe.initc.trans hc) hc hsc
    rwa [withProducerPort_eq pframe hwr hstorage (portStep_keepsSticky hsp)] at hcommute
  · right
    have hself := withConsumerSide_eq cframe (portStep_keepsSticky hsc)
    obtain ⟨d, takes⟩ := ceffect.takes cframe (hi.legal hc)
    have hocc := Block.occ_toNat_of_take takes.stored cframe.wrPos takes.rdPos
    rw [mergeSides_eq_withConsumerSide pframe]
    have hcommute := portStep_withConsumerSide (cframe.initc.trans hc) hc hsp hmoves (by
      rw [hself, BitVec.le_def]
      omega)
    rwa [hself] at hcommute

theorem Block.busy_congr {s t : Block w} {p : Port} (h : t.seq p = s.seq p) : t.busy p = s.busy p := by
  rw [Block.busy, Block.busy, h]

/-- At an edge at which the consumer does nothing, what the producer leaves. -/
theorem mergeSides_consumer_still {s sp : Block w} (frame : ProducerFrame s sp) (hsticky : KeepsSticky s sp) :
    mergeSides s sp s = sp := by
  obtain ⟨h1, h2, h3, h4, h5, h6, h7, h8, h9, h10, h11, h12, -⟩ := frame
  have herr : sp.err ||| s.err = sp.err := (BitVec.or_comm _ _).trans hsticky.or_eq
  cases sp
  simp only at *
  subst_vars
  simp only [mergeSides, herr]

/-- The same with each port acting or not, as its `cmd_valid` and its sequencer say (R42, R74). -/
theorem edgePort_interleaves {s sp sc : Block w} {p c : Bool} (hi : s.Inv) (hc : s.Clean)
    (hsp : edgePort p .producer s = .next sp) (hsc : edgePort c .consumer s = .next sc) :
    edgePort c .consumer sp = .next (mergeSides s sp sc) ∨ edgePort p .producer sc = .next (mergeSides s sp sc) := by
  obtain ⟨pframe, -⟩ := edgePort_producer hc hsp
  obtain ⟨cframe, -⟩ := edgePort_consumer hc hsc
  have hpsticky := edgePort_keepsSticky hsp
  have hcsticky := edgePort_keepsSticky hsc
  have hbusyC : sp.busy .consumer = s.busy .consumer := Block.busy_congr pframe.cSeq
  have hbusyP : sc.busy .producer = s.busy .producer := Block.busy_congr cframe.pSeq
  unfold edgePort at hsp hsc ⊢
  rw [hbusyC, hbusyP]
  by_cases hp : (p || s.busy .producer) = true
  · by_cases hq : (c || s.busy .consumer) = true
    · rw [if_pos hp] at hsp ⊢
      rw [if_pos hq] at hsc ⊢
      exact mergeSides_interleaves hi hc hsp hsc
    · rw [if_neg hq] at hsc ⊢
      cases hsc
      exact .inl (by rw [mergeSides_consumer_still pframe hpsticky])
  · rw [if_neg hp] at hsp ⊢
    cases hsp
    exact .inr (by rw [mergeSides_eq_withConsumerSide (.refl s), withConsumerSide_eq cframe hcsticky])

/-! ### A clock edge keeps the invariant -/

theorem mergeSides_inv {s sp sc : Block w} {p c : Bool} (hi : s.Inv) (hc : s.Clean)
    (hsp : edgePort p .producer s = .next sp) (hsc : edgePort c .consumer s = .next sc) :
    (mergeSides s sp sc).Inv ∧ (mergeSides s sp sc).Clean := by
  have hspClean : sp.Clean := (edgePort_producer hc hsp).1.initc.trans hc
  have hscClean : sc.Clean := (edgePort_consumer hc hsc).1.initc.trans hc
  refine ⟨?_, initc_mergeSides hspClean hscClean⟩
  rcases edgePort_interleaves hi hc hsp hsc with h | h
  · exact edgePort_inv (edgePort_inv hi hc hsp) hspClean h
  · exact edgePort_inv (edgePort_inv hi hc hsc) hscClean h

theorem clockCycle_inv {h p c : Bool} {s t : Block w} (hi : s.Inv) (hc : s.Clean)
    (hx : clockCycle h p c s = .next t) : t.Inv := by
  obtain ⟨sp, hsp, hx⟩ := andThen_eq_next hx
  obtain ⟨sc, hsc, hx⟩ := andThen_eq_next hx
  obtain ⟨hinv, hclean⟩ := mergeSides_inv hi hc hsp hsc
  exact edgePort_inv hinv hclean hx

theorem observeWith_inv {o : Option (BitVec 3)} {s : Block w} (hi : s.Inv) : (observeWith o s).Inv := by
  cases o with
  | none => exact hi
  | some r => exact hi.outside s.host s.producer s.consumer _ s.schedule rfl

/-- Every event keeps the invariant while `ERR.INITC = 0`. -/
theorem runEvent_inv_of_clean {e : Event} {s t : Block w} (hi : s.Inv) (hc : s.Clean) (h : runEvent e s = .next t) :
    t.Inv := by
  cases e with
  | agent p =>
    rw [runEvent, mapNext_settle_clean _ hc] at h
    exact portStep_inv hi hc h
  | cycle a b c o =>
    rw [runEvent, mapNext_settle_clean _ hc] at h
    exact clockCycle_inv (observeWith_inv hi) ((Block.initc_congr (observeWith_err o s)).trans hc) h
  | observe r =>
    rw [runEvent, settle_clean _ hc, Host.Outcome.next.injEq] at h
    rw [← h]
    exact observeWith_inv (o := some r) hi
  | reset =>
    cases h
    exact applyReset_inv hi

/-- With the fault mark set every step but reset ends in an unspecified state (R88). -/
theorem runEvent_of_marked {e : Event} {s t : Block w} (he : e ≠ .reset) (hs : s.initc = true)
    (h : runEvent e s = .next t) : ∃ u, t = scramble u := by
  cases e with
  | agent p =>
    obtain ⟨u, -, rfl⟩ := mapNext_eq_next h
    exact ⟨u, by rw [settle, if_pos hs]⟩
  | cycle a b c o =>
    obtain ⟨u, -, rfl⟩ := mapNext_eq_next h
    exact ⟨u, by rw [settle, if_pos hs]⟩
  | observe r =>
    cases h
    exact ⟨_, by rw [settle, if_pos hs]⟩
  | reset => exact absurd rfl he

theorem runEvent_inv {e : Event} {s t : Block w} (hi : s.Inv) (h : runEvent e s = .next t) : t.Inv := by
  by_cases he : e = .reset
  · subst he
    cases h
    exact applyReset_inv hi
  · cases hs : s.initc with
    | false => exact runEvent_inv_of_clean hi hs h
    | true =>
      have ht := (runEvent_keepsSticky he h).initc hs
      obtain ⟨u, rfl⟩ := runEvent_of_marked he hs h
      exact scramble_inv ((Block.initc_congr (scramble_err u)).symm.trans ht)

/-- Settles O36: every event keeps the block's invariant, and no step changes the width. -/
theorem everyStepKeepsTheInvariant : Obligations.EveryStepKeepsTheInvariant := by
  intro s t hi h
  obtain ⟨u, rfl⟩ := step_keeps_width h
  have hpop : (popEvent s.block).Inv :=
    hi.block.outside s.block.host s.block.producer s.block.consumer s.block.obs _ rfl
  exact ⟨⟨hi.width, runEvent_inv hpop (step_eq_next.1 h)⟩, rfl⟩

/-! ### A clock edge is an interleaving (20_memory.md R43) -/

/-- A run takes its steps one by one. -/
theorem run_succ {n : Nat} {s t : State} (h : step s = .next t) :
    Host.Core.run Sys2Proof.core (n + 1) s = Host.Core.run Sys2Proof.core n t := by
  simp only [Host.Core.run, show Sys2Proof.core.step s = .next t from h]

/-- While `ERR.INITC = 0` a step whose event is an agent's is its port's step. -/
theorem step_agent {p : Port} {s t : Block w} (evs : List Event) (hc : s.Clean) (h : portStep p s = .next t) :
    step (withSchedule (.agent p :: evs) s).state = .next (withSchedule evs t).state := by
  rw [step_of_schedule (s := withSchedule (.agent p :: evs) s) rfl, runEvent, mapNext_settle_clean _ (by exact hc)]
  exact portStep_withSchedule (s := s) evs h

/-- What a port does at a clock edge, as the events of a schedule: its agent's step, or none. -/
theorem run_acting {v : Bool} {p : Port} {s t u : Block w} (evs rest : List Event) (hbusy : s.busy p = u.busy p)
    (hc : s.Clean) (h : edgePort v p s = .next t) :
    Host.Core.run Sys2Proof.core (acting u v p ++ evs).length (withSchedule (acting u v p ++ evs ++ rest) s).state =
      Host.Core.run Sys2Proof.core evs.length (withSchedule (evs ++ rest) t).state := by
  rw [edgePort, hbusy] at h
  unfold acting
  split
  · rw [if_pos (by assumption)] at h
    exact run_succ (step_agent (evs ++ rest) hc h)
  · rw [if_neg (by assumption)] at h
    cases h
    rfl

/-- The two data ports in an order in which the second comes to the merge of an edge, and the host last. -/
theorem run_acting_three {p q : Port} {a b h : Bool} {s sp m t : Block w} (rest : List Event) (hc : s.Clean)
    (hspClean : sp.Clean) (hmClean : m.Clean) (hbusy : sp.busy q = s.busy q) (hp : edgePort a p s = .next sp)
    (hq : edgePort b q sp = .next m) (hh : edgePort h .host m = .next t) :
    Host.Core.run Sys2Proof.core (acting s a p ++ acting s b q ++ acting s h .host).length
      (withSchedule (acting s a p ++ acting s b q ++ acting s h .host ++ rest) s).state =
        .next (withSchedule rest t).state := by
  rw [List.append_assoc (acting s a p), run_acting _ rest rfl hc hp, run_acting _ rest hbusy hspClean hq]
  have hhost := run_acting [] rest (show m.busy .host = s.busy .host from rfl) hmClean hh
  rwa [List.append_nil] at hhost

/-- Settles O42: the order of `edgePort_interleaves`, whose second step leaves what the edge merges. -/
theorem cycleIsAnInterleaving : Obligations.CycleIsAnInterleaving := by
  intro w s h p c rest hi hc
  obtain ⟨sp, sc, t, hsp, hsc, ht, -⟩ := clockCycle_sides h p c s
  obtain ⟨pframe, -⟩ := edgePort_producer hc hsp
  obtain ⟨cframe, -⟩ := edgePort_consumer hc hsc
  obtain ⟨-, hmClean⟩ := mergeSides_inv hi hc hsp hsc
  have hedge : clockCycle h p c (withSchedule rest s) = .next (withSchedule rest t) := by
    rw [clockCycle, edgePort_withSchedule rest hsp, andThen_next, edgePort_withSchedule rest hsc, andThen_next]
    exact edgePort_withSchedule rest ht
  have hrun : Host.Core.run Sys2Proof.core 1 (withSchedule (.cycle h p c none :: rest) s).state =
      .next (withSchedule rest t).state :=
    run_succ (step_cycle (s := withSchedule (.cycle h p c none :: rest) s) hc rfl hedge)
  rcases edgePort_interleaves hi hc hsp hsc with hm | hm
  · exact ⟨_, .inl rfl, hrun.trans (run_acting_three rest hc (pframe.initc.trans hc) hmClean
      (Block.busy_congr (p := .consumer) pframe.cSeq) hsp hm ht).symm⟩
  · exact ⟨_, .inr rfl, hrun.trans (run_acting_three rest hc (cframe.initc.trans hc) hmClean
      (Block.busy_congr (p := .producer) cframe.pSeq) hsc hm ht).symm⟩

end Sys2Proof.Machine

namespace Sys2Proof.Machine

variable {w : Nat}

/-! ### What a command answers (30_encoding.md R50, R56) -/

/-- A byte is what a successful GET or PEEK answers, a count what a successful RDAVAIL or WRROOM does (R56). -/
def AnswerFits (i : Instr) (st : Status) (data : Option Byte) (size : Word w) : Prop :=
  (data.isSome = true ↔ st = .success ∧ (i = .get ∨ ∃ idx, i = .peek idx)) ∧
    (size ≠ 0#w → st = .success ∧ (i = .rdavail ∨ i = .wrroom))

/-- What an accepted command does at its port: one response, its sequencer as it was, or the start of a transfer and no
response yet (R50, R75, R81). -/
inductive Answers (i : Instr) (s t : Block w) : Prop where
  | now (st : Status) (data : Option Byte) (size : Word w) (responded : Responded i.port st data size s t)
      (seq : t.seq i.port = s.seq i.port) (fits : AnswerFits i st data size)
  | later (T : Word w) (silent : NoResponse s t) (seq : t.seq i.port = .moving T 0#w)

/-- A response from a state with `s`'s queues and sequencer is an answer. -/
theorem Answers.respond {i : Instr} {p : Port} {st : Status} {data : Option Byte} {size : Word w} {s u : Block w}
    (hp : i.port = p) (hports : ∀ q, u.port q = s.port q) (hseq : u.seq p = s.seq p)
    (fits : AnswerFits i st data size) : Answers i s (respond p st data size u) := by
  subst hp
  exact .now st data size (respond_responded i.port st data size hports) (by rw [respond_seq, hseq]) fits

theorem answerFits_error {i : Instr} {st : Status} (h : st ≠ .success) : AnswerFits i st none 0#w :=
  ⟨by simp [h], fun h => absurd rfl h⟩

/-- A command that fails answers with no byte and size 0. -/
theorem Answers.fail {i : Instr} {p : Port} {st : Status} (s : Block w) (hp : i.port = p) (h : st ≠ .success) :
    Answers i s (fail p st s) :=
  .respond hp (fun _ => rfl) rfl (answerFits_error h)

/-- A success with no byte and size 0, of a command that answers no byte. -/
theorem answerFits_success {i : Instr} (hget : i ≠ .get) (hpeek : ∀ idx, i ≠ .peek idx) :
    AnswerFits i .success none 0#w :=
  ⟨by simp [hget, hpeek], fun h => absurd rfl h⟩

/-- INIT answers at once, if it sets no fault mark (R59, R61). -/
theorem exec_init_answers {bp : Bool} {cap : Nat} {s t : Block w} (ht : t.Clean)
    (hx : exec (.init bp cap) s.state = .next t.state) : Answers (.init bp cap) s t := by
  simp only [exec, execInit, goOn_state, Host.Outcome.next.injEq, state_inj] at hx
  subst hx
  split at ht
  · exact absurd (initConflict_initc s) (Bool.eq_false_iff.1 ht)
  · rename_i hbusy
    rw [if_neg hbusy]
    split
    · exact .fail s rfl (by decide)
    · split
      · exact .fail s rfl (by decide)
      · exact .respond rfl (attach_port s _) rfl (answerFits_success (by simp) (by simp))

/-- A data command answers, at once or after its micro-steps. -/
theorem exec_data_answers {i : Instr} {s t : Block w} (hp : i.port ≠ .host) (hx : exec i s.state = .next t.state) :
    Answers i s t := by
  by_cases hcfg : s.cfg = true
  · cases i <;> simp only [exec, execPut, execGet, execPeek, execFlush, execRead, execRdavail, execWrite, execWrroom,
      whenConfigured_true _ _ hcfg, goOn_state, Host.Outcome.next.injEq, state_inj] at hx
    case init => exact absurd rfl hp
    all_goals subst hx
    case put b =>
      split
      · exact .fail s rfl (by decide)
      · exact .respond rfl (fun q => by cases q <;> rfl) rfl (answerFits_success (by simp) (by simp))
    case get =>
      split
      · exact .fail s rfl (by decide)
      · exact .respond rfl (fun q => by cases q <;> rfl) rfl ⟨by simp, fun h => absurd rfl h⟩
    case peek idx =>
      split
      · exact .fail s rfl (by decide)
      · exact .respond rfl (fun _ => rfl) rfl ⟨by simp, fun h => absurd rfl h⟩
    case flush =>
      exact .respond rfl (fun q => by cases q <;> rfl) rfl (answerFits_success (by simp) (by simp))
    case read n | write n =>
      split
      · exact .fail s rfl (by decide)
      · split
        · exact .respond rfl (fun _ => rfl) rfl (answerFits_success (by simp) (by simp))
        · exact .later _ (fun q => by cases q <;> rfl) rfl
    case rdavail | wrroom =>
      split
      · exact .fail s rfl (by decide)
      · exact .respond rfl (fun _ => rfl) rfl ⟨by simp, fun _ => by simp⟩
  · rw [exec_unconfigured hp (by simpa using hcfg), Host.Outcome.next.injEq, state_inj] at hx
    obtain ⟨responded, -, -⟩ := raise_raisesOn .unconfigured i.port s
    subst hx
    exact .now _ none 0#w responded (by rw [raise_seq]) (answerFits_error (by decide))

/-- Every command answers, if it sets no fault mark. -/
theorem exec_answers {i : Instr} {s t : Block w} (ht : t.Clean) (hx : exec i s.state = .next t.state) :
    Answers i s t := by
  by_cases hp : i.port = .host
  · obtain ⟨bp, cap, rfl⟩ := instr_port_eq_host_iff.1 hp
    exact exec_init_answers ht hx
  · exact exec_data_answers hp hx

/-- The response that `Responded` speaks of is the one given. -/
theorem Responded.response {p : Port} {st : Status} {data : Option Byte} {size : Word w} {s t : Block w}
    {r : Response w} (h : Responded p st data size s t)
    (hr : (t.port p).responses = (s.port p).responses ++ [r]) :
    r.status = st ∧ r.size = size ∧ r.dataValid = data.isSome := by
  obtain ⟨⟨r', hr', hstatus, hsize, hvalid, -⟩, -, -⟩ := h
  obtain rfl : r' = r := by simpa using hr'.symm.trans hr
  exact ⟨hstatus, hsize, hvalid⟩

theorem NoResponse.response_ne {s t : Block w} (h : NoResponse s t) (p : Port) (r : Response w) :
    (t.port p).responses ≠ (s.port p).responses ++ [r] := by
  rw [h p]
  simp

/-- A micro-step responds when it is the last, and then the sequencer is idle again; else it counts on (R73, R79). -/
theorem portStep_moving_cases {p : Port} {s t : Block w} {T k : Word w} (hc : s.Clean) (hq : s.seq p = .moving T k)
    (h : portStep p s = .next t) :
    (k + 1#w = T ∧ t.seq p = .idle ∧ Responded p .success none T s t) ∨
      (k + 1#w ≠ T ∧ t.seq p = .moving T (k + 1#w) ∧ NoResponse s t) := by
  cases p with
  | host => cases hq
  | producer =>
    rw [portStep_producer_moving hc hq, Host.Outcome.next.injEq] at h
    rw [← h]
    by_cases hlast : k + 1#w = T
    · exact .inl ⟨hlast, writeMicro_last_responded s hlast⟩
    · exact .inr ⟨hlast, writeMicro_notLast_noResponse s hlast⟩
  | consumer =>
    rw [portStep_consumer_moving hc hq, Host.Outcome.next.injEq] at h
    rw [← h]
    by_cases hlast : k + 1#w = T
    · exact .inl ⟨hlast, readMicro_last_responded s hlast⟩
    · exact .inr ⟨hlast, readMicro_notLast_noResponse s hlast⟩

/-- Settles O26: a command's answer fits it, and a micro-step's response is the last one's. -/
theorem responseCarriesByteOrCount : Obligations.ResponseCarriesByteOrCount := by
  intro w
  refine ⟨fun i s t r _ ht hx hr => ?_, fun p s t T k r hc hq h hr => ?_⟩
  · cases exec_answers ht hx with
    | now st data size responded _ fits =>
      obtain ⟨rfl, rfl, hvalid⟩ := responded.response hr
      rw [hvalid]
      exact fits
    | later T silent => exact absurd hr (silent.response_ne i.port r)
  · rcases portStep_moving_cases hc hq h with ⟨-, -, responded⟩ | ⟨-, -, silent⟩
    · obtain ⟨hstatus, hsize, hvalid⟩ := responded.response hr
      exact ⟨hstatus, hvalid, hsize⟩
    · exact absurd hr (silent.response_ne p r)

/-! ### One response for each command, in order (30_encoding.md R50) -/

/-- A port's responses, the commands its agent has yet to issue, and its bulk command in progress, counted. -/
def tally (s : Block w) (p : Port) : Nat :=
  (s.port p).responses.length + (s.port p).pending.length + owed s p

/-- The count of a port stays, and so do its responses, in front of the new ones. -/
def KeepsTally (p : Port) (s t : Block w) : Prop :=
  tally t p = tally s p ∧ (s.port p).responses <+: (t.port p).responses

theorem KeepsTally.trans {p : Port} {s t u : Block w} (hst : KeepsTally p s t) (htu : KeepsTally p t u) :
    KeepsTally p s u :=
  ⟨htu.1.trans hst.1, hst.2.trans htu.2⟩

theorem keepsTally_of_eq {p : Port} {s t : Block w} (hport : t.port p = s.port p) (hseq : t.seq p = s.seq p) :
    KeepsTally p s t := by
  rw [KeepsTally, tally, tally, owed, owed, Block.busy_congr hseq, hport]
  exact ⟨rfl, List.prefix_refl _⟩

theorem owed_of_idle {s : Block w} {p : Port} (h : s.seq p = .idle) : owed s p = 0 := by
  rw [owed, Block.busy_eq_false.2 h]
  rfl

theorem owed_of_moving {s : Block w} {p : Port} {T k : Word w} (h : s.seq p = .moving T k) : owed s p = 1 := by
  rw [owed, Block.busy_eq_true.2 (by simp [h])]
  rfl

/-- One more response, with the commands waiting as they were. -/
theorem Responded.tally_eq {p : Port} {st : Status} {data : Option Byte} {size : Word w} {s t : Block w}
    (h : Responded p st data size s t) :
    tally t p = (s.port p).responses.length + 1 + (s.port p).pending.length + owed t p ∧
      (s.port p).responses <+: (t.port p).responses := by
  obtain ⟨⟨r, hr, -⟩, hpending, -⟩ := h
  rw [tally, hpending, hr, List.length_append]
  exact ⟨rfl, List.prefix_append _ _⟩

/-- An accepted command's own step: one command less waits, and one more is answered or in progress. -/
theorem Answers.keepsTally {i : Instr} {s u t : Block w} {c : Command w} {cs : List (Command w)} (h : Answers i u t)
    (hq : s.seq i.port = .idle) (hcs : (s.port i.port).pending = c :: cs) (hseq : u.seq i.port = s.seq i.port)
    (hport : u.port i.port = { s.port i.port with pending := cs }) : KeepsTally i.port s t := by
  have hs : tally s i.port = (s.port i.port).responses.length + (cs.length + 1) := by
    rw [tally, hcs, owed_of_idle hq, List.length_cons, Nat.add_zero]
  cases h with
  | now st data size responded seq _ =>
    obtain ⟨htally, hprefix⟩ := responded.tally_eq
    rw [hport] at htally hprefix
    dsimp only at htally
    refine ⟨?_, hprefix⟩
    rw [htally, hs, owed_of_idle (seq.trans (hseq.trans hq))]
    omega
  | later T silent seq =>
    have ht : t.port i.port = { s.port i.port with pending := cs } := (silent i.port).trans hport
    refine ⟨?_, by rw [ht]⟩
    rw [tally, hs, ht, owed_of_moving seq]
    exact Nat.add_assoc _ _ _

/-- A command's buffer and the accepted word off the queue leave the port's sequencer and the rest of its queues. -/
theorem present_setPending (i : Instr) (buf : Option (List Byte)) (p : Port) (cs : List (Command w)) (s : Block w) :
    (present i buf (s.setPending p cs)).seq p = s.seq p ∧
      (present i buf (s.setPending p cs)).port p = { s.port p with pending := cs } := by
  obtain ⟨src, dst, h⟩ := present_eq_with i buf (s.setPending p cs)
  rw [h]
  cases p <;> exact ⟨rfl, rfl⟩

/-- A port's step keeps the port's own count. -/
theorem portStep_keepsTally_own {p : Port} {s t : Block w} (hc : s.Clean) (ht : t.Clean)
    (h : portStep p s = .next t) : KeepsTally p s t := by
  rcases portStep_cases h with ⟨T, k, hq, -⟩ | ⟨-, -, rfl⟩ | ⟨hq, c, cs, hcs, ⟨r, -, rfl⟩ | ⟨i, -, rfl, hx⟩⟩
  · rcases portStep_moving_cases hc hq h with ⟨-, hidle, responded⟩ | ⟨-, hmoving, silent⟩
    · obtain ⟨htally, hprefix⟩ := responded.tally_eq
      refine ⟨?_, hprefix⟩
      rw [htally, tally, owed_of_idle hidle, owed_of_moving hq]
      omega
    · refine ⟨?_, by rw [silent p]⟩
      rw [tally, tally, silent p, owed_of_moving hmoving, owed_of_moving hq]
  · exact keepsTally_of_eq rfl rfl
  · obtain ⟨responded, -, -⟩ := raise_raisesOn .illegal p (s.setPending p cs)
    obtain ⟨htally, hprefix⟩ := responded.tally_eq
    rw [Block.setPending, port_setPort_same] at htally hprefix
    refine ⟨?_, hprefix⟩
    rw [← Block.setPending] at htally
    rw [htally, tally, hcs, owed_of_idle hq, owed_of_idle (by rw [raise_seq, setPending_seq, hq])]
    simp only [List.length_cons]
    omega
  · obtain ⟨hseq, hport⟩ := present_setPending i c.buf i.port cs s
    exact (exec_answers ht hx).keepsTally hq hcs hseq hport

/-- A port's step leaves the other ports' queues and sequencers. -/
theorem portStep_others {p q : Port} {s t : Block w} (hc : s.Clean) (ht : t.Clean) (hpq : q ≠ p)
    (h : portStep p s = .next t) : t.port q = s.port q ∧ t.seq q = s.seq q := by
  cases p with
  | host =>
    obtain ⟨-, hp, hcs, -, -, -, hproducer, hconsumer⟩ := (host_step h).keeps ht
    cases q with
    | host => exact absurd rfl hpq
    | producer => exact ⟨hproducer, hp⟩
    | consumer => exact ⟨hconsumer, hcs⟩
  | producer =>
    obtain ⟨frame, -⟩ := producer_step hc h
    cases q with
    | host => exact ⟨frame.host, rfl⟩
    | producer => exact absurd rfl hpq
    | consumer => exact ⟨frame.consumer, frame.cSeq⟩
  | consumer =>
    obtain ⟨frame, -⟩ := consumer_step hc h
    cases q with
    | host => exact ⟨frame.host, rfl⟩
    | producer => exact ⟨frame.producer, frame.pSeq⟩
    | consumer => exact absurd rfl hpq

theorem portStep_keepsTally {p : Port} {s t : Block w} (hc : s.Clean) (ht : t.Clean) (h : portStep p s = .next t)
    (q : Port) : KeepsTally q s t := by
  by_cases hpq : q = p
  · subst hpq
    exact portStep_keepsTally_own hc ht h
  · obtain ⟨hport, hseq⟩ := portStep_others hc ht hpq h
    exact keepsTally_of_eq hport hseq

theorem edgePort_keepsTally {v : Bool} {p : Port} {s t : Block w} (hc : s.Clean) (ht : t.Clean)
    (h : edgePort v p s = .next t) (q : Port) : KeepsTally q s t := by
  unfold edgePort at h
  split at h
  · exact portStep_keepsTally hc ht h q
  · cases h
    exact keepsTally_of_eq rfl rfl

/-- A clock edge takes each port's queues and sequencer from its own side, and the host acts on them. -/
theorem clockCycle_keepsTally {h p c : Bool} {s t : Block w} (hc : s.Clean) (ht : t.Clean)
    (hx : clockCycle h p c s = .next t) (q : Port) : KeepsTally q s t := by
  obtain ⟨sp, hsp, hx⟩ := andThen_eq_next hx
  obtain ⟨sc, hsc, hx⟩ := andThen_eq_next hx
  have hspClean : sp.Clean := (edgePort_producer hc hsp).1.initc.trans hc
  have hscClean : sc.Clean := (edgePort_consumer hc hsc).1.initc.trans hc
  refine KeepsTally.trans ?_ (edgePort_keepsTally (initc_mergeSides hspClean hscClean) ht hx q)
  cases q with
  | host => exact keepsTally_of_eq rfl rfl
  | producer =>
    exact (edgePort_keepsTally hc hspClean hsp .producer).trans (keepsTally_of_eq rfl rfl)
  | consumer =>
    exact (edgePort_keepsTally hc hscClean hsc .consumer).trans (keepsTally_of_eq rfl rfl)

theorem observeWith_keepsTally (o : Option (BitVec 3)) (s : Block w) (q : Port) : KeepsTally q s (observeWith o s) := by
  cases o <;> cases q <;> exact keepsTally_of_eq rfl rfl

theorem runEvent_keepsTally {e : Event} {s t : Block w} (he : e ≠ .reset) (hc : s.Clean) (ht : t.Clean)
    (h : runEvent e s = .next t) (q : Port) : KeepsTally q s t := by
  cases e with
  | agent p =>
    rw [runEvent, mapNext_settle_clean _ hc] at h
    exact portStep_keepsTally hc ht h q
  | cycle a b c o =>
    rw [runEvent, mapNext_settle_clean _ hc] at h
    have hobs : (observeWith o s).Clean := (Block.initc_congr (observeWith_err o s)).trans hc
    exact (observeWith_keepsTally o s q).trans (clockCycle_keepsTally hobs ht h q)
  | observe r =>
    rw [runEvent, settle_clean _ hc, Host.Outcome.next.injEq] at h
    rw [← h]
    exact observeWith_keepsTally (some r) s q
  | reset => exact absurd rfl he

/-- Settles O27: whatever the event, each port's count stays and its responses are only added to. -/
theorem eachCommandHasOneResponse : Obligations.EachCommandHasOneResponse := by
  intro w s t p hc ht he h
  have hpop : KeepsTally p s (popEvent s) := by cases p <;> exact keepsTally_of_eq rfl rfl
  exact hpop.trans (runEvent_keepsTally (s := popEvent s) he hc ht (step_eq_next.1 h) p)

end Sys2Proof.Machine

namespace Sys2Proof.Machine

variable {w : Nat}

/-! ### Who writes `CFG` and `MASK` (10_state.md R18, R19) -/

theorem HostEffect.cfg {s t : Block w} (h : HostEffect s t) (ht : t.Clean) (hcfg : s.cfg = true) : t.cfg = true := by
  cases h with
  | none io err _ state => rw [state]; exact hcfg
  | init io cap _ _ _ state => rw [state]; rfl
  | conflict io _ state =>
    subst state
    exact absurd (scramble_errInitc_initc s io) (Bool.eq_false_iff.1 ht)

theorem portStep_cfg {p : Port} {s t : Block w} (hc : s.Clean) (ht : t.Clean) (h : portStep p s = .next t)
    (hcfg : s.cfg = true) : t.cfg = true := by
  cases p with
  | host => exact (host_step h).cfg ht hcfg
  | producer => exact (producer_step hc h).1.cfg.trans hcfg
  | consumer => exact (consumer_step hc h).1.cfg.trans hcfg

theorem clockCycle_cfg {h p c : Bool} {s t : Block w} (ht : t.Clean) (hx : clockCycle h p c s = .next t)
    (hcfg : s.cfg = true) : t.cfg = true := by
  obtain ⟨sp, -, hx⟩ := andThen_eq_next hx
  obtain ⟨sc, -, hx⟩ := andThen_eq_next hx
  exact (edgePort_host hx).cfg ht hcfg

theorem runEvent_cfg {e : Event} {s t : Block w} (he : e ≠ .reset) (hc : s.Clean) (ht : t.Clean)
    (h : runEvent e s = .next t) (hcfg : s.cfg = true) : t.cfg = true := by
  cases e with
  | agent p =>
    rw [runEvent, mapNext_settle_clean _ hc] at h
    exact portStep_cfg hc ht h hcfg
  | cycle a b c o =>
    rw [runEvent, mapNext_settle_clean _ hc] at h
    exact clockCycle_cfg ht h (by cases o <;> exact hcfg)
  | observe r =>
    rw [runEvent, settle_clean _ hc, Host.Outcome.next.injEq] at h
    rw [← h]
    exact hcfg
  | reset => exact absurd rfl he

/-- INIT takes its capacity modulo `2^PTR_W` (log 1). -/
theorem exec_init_ofNat (bp : Bool) (cap : Nat) (s : Block w) :
    exec (.init bp cap) s.state = exec (.init bp (BitVec.ofNat w cap).toNat) s.state := by
  simp only [exec, execInit, goOn_state, BitVec.ofNat_toNat, BitVec.setWidth_eq]

/-- An INIT that sets no fault mark and changes `CFG` or `MASK` has passed its three checks (R59 to R61). -/
theorem exec_init_changes {bp : Bool} {cap : Word w} {s t : Block w} (ht : t.Clean)
    (hx : exec (.init bp cap.toNat) s.state = .next t.state) (hne : t.cfg ≠ s.cfg ∨ t.mask ≠ s.mask) :
    bp = true ∧ LegalCapacity s cap ∧ t.mask = cap - 1#w ∧ t.cfg = true := by
  by_cases hbusy : s.pSeq ≠ .idle ∨ s.cSeq ≠ .idle
  · rw [exec_init_busy hbusy, Host.Outcome.next.injEq, state_inj] at hx
    subst hx
    exact absurd (initConflict_initc s) (Bool.eq_false_iff.1 ht)
  · simp only [not_or, not_not] at hbusy
    rw [exec_init_idle hbusy.1 hbusy.2, Host.Outcome.next.injEq, state_inj] at hx
    subst hx
    split at hne
    · simp at hne
    · split at hne
      · simp at hne
      · rename_i hbp hbad
        rw [if_neg hbp, if_neg hbad]
        exact ⟨by simpa using hbp, legalCapacity_iff_badCapacity_eq_false.2 (by simpa using hbad), rfl, rfl⟩

/-- Settles O38: no step but reset clears `CFG`, and no data command writes `CFG` or `MASK`. -/
theorem cfgIsSetByInitAndClearedByReset : Obligations.CfgIsSetByInitAndClearedByReset := by
  intro w
  refine ⟨fun s t hc ht he h hcfg => runEvent_cfg (s := popEvent s) he hc ht (step_eq_next.1 h) hcfg,
    fun i s t _ ht hx hne => ?_⟩
  by_cases hp : i.port = .host
  · obtain ⟨bp, cap, rfl⟩ := instr_port_eq_host_iff.1 hp
    rw [exec_init_ofNat] at hx
    obtain ⟨rfl, hcap⟩ := exec_init_changes ht hx hne
    exact ⟨cap, rfl, hcap⟩
  · obtain ⟨hmask, hcfg, -⟩ := exec_data_setup_err hp hx
    simp [hmask, hcfg] at hne

/-! ### Right after reset (70_reset_and_hazards.md R98) -/

theorem applyReset_flags (s : Block w) : (applyReset s).flags = 0#w := by
  simp [Block.flags, Block.busy, Block.seq, Block.emptyOut, emptyFlag, Block.fullOut, fullFlag]

/-- Every register reads 0, the reserved ones among them. -/
theorem applyReset_view (s : Block w) (r : BitVec 3) : (applyReset s).view r = 0#w := by
  have hocc : (applyReset s).occ = 0#w := (Block.contents_occ_of_pos_eq rfl).2
  have herr : (applyReset s).err.setWidth w = 0#w := by simp
  unfold Block.view
  split
  · rfl
  · rfl
  · rfl
  · exact hocc
  · exact applyReset_flags s
  · exact herr
  · rfl

/-- Settles O30: the reset block is empty and unconfigured. -/
theorem afterResetOnlyInitSucceeds : Obligations.AfterResetOnlyInitSucceeds := by
  intro w s rest hs
  refine ⟨_, step_reset hs, (Block.contents_occ_of_pos_eq rfl).2, rfl, rfl, applyReset_view _, fun i hinit => ?_⟩
  have hp : i.port ≠ .host := fun h => let ⟨bp, cap, hi⟩ := instr_port_eq_host_iff.1 h; hinit bp cap hi
  obtain ⟨u, hu, hresp, herr, -⟩ :=
    exec_unconfigured_raisesOn hp (s := applyReset { s with schedule := rest }) rfl
  exact ⟨u, hu, hresp, by rw [herr, applyReset_err, BitVec.zero_or]⟩

/-! ### The outputs of a busy port (30_encoding.md R50) -/

/-- Settles O48: the micro-step writes the byte that the outputs show. -/
theorem portOutputsAreTheNextMicroSteps : Obligations.PortOutputsAreTheNextMicroSteps := by
  intro w s hc
  refine ⟨fun T k hq => ⟨s.headByte, _, by simp only [Block.dstOut, hq], rfl, portStep_consumer_moving hc hq, ?_⟩,
    fun T k hq => ⟨by simp only [Block.srcIdx, hq], _, portStep_producer_moving hc hq, fun b hb => ?_⟩,
    fun hq => by simp only [Block.dstOut, hq], fun hq => by simp only [Block.srcIdx, hq]⟩
  · rw [readMicro_dst, Memory.read_write_same]
  · rw [writeMicro_storage, Memory.read_write_same, Block.srcRead_of_presented hb]

/-! ### The block as a queue (10_state.md R30, 20_memory.md R45) -/

theorem lastByte_respond (p : Port) (st : Status) (b : Byte) (n : Word w) (s : Block w) :
    LastByte p (respond p st (some b) n s) b := by
  obtain ⟨⟨r, hr, -, -, hvalid, hdata⟩, -⟩ := respond_responded p st (some b) n (u := s) fun _ => rfl
  exact ⟨r, by rw [hr, List.getLast?_concat], hvalid, hdata b rfl⟩

/-- A byte pushed in a legal block with room is the newest one. -/
theorem Block.Legal.contents_append {s t : Block w} {b : Byte} (h : s.Legal) (frame : ProducerFrame s t)
    (hroom : s.occ ≤ s.mask) (hwr : t.wrPos = s.wrPos + 1#w)
    (hstorage : t.storage = Memory.write s.storage (s.slot s.wrPos) b) : t.contents = s.contents ++ [b] := by
  obtain ⟨k, -, hk⟩ := h.mask_legal
  exact Block.contents_append hk (BitVec.le_def.1 hroom) hstorage frame.storageEpoch frame.mask hwr frame.rdPos

/-- A byte taken is the oldest one. -/
theorem ConsumerFrame.contents_cons {s t : Block w} (frame : ConsumerFrame s t) (h : 0 < s.occ.toNat)
    (hrd : t.rdPos = s.rdPos + 1#w) : s.contents = s.headByte :: t.contents :=
  Block.contents_cons h frame.storage frame.storageEpoch frame.mask frame.wrPos hrd

/-- The byte at an index of the stored ones. -/
theorem Block.getElem?_contents {s : Block w} {idx : Word w} {v : Byte} (h : s.contents[idx.toNat]? = some v) :
    idx < s.occ ∧ s.memRead (s.slot (s.rdPos + idx)) = v := by
  obtain ⟨hlt, hv⟩ := List.getElem?_eq_some_iff.1 h
  rw [Block.length_contents] at hlt
  exact ⟨hlt, by simpa [Block.contents] using hv⟩

theorem readMicro_contents {s : Block w} {T k : Word w} (hl : s.Legal) (hq : s.cSeq = .moving T k) :
    s.contents = s.headByte :: (readMicro T k s).contents :=
  (readMicro_frame s).contents_cons (hl.occ_of_reading hq) (readMicro_rdPos s)

theorem writeMicro_contents {s : Block w} {T k : Word w} (hl : s.Legal) (hq : s.pSeq = .moving T k) :
    (writeMicro T k s).contents = s.contents ++ [s.srcRead k] :=
  hl.contents_append (writeMicro_frame s) (hl.room_of_writing hq) (writeMicro_wrPos s) (writeMicro_storage s)

/-- GET takes the oldest byte and answers it. -/
theorem exec_get_contents {s : Block w} {v : Byte} {rest : List Byte} (hcfg : s.cfg = true)
    (h : s.contents = v :: rest) :
    ∃ t : Block w, exec .get s.state = .next t.state ∧ t.contents = rest ∧ LastByte .consumer t v := by
  have hpos : 0 < s.occ.toNat := by rw [← Block.length_contents, h]; exact Nat.succ_pos _
  have hne : s.occ ≠ 0#w := fun e => by simp [e] at hpos
  have hframe : ConsumerFrame s (respond .consumer .success (some s.headByte) 0#w (dropByte s)) := by
    constructor <;> rfl
  have hcons := hframe.contents_cons hpos rfl
  obtain ⟨hv, hrest⟩ := List.cons.inj (h.symm.trans hcons)
  exact ⟨_, by rw [exec_get hcfg, if_neg hne], hrest.symm, hv ▸ lastByte_respond .consumer .success s.headByte 0#w _⟩

/-- Settles O41: each command and micro-step by what it does to the list of stored bytes. -/
theorem blockIsAFirstInFirstOutQueue : Obligations.BlockIsAFirstInFirstOutQueue := by
  intro w s hi hc hcfg
  have hl := hi.legal hc
  refine ⟨fun b hroom => ?_, fun v rest h => exec_get_contents hcfg h, fun idx v h => ?_, ?_, fun T k hq => ?_,
    fun T k hq => ⟨_, portStep_producer_moving hc hq, writeMicro_contents hl hq⟩, s.length_contents.symm⟩
  · rw [Block.length_contents] at hroom
    exact ⟨_, exec_put_of_room hcfg hroom b, hl.contents_append (by constructor <;> rfl) hroom rfl rfl⟩
  · obtain ⟨hstored, rfl⟩ := Block.getElem?_contents h
    exact ⟨_, by rw [exec_peek hcfg, if_neg (BitVec.not_le.2 hstored)], by rw [respond_contents],
      lastByte_respond .consumer .success _ 0#w s⟩
  · obtain ⟨t, hflush, hempty, -⟩ := exec_flush_empties hcfg
    exact ⟨t, hflush, hempty⟩
  · exact ⟨_, s.headByte, portStep_consumer_moving hc hq, readMicro_contents hl hq, by
      rw [readMicro_dst, Memory.read_write_same]⟩

/-- Settles O46: the byte put is the only one stored, so it is the one got. -/
theorem putThenGetAtEveryPosition : Obligations.PutThenGetAtEveryPosition := by
  intro w s b _ _ hcfg hempty
  have hroom : s.occ ≤ s.mask := by simp [(Block.contents_occ_of_pos_eq hempty).2, BitVec.le_def]
  obtain ⟨hcontents, hocc⟩ : (respond .producer .success none 0#w (pushByte b s)).contents = [b] ∧
      (respond .producer .success none 0#w (pushByte b s)).occ = 1#w :=
    Block.contents_occ_of_flushed_append (s := s) rfl rfl rfl hempty
  generalize ht : respond .producer .success none 0#w (pushByte b s) = t at hcontents hocc
  have hpos : 0 < t.occ.toNat := by rw [hocc, toNat_one s.width_pos]; exact Nat.one_pos
  have hne : t.occ ≠ 0#w := fun e => by simp [e] at hpos
  have hframe : ConsumerFrame t (respond .consumer .success (some t.headByte) 0#w (dropByte t)) := by
    constructor <;> rfl
  have hhead : t.headByte = b := by
    have hcons := hframe.contents_cons hpos rfl
    rw [hcontents] at hcons
    exact (List.cons.inj hcons).1.symm
  have hget : exec .get t.state = .next (respond .consumer .success (some b) 0#w (dropByte t)).state := by
    rw [exec_get (by rw [← ht]; exact hcfg), if_neg hne, hhead]
  refine ⟨t, _, ht ▸ exec_put_of_room hcfg hroom b, hocc, hget,
    respond_responded .consumer .success (some b) 0#w fun q => by cases q <;> rfl, ?_, ?_, ?_⟩
  · rw [respond_rdPos, dropByte_rdPos, ← ht]
    rfl
  · rw [respond_wrPos, dropByte_wrPos, ← ht, hempty]
    rfl
  · rw [respond_occ, dropByte_occ, hocc]
    exact BitVec.sub_self _

end Sys2Proof.Machine

namespace Sys2Proof.Machine

variable {w : Nat}

/-! ### A bulk command's micro-steps one after another (42_bulk.md R74, R80) -/

/-- What a bulk command has still to move, after one byte more. -/
theorem remaining_succ {T k : Word w} (h : k.toNat < T.toNat) : (T - k).toNat = (T - (k + 1#w)).toNat + 1 := by
  have hk := toNat_add_one h T.isLt
  rw [toNat_sub_of_le h.le, toNat_sub_of_le (by omega)]
  omega

/-- A micro-step is the last exactly when one byte is left. -/
theorem remaining_eq_one_iff {T k : Word w} (h : k.toNat < T.toNat) : (T - k).toNat = 1 ↔ k + 1#w = T := by
  have hk := toNat_add_one h T.isLt
  rw [toNat_sub_of_le h.le, ← BitVec.toNat_inj]
  omega

/-- A bulk command in progress has a byte to move (R23). -/
theorem Block.Inv.done_lt_total {s : Block w} {p : Port} {T k : Word w} (hi : s.Inv) (hc : s.Clean)
    (hq : s.seq p = .moving T k) : k.toNat < T.toNat := by
  have hl := hi.legal hc
  cases p with
  | host => cases hq
  | producer => exact ((Sequencer.fits_iff _ _).1 hl.write_fits T k hq).1
  | consumer => exact ((Sequencer.fits_iff _ _).1 hl.read_fits T k hq).1

theorem portStep_moving_clean {p : Port} {s t : Block w} {T k : Word w} (hc : s.Clean) (hq : s.seq p = .moving T k)
    (h : portStep p s = .next t) : t.Clean := by
  rw [portStep_moving hq, Host.Outcome.next.injEq] at h
  rw [← h]
  exact (Block.initc_congr (microStep_err p T k s)).trans hc

/-- While a bulk command has bytes left to move, `m` steps of its port move `m` of them. -/
theorem run_moving {p : Port} (rest : List Event) {T : Word w} {m : Nat} {s : Block w} {k : Word w} (hi : s.Inv)
    (hc : s.Clean) (hq : s.seq p = .moving T k) (hm : m < (T - k).toNat) :
    ∃ u : Block w, Host.Core.run Sys2Proof.core m
        (withSchedule (List.replicate (T - k).toNat (.agent p) ++ rest) s).state = .next u.state ∧
      u.seq p = .moving T (k + BitVec.ofNat w m) := by
  induction m generalizing s k with
  | zero => exact ⟨_, rfl, by rw [withSchedule_seq, hq, BitVec.add_zero]⟩
  | succ m ih =>
    have hlt := hi.done_lt_total hc hq
    obtain ⟨t, ht⟩ := portStep_goesOn p s
    have htClean := portStep_moving_clean hc hq ht
    rcases portStep_moving_cases hc hq ht with ⟨hlast, -⟩ | ⟨-, hmoving, -⟩
    · have := (remaining_eq_one_iff hlt).2 hlast
      omega
    · have hrem := remaining_succ hlt
      obtain ⟨u, hrun, hu⟩ := ih (portStep_inv hi hc ht) htClean hmoving (by omega)
      rw [hrem, List.replicate_succ, List.cons_append]
      refine ⟨u, (run_succ (step_agent _ hc ht)).trans hrun, ?_⟩
      rw [hu, BitVec.add_assoc, BitVec.add_comm 1#w, ← BitVec.ofNat_add]

/-- A relation that the last micro-step makes, and that each earlier one hands on, holds when the bulk command's
micro-steps are done. -/
theorem run_to_idle {p : Port} (rest : List Event) {T : Word w} {Done : Word w → Block w → Block w → Prop}
    (last : ∀ {s t : Block w} {k : Word w}, s.Inv → s.Clean → s.seq p = .moving T k → k + 1#w = T →
      portStep p s = .next t → Done k s t)
    (earlier : ∀ {s u t : Block w} {k : Word w}, s.Inv → s.Clean → s.seq p = .moving T k → k + 1#w ≠ T →
      portStep p s = .next u → Done (k + 1#w) u t → Done k s t)
    {s : Block w} {k : Word w} (hi : s.Inv) (hc : s.Clean) (hq : s.seq p = .moving T k) :
    ∃ t : Block w, Host.Core.run Sys2Proof.core (T - k).toNat
        (withSchedule (List.replicate (T - k).toNat (.agent p) ++ rest) s).state = .next (withSchedule rest t).state ∧
      Done k s t := by
  generalize hn : (T - k).toNat = n
  induction n generalizing s k with
  | zero =>
    have := remaining_succ (hi.done_lt_total hc hq)
    omega
  | succ n ih =>
    have hlt := hi.done_lt_total hc hq
    have hrem := remaining_succ hlt
    obtain ⟨u, hu⟩ := portStep_goesOn p s
    rw [List.replicate_succ, List.cons_append, run_succ (step_agent _ hc hu)]
    rcases portStep_moving_cases hc hq hu with ⟨hlast, -⟩ | ⟨hne, hmoving, -⟩
    · obtain rfl : n = 0 := by
        have := (remaining_eq_one_iff hlt).2 hlast
        omega
      exact ⟨u, rfl, last hi hc hq hlast hu⟩
    · obtain ⟨t, hrun, ht⟩ := ih (portStep_inv hi hc hu) (portStep_moving_clean hc hq hu) hmoving (by omega)
      exact ⟨t, hrun, earlier hi hc hq hne hu ht⟩

/-- A response given after a silent step is given after both. -/
theorem Responded.after_silent {p : Port} {st : Status} {data : Option Byte} {size : Word w} {s u t : Block w}
    (hsilent : NoResponse s u) (h : Responded p st data size u t) : Responded p st data size s t := by
  obtain ⟨hresponse, hpending, hothers⟩ := h
  rw [hsilent p] at hresponse hpending
  exact ⟨hresponse, hpending, fun q hq => (hothers q hq).trans (hsilent q)⟩

theorem Responded.withSchedule {p : Port} {st : Status} {data : Option Byte} {size : Word w} {s t : Block w}
    (rest : List Event) (h : Responded p st data size s t) : Responded p st data size s (withSchedule rest t) := by
  simpa only [Responded, withSchedule_port] using h

theorem ConsumerFrame.trans {s u t : Block w} (h : ConsumerFrame s u) (h' : ConsumerFrame u t) : ConsumerFrame s t := by
  obtain ⟨h1, h2, h3, h4, h5, h6, h7, h8, h9, h10, h11, h12, h13, h14⟩ := h
  obtain ⟨k1, k2, k3, k4, k5, k6, k7, k8, k9, k10, k11, k12, k13, k14⟩ := h'
  exact ⟨k1.trans h1, k2.trans h2, k3.trans h3, k4.trans h4, k5.trans h5, k6.trans h6, k7.trans h7, k8.trans h8,
    k9.trans h9, k10.trans h10, k11.trans h11, k12.trans h12, k13.trans h13, k14.trans h14⟩

theorem ProducerFrame.trans {s u t : Block w} (h : ProducerFrame s u) (h' : ProducerFrame u t) : ProducerFrame s t := by
  obtain ⟨h1, h2, h3, h4, h5, h6, h7, h8, h9, h10, h11, h12, h13⟩ := h
  obtain ⟨k1, k2, k3, k4, k5, k6, k7, k8, k9, k10, k11, k12, k13⟩ := h'
  exact ⟨k1.trans h1, k2.trans h2, k3.trans h3, k4.trans h4, k5.trans h5, k6.trans h6, k7.trans h7, k8.trans h8,
    k9.trans h9, k10.trans h10, k11.trans h11, k12.trans h12, k13.trans h13⟩

/-! ### READ as a whole (42_bulk.md R84) -/

/-- What the micro-steps of `READING(T, k)` have done when the last is over. -/
structure ReadDone (T k : Word w) (s t : Block w) : Prop where
  cSeq      : t.cSeq = .idle
  rdPos     : t.rdPos = s.rdPos + (T - k)
  responded : Responded .consumer .success none T s t
  moved     : ∀ j < (T - k).toNat, Memory.read t.dst (k.toNat + j) = s.contents[j]?
  others    : ∀ a, a < k.toNat ∨ T.toNat ≤ a → Memory.read t.dst a = Memory.read s.dst a
  contents  : t.contents = s.contents.drop (T - k).toNat
  err       : t.err = s.err
  frame     : ConsumerFrame s t

theorem readDone_last {s t : Block w} {T k : Word w} (hi : s.Inv) (hc : s.Clean) (hq : s.cSeq = .moving T k)
    (hlast : k + 1#w = T) (h : portStep .consumer s = .next t) : ReadDone T k s t := by
  have hlt := hi.done_lt_total (p := .consumer) hc hq
  have hone := (remaining_eq_one_iff hlt).2 hlast
  have hsub : T - k = 1#w := by rw [← hlast]; ring
  have hcons := readMicro_contents (hi.legal hc) hq
  obtain ⟨hidle, hresp⟩ := readMicro_last_responded s hlast
  rw [portStep_consumer_moving hc hq, Host.Outcome.next.injEq] at h
  subst h
  refine ⟨hidle, by rw [hsub, readMicro_rdPos], hresp, fun j hj => ?_, fun a ha => ?_, by rw [hone, hcons]; rfl,
    readMicro_err s, readMicro_frame s⟩
  · obtain rfl : j = 0 := by omega
    rw [readMicro_dst, Nat.add_zero, Memory.read_write_same, hcons]
    rfl
  · rw [readMicro_dst, Memory.read_write_other _ _ _ _ (by omega)]

theorem readDone_earlier {s u t : Block w} {T k : Word w} (hi : s.Inv) (hc : s.Clean) (hq : s.cSeq = .moving T k)
    (hne : k + 1#w ≠ T) (h : portStep .consumer s = .next u) (hdone : ReadDone T (k + 1#w) u t) :
    ReadDone T k s t := by
  have hlt := hi.done_lt_total (p := .consumer) hc hq
  have hk := toNat_add_one hlt T.isLt
  have hrem := remaining_succ hlt
  have hcons := readMicro_contents (hi.legal hc) hq
  obtain ⟨-, hsilent⟩ := readMicro_notLast_noResponse s hne
  rw [portStep_consumer_moving hc hq, Host.Outcome.next.injEq] at h
  subst h
  refine ⟨hdone.cSeq, ?_, hdone.responded.after_silent hsilent, fun j hj => ?_, fun a ha => ?_, ?_,
    hdone.err.trans (readMicro_err s), (readMicro_frame s).trans hdone.frame⟩
  · rw [hdone.rdPos, readMicro_rdPos]
    ring
  · rw [hcons]
    cases j with
    | zero =>
      rw [Nat.add_zero, hdone.others _ (.inl (by omega)), readMicro_dst, Memory.read_write_same]
      rfl
    | succ j =>
      rw [List.getElem?_cons_succ, ← hdone.moved j (by omega), hk]
      congr 1
      omega
  · rw [hdone.others a (by omega), readMicro_dst, Memory.read_write_other _ _ _ _ (by omega)]
  · rw [hdone.contents, hrem, hcons]
    rfl

/-- Settles O43: one micro-step after another, the last of which responds. -/
theorem readCompletesAfterItsMicroSteps : Obligations.ReadCompletesAfterItsMicroSteps := by
  intro w s T k rest hi hc hq
  refine ⟨fun m => run_moving (p := .consumer) rest hi hc hq, ?_⟩
  obtain ⟨t, hrun, done⟩ := run_to_idle (p := .consumer) rest readDone_last readDone_earlier hi hc hq
  obtain ⟨hproducer, hsetup, -⟩ := done.frame.keeps
  exact ⟨_, hrun, done.cSeq, done.rdPos, done.responded.withSchedule rest, done.moved, done.others, done.contents,
    done.err, hproducer, hsetup⟩

/-! ### WRITE as a whole (42_bulk.md R84) -/

/-- What the micro-steps of `WRITING(T, k)` have done when the last is over. -/
structure WriteDone (T k : Word w) (s t : Block w) : Prop where
  pSeq      : t.pSeq = .idle
  wrPos     : t.wrPos = s.wrPos + (T - k)
  responded : Responded .producer .success none T s t
  contents  : t.contents = s.contents ++ (List.range (T - k).toNat).map fun j => s.srcRead (k + BitVec.ofNat w j)
  err       : t.err = s.err
  src       : t.src = s.src
  frame     : ProducerFrame s t

theorem writeDone_last {s t : Block w} {T k : Word w} (hi : s.Inv) (hc : s.Clean) (hq : s.pSeq = .moving T k)
    (hlast : k + 1#w = T) (h : portStep .producer s = .next t) : WriteDone T k s t := by
  have hone := (remaining_eq_one_iff (hi.done_lt_total (p := .producer) hc hq)).2 hlast
  have hsub : T - k = 1#w := by rw [← hlast]; ring
  obtain ⟨hidle, hresp⟩ := writeMicro_last_responded s hlast
  rw [portStep_producer_moving hc hq, Host.Outcome.next.injEq] at h
  subst h
  refine ⟨hidle, by rw [hsub, writeMicro_wrPos], hresp, ?_, writeMicro_err s, writeMicro_src s, writeMicro_frame s⟩
  rw [hone, writeMicro_contents (hi.legal hc) hq]
  simp

/-- A silent step that keeps `SRC` keeps what is read of it, the bytes it does not list included (log 10). -/
theorem Block.srcRead_congr {s u : Block w} (hsrc : u.src = s.src) (hsilent : NoResponse s u) (j : Word w) :
    u.srcRead j = s.srcRead j := by
  rw [Block.srcRead, Block.srcRead, hsrc, ← port_producer u, hsilent .producer]
  rfl

theorem writeDone_earlier {s u t : Block w} {T k : Word w} (hi : s.Inv) (hc : s.Clean) (hq : s.pSeq = .moving T k)
    (hne : k + 1#w ≠ T) (h : portStep .producer s = .next u) (hdone : WriteDone T (k + 1#w) u t) :
    WriteDone T k s t := by
  have hrem := remaining_succ (hi.done_lt_total (p := .producer) hc hq)
  obtain ⟨-, hsilent⟩ := writeMicro_notLast_noResponse s hne
  rw [portStep_producer_moving hc hq, Host.Outcome.next.injEq] at h
  subst h
  refine ⟨hdone.pSeq, ?_, hdone.responded.after_silent hsilent, ?_, hdone.err.trans (writeMicro_err s),
    hdone.src.trans (writeMicro_src s), (writeMicro_frame s).trans hdone.frame⟩
  · rw [hdone.wrPos, writeMicro_wrPos]
    ring
  · have hnext (j : Nat) : k + 1#w + BitVec.ofNat w j = k + BitVec.ofNat w (j + 1) := by rw [BitVec.ofNat_add]; ring
    rw [hdone.contents, writeMicro_contents (hi.legal hc) hq, hrem, List.range_succ_eq_map, List.map_cons, List.map_map,
      List.append_assoc]
    simp only [Block.srcRead_congr (writeMicro_src s) hsilent, hnext]
    simp [Function.comp_def]

/-- Settles O44: one micro-step after another, the last of which responds. -/
theorem writeCompletesAfterItsMicroSteps : Obligations.WriteCompletesAfterItsMicroSteps := by
  intro w s T k rest hi hc hq
  refine ⟨fun m => run_moving (p := .producer) rest hi hc hq, ?_⟩
  obtain ⟨t, hrun, done⟩ := run_to_idle (p := .producer) rest writeDone_last writeDone_earlier hi hc hq
  obtain ⟨hconsumer, hsetup, -⟩ := done.frame.keeps
  exact ⟨_, hrun, done.pSeq, done.wrPos, done.responded.withSchedule rest, done.contents, done.err, done.src, hconsumer,
    hsetup⟩

end Sys2Proof.Machine

namespace Sys2Proof.Machine

variable {w : Nat}

/-! ### A clock edge, side by side (20_memory.md R42) -/

theorem atEdge_of_edgePort {v : Bool} {p : Port} {s t : Block w} (h : edgePort v p s = .next t) : AtEdge v p s t := by
  have hact : (v || s.busy p) = true ↔ v = true ∨ s.seq p ≠ .idle := by rw [Bool.or_eq_true, Block.busy_eq_true]
  refine ⟨fun hv => ?_, fun hv hq => ?_⟩
  · rwa [edgePort, if_pos (hact.2 hv)] at h
  · rw [hv, edgePort_idle hq, Host.Outcome.next.injEq] at h
    exact h.symm

/-- The block a clock edge acts on: its event off the schedule and its observation answered. -/
def edgeBlock (o : Option (BitVec 3)) (rest : List Event) (s : Block w) : Block w := observeWith o (withSchedule rest s)

/-- What a clock edge acts on is the block before it, but for the schedule and the values read. -/
theorem edgeBlock_eq_with (o : Option (BitVec 3)) (rest : List Event) (s : Block w) :
    ∃ obs, edgeBlock o rest s = { s with schedule := rest, obs := obs } := by
  cases o <;> exact ⟨_, rfl⟩

theorem edgeBlock_clean {o : Option (BitVec 3)} {rest : List Event} {s : Block w} (hc : s.Clean) :
    (edgeBlock o rest s).Clean := by
  cases o <;> exact hc

theorem edgeBlock_port (o : Option (BitVec 3)) (rest : List Event) (s : Block w) (p : Port) :
    (edgeBlock o rest s).port p = s.port p := by
  cases o <;> cases p <;> rfl

theorem Presents.edgeBlock {p : Port} {i : Instr} {s : Block w} (h : Presents p i s) (o : Option (BitVec 3))
    (rest : List Event) : Presents p i (edgeBlock o rest s) := by
  cases o <;> cases p <;> exact h

/-- A step whose event is a clock edge is the two sides' steps from the state before the edge, merged, and the host's on
what they leave. -/
theorem step_cycle_sides {s : Block w} {h p c : Bool} {o : Option (BitVec 3)} {rest : List Event} (hc : s.Clean)
    (hs : s.schedule = .cycle h p c o :: rest) :
    ∃ sp sc t, edgePort p .producer (edgeBlock o rest s) = .next sp ∧
      edgePort c .consumer (edgeBlock o rest s) = .next sc ∧
      edgePort h .host (mergeSides (edgeBlock o rest s) sp sc) = .next t ∧ step s.state = .next t.state := by
  obtain ⟨sp, sc, t, hsp, hsc, ht, hx⟩ := clockCycle_sides h p c (edgeBlock o rest s)
  refine ⟨sp, sc, t, hsp, hsc, ht, ?_⟩
  rw [step_of_schedule hs, runEvent, mapNext_settle_clean _ (by exact hc)]
  exact hx

/-- An INIT presented at a clock edge acts on the merged sides: a conflict with the sequencers they leave, or its own
registers over theirs (R42, R59, R62). -/
theorem portStep_host_init {m t : Block w} {bp : Bool} {cap : Word w} (hp : Presents .host (.init bp cap.toNat) m)
    (h : portStep .host m = .next t) :
    (m.pSeq ≠ .idle ∨ m.cSeq ≠ .idle → t.initc = true) ∧
      (m.pSeq = .idle → m.cSeq = .idle → bp = true → LegalCapacity m cap →
        t.rdPos = 0#w ∧ t.wrPos = 0#w ∧ t.mask = cap - 1#w ∧ t.cfg = true) := by
  obtain ⟨buf, cs, hstep⟩ := hp.portStep_eq
  rw [hstep, runCommand_eq, present] at h
  refine ⟨fun hbusy => ?_, fun hidleP hidleC hbp hcap => ?_⟩
  · rw [exec_init_busy (s := m.setPending .host cs) hbusy, Host.Outcome.next.injEq, state_inj] at h
    rw [← h]
    exact initConflict_initc _
  · have hgood : (m.setPending .host cs).badCapacity cap = false := legalCapacity_iff_badCapacity_eq_false.1 hcap
    rw [exec_init_idle (s := m.setPending .host cs) hidleP hidleC, hbp, if_neg (by decide), hgood,
      if_neg (by decide), Host.Outcome.next.injEq, state_inj] at h
    rw [← h]
    exact ⟨rfl, rfl, rfl, rfl⟩

/-- Settles O50: the edge's parts by `step_cycle_sides`, the merge field by field. -/
theorem clockEdgeCommitsBothSidesThenInit : Obligations.ClockEdgeCommitsBothSidesThenInit := by
  intro w s h p c o rest hc hs
  obtain ⟨sp, sc, t, hsp, hsc, ht, hstep⟩ := step_cycle_sides hc hs
  have hb := edgeBlock_clean (o := o) (rest := rest) hc
  obtain ⟨hconsumer, -⟩ := (edgePort_producer hb hsp).1.keeps
  obtain ⟨hproducer, -⟩ := (edgePort_consumer hb hsc).1.keeps
  refine ⟨edgeBlock o rest s, sp, sc, mergeSides (edgeBlock o rest s) sp sc, t, rfl, atEdge_of_edgePort hsp,
    atEdge_of_edgePort hsc, ⟨rfl, rfl, rfl, rfl, rfl⟩, ⟨rfl, rfl, rfl, rfl⟩, rfl, ⟨rfl, rfl, rfl⟩, ⟨rfl, rfl⟩, rfl, rfl,
    hconsumer, hproducer, atEdge_of_edgePort ht, hstep, fun bp cap hh hpres => ?_⟩
  subst hh
  obtain ⟨hconflict, hinit⟩ := portStep_host_init (m := mergeSides (edgeBlock o rest s) sp sc)
    (hpres.edgeBlock o rest) ht
  refine ⟨hconflict, fun hidleP hidleC hbp hcap => hinit hidleP hidleC hbp ?_⟩
  obtain ⟨obs, heq⟩ := edgeBlock_eq_with o rest s
  rw [heq]
  exact hcap

/-! ### Failing commands at a clock edge (41_single_byte.md R65 (e), R67 (d), R69 (e)) -/

/-- A presented command that brings no buffer and fails: the step is `fail`, on the block without the command. -/
theorem Presents.portStep_fails {p : Port} {i : Instr} {st : Status} {s : Block w} (h : Presents p i s)
    (hbuf : ∀ x, i ≠ .write x ∧ i ≠ .read x)
    (hfails : ∀ cs, exec i (s.setPending p cs).state = .next (fail p st (s.setPending p cs)).state) :
    ∃ cs, portStep p s = .next (fail p st (s.setPending p cs)) := by
  obtain ⟨buf, cs, hstep⟩ := h.portStep_eq
  exact ⟨cs, by rw [hstep, present_of_not_bulk hbuf, runCommand_eq, hfails]⟩

theorem fail_answeredError (p : Port) (st : Status) (s : Block w) (cs : List (Command w)) :
    AnsweredError p st s (fail p st (s.setPending p cs)) := by
  obtain ⟨⟨⟨r, hr, hstatus, hsize, hvalid, -⟩, -⟩, -⟩ := fail_failsWith p st (s.setPending p cs)
  rw [Block.setPending, port_setPort_same] at hr
  exact ⟨r, hr, hstatus, hvalid, hsize⟩

/-- An error is answered by the responses of its port alone. -/
theorem AnsweredError.congr {p : Port} {st : Status} {s t s' t' : Block w} (h : AnsweredError p st s t)
    (hs : s'.port p = s.port p) (ht : t'.port p = t.port p) : AnsweredError p st s' t' := by
  rw [AnsweredError, hs, ht]
  exact h

/-- Whatever the host's step does, INIT conflicts included, the data ports' queues stay. -/
theorem HostEffect.dataPorts {s t : Block w} (h : HostEffect s t) :
    t.producer = s.producer ∧ t.consumer = s.consumer := by
  cases h with
  | none io err _ state => rw [state]; exact ⟨rfl, rfl⟩
  | init io cap _ _ _ state => rw [state]; exact ⟨rfl, rfl⟩
  | conflict io _ state => rw [state]; exact ⟨rfl, rfl⟩

/-- A producer command that fails at an edge: its answer, and its side if the host does nothing. -/
theorem step_cycle_producer_fails {s : Block w} {h c : Bool} {o : Option (BitVec 3)} {rest : List Event} {i : Instr}
    {st : Status} (hc : s.Clean) (hs : s.schedule = .cycle h true c o :: rest) (hpres : Presents .producer i s)
    (hbuf : ∀ x, i ≠ .write x ∧ i ≠ .read x)
    (hfails : ∀ cs, exec i ((edgeBlock o rest s).setPending .producer cs).state =
      .next (fail .producer st ((edgeBlock o rest s).setPending .producer cs)).state) :
    ∃ t : Block w, step s.state = .next t.state ∧ AnsweredError .producer st s t ∧
      (h = false → t.wrPos = s.wrPos ∧ SameStorage s t) := by
  obtain ⟨sp, sc, t, hsp, hsc, ht, hstep⟩ := step_cycle_sides hc hs
  obtain ⟨cs, hport⟩ := (hpres.edgeBlock o rest).portStep_fails hbuf hfails
  obtain rfl : fail .producer st ((edgeBlock o rest s).setPending .producer cs) = sp := by
    simpa [edgePort, hport] using hsp
  refine ⟨t, hstep, (fail_answeredError .producer st (edgeBlock o rest s) cs).congr (edgeBlock_port o rest s _).symm
    (edgePort_host ht).dataPorts.1, fun hh => ?_⟩
  rw [hh, edgePort_idle rfl, Host.Outcome.next.injEq] at ht
  obtain ⟨obs, heq⟩ := edgeBlock_eq_with o rest s
  rw [← ht, heq]
  exact ⟨rfl, fun _ => ⟨rfl, rfl⟩⟩

/-- A consumer command that fails at an edge: its answer, and its counter if the host does nothing. -/
theorem step_cycle_consumer_fails {s : Block w} {h p : Bool} {o : Option (BitVec 3)} {rest : List Event} {i : Instr}
    {st : Status} (hc : s.Clean) (hs : s.schedule = .cycle h p true o :: rest) (hpres : Presents .consumer i s)
    (hbuf : ∀ x, i ≠ .write x ∧ i ≠ .read x)
    (hfails : ∀ cs, exec i ((edgeBlock o rest s).setPending .consumer cs).state =
      .next (fail .consumer st ((edgeBlock o rest s).setPending .consumer cs)).state) :
    ∃ t : Block w, step s.state = .next t.state ∧ AnsweredError .consumer st s t ∧
      (h = false → t.rdPos = s.rdPos) := by
  obtain ⟨sp, sc, t, hsp, hsc, ht, hstep⟩ := step_cycle_sides hc hs
  obtain ⟨cs, hport⟩ := (hpres.edgeBlock o rest).portStep_fails hbuf hfails
  obtain rfl : fail .consumer st ((edgeBlock o rest s).setPending .consumer cs) = sc := by
    simpa [edgePort, hport] using hsc
  refine ⟨t, hstep, (fail_answeredError .consumer st (edgeBlock o rest s) cs).congr (edgeBlock_port o rest s _).symm
    (edgePort_host ht).dataPorts.2, fun hh => ?_⟩
  rw [hh, edgePort_idle rfl, Host.Outcome.next.injEq] at ht
  obtain ⟨obs, heq⟩ := edgeBlock_eq_with o rest s
  rw [← ht, heq]
  rfl

/-- Settles O51: each command fails by its own check on the state before the edge. -/
theorem sameEdgeCommandsSeeTheStateBefore : Obligations.SameEdgeCommandsSeeTheStateBefore := by
  intro w s h p c o rest hc hcfg hs
  obtain ⟨obs, heq⟩ := edgeBlock_eq_with o rest s
  have hcfg' {q : Port} {cs : List (Command w)} : ((edgeBlock o rest s).setPending q cs).cfg = true := by
    rw [setPending_cfg, heq, hcfg]
  refine ⟨fun b hp hpres hfull => ?_, fun hq hpres hempty => ?_, fun idx hq hpres hbeyond => ?_⟩
  · subst hp
    refine step_cycle_producer_fails hc hs hpres (by simp) fun cs => ?_
    rw [exec_put hcfg', if_pos]
    rw [setPending_mask, setPending_occ, heq]
    exact hfull
  · subst hq
    refine step_cycle_consumer_fails hc hs hpres (by simp) fun cs => ?_
    rw [exec_get hcfg', if_pos]
    rw [setPending_occ, heq]
    exact hempty
  · subst hq
    refine step_cycle_consumer_fails hc hs hpres (by simp) fun cs => ?_
    rw [exec_peek hcfg', if_pos]
    rw [setPending_occ, heq]
    exact hbeyond

end Sys2Proof.Machine
